-- ==== Sys2Proof/Word.lean ====
section
/-! DEFINITION. The word types of the block: what a cell, a register or a record field holds
(spec/10_state.md, spec/00_scope.md rules R6 and R7). -/

namespace Sys2Proof

/-- A byte: a Symbol (rule R6), a cell of `IN`, `OUT`, `PAY`, `DBUF`, a command word (rule R80). -/
abbrev Byte := BitVec 8

/-- One cell of the bit space `BITS` (rule R54): `false` is the bit 0, `true` the bit 1. -/
abbrev Bit := Bool

/-- A frequency register, 32 bits (rule R20). -/
abbrev Count := BitVec 32

/-- A length register, `LEN_W = 40` bits (rule R7). -/
abbrev Len := BitVec 40

/-- A node's weight, `WEIGHT_W = 40` bits (rule R7). -/
abbrev Weight := BitVec 40

/-- An arena index or `NIL`, 9 bits (rule R46). -/
abbrev NodeIx := BitVec 9

end Sys2Proof
end

