-- ==== Sys2Proof/Config.lean ====
section
/-! DEFINITION. What is fixed for one instance of the block: the constants of spec/00_scope.md rules
R6 and R7, its named parameters (rule R8), and the values that spec/93_implementation_defined.md
U1 and U9 leave open (no body: nothing can be proved of a value of theirs). -/

namespace Sys2Proof

/-- `NSYM` (rule R6): the number of symbols. -/
def nsym : Nat := 256

/-- `NNODE_MAX` (rule R7): the number of arena records. -/
def nnodeMax : Nat := 511

/-- `NIL` (rules R7 and R46): the node index that means "no child"; it is no record of the arena. -/
def nilIx : NodeIx := 511#9

/-- `CLEN_MAX` (rule R7): the longest code in bits. -/
def clenMax : Nat := 255

/-- `FREQ_MAX` (rule R7): the largest frequency. -/
def freqMax : Nat := 2 ^ 31 - 1

/-- The four byte spaces (spec/20_memory.md rule R66). The fifth space, `BITS`, holds bits. -/
inductive Space where
  | inp
  | out
  | pay
  | dbuf
  deriving DecidableEq, Repr

/-- The named parameters of rule R8 that size the buffers; a state carries them and no command
writes them. `BUS_MAP` is left out: no rule depends on it (rule R66). -/
structure Config where
  /-- `IN_CAP`, bytes. -/
  inCap : Nat
  /-- `OUT_CAP`, bytes of the output buffer and of the decode staging buffer. -/
  outCap : Nat
  /-- `PAY_CAP`, bytes of the payload staging buffer. -/
  payCap : Nat
  deriving DecidableEq, Repr

/-- `BITS_CAP = 8 * PAY_CAP` (rule R8): the number of bit cells. -/
def Config.bitsCap (c : Config) : Nat := 8 * c.payCap

/-- The number of cells of a byte space (rule R66). -/
def Config.cells (c : Config) : Space → Nat
  | .inp => c.inCap
  | .out => c.outCap
  | .pay => c.payCap
  | .dbuf => c.outCap

/-- The largest capacities rule R8 allows. DESIGN CHOICE (log entry 2), unsafe: the spec leaves the
capacities open, and the reset state must carry some. -/
def Config.largest : Config :=
  { inCap := 2 ^ 31 - 1, outCap := 2 ^ 40 - 1, payCap := 2 ^ 37 - 1 }

/-- FREE VALUE (log entry 3): what a byte cell that nothing has written holds, by the epoch of its
contents, its space and its index (rule R56). -/
opaque Config.unwrittenByte : Nat → Space → Nat → Byte

/-- FREE VALUE (log entry 3): what a cell of `BITS` that nothing has written holds. -/
opaque Config.unwrittenBit : Nat → Nat → Bit

/-- FREE VALUE (log entry 4): what the `k`-th host read of an unspecified location returns
(spec/93_implementation_defined.md U1 and U9). -/
opaque Config.unspecifiedRead : Nat → Nat

end Sys2Proof
end

