-- ==== Sys2Proof/Syntax.lean ====
section
/-! DEFINITION. The syntax of what the block is asked to do: the 13 commands
(spec/30_encoding.md rule R82), the locations a host can name (spec/10_state.md rules R30 and R55)
and the host's actions (spec/00_scope.md rule R16). -/

namespace Sys2Proof

/-- The 13 commands, in the order of rule R82. None has an operand field (rule R81). -/
inductive Instr where
  /-- `CLR`, clear (rule R190). -/
  | clr
  /-- `CNT`, count (rule R111). -/
  | cnt
  /-- `BLD`, build the tree (rule R121). -/
  | bld
  /-- `GEN`, generate codes (rule R136). -/
  | gen
  /-- `ENC`, encode (rule R146). -/
  | enc
  /-- `PCK`, pack (rule R151). -/
  | pck
  /-- `SER`, serialize (rule R166). -/
  | ser
  /-- `PAR`, parse (rule R170). -/
  | par
  /-- `UPK`, unpack (rule R157). -/
  | upk
  /-- `WLK`, walk (rule R185). -/
  | wlk
  /-- `EMT`, emit (rule R189). -/
  | emt
  /-- `CMP`, compress (rule R192). -/
  | cmp
  /-- `DCM`, decompress (rule R193). -/
  | dcm
  deriving DecidableEq, Repr

/-- A location the host can name: a register, a register-file entry, a record field, a cell
(rules R30, R55 and R64). -/
inductive Loc where
  | cmd
  | phase
  | flags
  | result
  | cause
  | inLen
  | outLen
  | symcnt
  | root
  | nnodes
  | bitLen
  | padLen
  | payLen
  | dLen
  | freq (s : Byte)
  | clen (s : Byte)
  | cbits (s : Byte)
  | nodeKind (i : Fin 511)
  | nodeSym (i : Fin 511)
  | nodeWeight (i : Fin 511)
  | nodeLeft (i : Fin 511)
  | nodeRight (i : Fin 511)
  | cell (sp : Space) (a : Nat)
  | bit (a : Nat)
  deriving DecidableEq, Repr

/-- One action of the host on the block, between two commands (rule R16). -/
inductive HostAction where
  /-- Write `c` to `CMD`: run a command (rule R31). -/
  | command (c : Byte)
  /-- Write the byte `v` to `IN[a]` (rule R55). -/
  | writeIn (a : Nat) (v : Byte)
  /-- Write `n` to `IN_LEN` (rules R34 and R55). -/
  | writeInLen (n : Len)
  /-- Write to a location the host may not write: refused (rule R55). -/
  | writeReadOnly (l : Loc) (v : Nat)
  /-- Read a location (rules R55 and R65). -/
  | read (l : Loc)
  /-- Reset the block (rule R230). -/
  | reset
  deriving DecidableEq, Repr

end Sys2Proof
end

