-- ==== Sys2Proof/WellFormed.lean ====
section
/-! DEFINITION. Which terms of the syntax stand for something the spec allows: capacities in the
ranges of spec/00_scope.md rule R8, a location a host write cannot change
(spec/10_state.md rule R55), a host action. -/

namespace Sys2Proof

/-- Every command is well formed: format `C` has the one field `OP` and no operand (rules R80, R81
and R83), so no constructor carries anything to check. -/
def Instr.wf : Instr → Bool
  | .clr | .cnt | .bld | .gen | .enc | .pck | .ser | .par | .upk | .wlk | .emt | .cmp | .dcm => true

/-- The capacities are in the ranges of rule R8. -/
def Config.legal (c : Config) : Bool :=
  decide (1 ≤ c.inCap ∧ c.inCap ≤ 2 ^ 31 - 1) &&
  decide (3 ≤ c.outCap ∧ c.outCap < 2 ^ 40) &&
  decide (1 ≤ c.payCap ∧ c.payCap < 2 ^ 37)

/-- A location no host write changes: all but `CMD`, `IN_LEN` and the cells of `IN` (rule R55). -/
def Loc.readOnly : Loc → Bool
  | .cmd => false
  | .inLen => false
  | .cell .inp _ => false
  | _ => true

/-- A host action is well formed if a write named as refused names a read-only location; every
other action carries values of the width its location has. -/
def HostAction.wf : HostAction → Bool
  | .writeReadOnly l _ => l.readOnly
  | .command _ | .writeIn _ _ | .writeInLen _ | .read _ | .reset => true

end Sys2Proof
end

