-- ==== Sys2Proof/Decode.lean ====
section
/-! DEFINITION. The command word (spec/30_encoding.md rules R80 to R85): the operation codes of rule
R82 as mask and match rows, the decoder, and the encoder. -/

namespace Sys2Proof

/-- One row of the operation-code table: a word `w` selects `instr` when `w AND mask = code`. -/
structure OpRow where
  mask : Byte
  code : Byte
  instr : Instr
  deriving DecidableEq, Repr

/-- The table of rule R82. "A decoder matches all eight bits: mask = 0xFF, match = OP." -/
def opTable : List OpRow :=
  [⟨0xFF#8, 0x00#8, .clr⟩, ⟨0xFF#8, 0x01#8, .cnt⟩, ⟨0xFF#8, 0x02#8, .bld⟩, ⟨0xFF#8, 0x03#8, .gen⟩,
   ⟨0xFF#8, 0x04#8, .enc⟩, ⟨0xFF#8, 0x05#8, .pck⟩, ⟨0xFF#8, 0x06#8, .ser⟩, ⟨0xFF#8, 0x07#8, .par⟩,
   ⟨0xFF#8, 0x08#8, .upk⟩, ⟨0xFF#8, 0x09#8, .wlk⟩, ⟨0xFF#8, 0x0A#8, .emt⟩, ⟨0xFF#8, 0x0B#8, .cmp⟩,
   ⟨0xFF#8, 0x0C#8, .dcm⟩]

/-- Does the word `w` select the row? -/
def OpRow.selects (r : OpRow) (w : Byte) : Bool := (w &&& r.mask) == r.code

/-- Why a word is no command. -/
inductive DecodeError where
  /-- `OP` values `0x0D..0xFF` select no command (rule R84). -/
  | reserved (w : Byte)
  deriving DecidableEq, Repr

/-- The decoder: total on every word, rejecting the reserved ones by name (rules R82 and R84). -/
def decode (w : Byte) : Except DecodeError Instr :=
  match opTable.find? (·.selects w) with
  | some r => .ok r.instr
  | none => .error (.reserved w)

/-- The operation code of a command (rule R82). -/
def encode : Instr → Byte
  | .clr => 0x00#8
  | .cnt => 0x01#8
  | .bld => 0x02#8
  | .gen => 0x03#8
  | .enc => 0x04#8
  | .pck => 0x05#8
  | .ser => 0x06#8
  | .par => 0x07#8
  | .upk => 0x08#8
  | .wlk => 0x09#8
  | .emt => 0x0A#8
  | .cmp => 0x0B#8
  | .dcm => 0x0C#8

/-- The instruction the decoder reads from a word numbered as spec/opcode_table.json numbers it.
There is one length, 8 bits (rule R80); a word of another length, or with a bit above bit 7, is no
command. -/
def decodeTableWord (nbits w : Nat) : Option Instr :=
  if nbits = 8 ∧ w < 256 then
    match decode (BitVec.ofNat 8 w) with
    | .ok i => some i
    | .error _ => none
  else none

end Sys2Proof
end

