-- ==== Sys2Proof/Machine/State.lean ====
section
/-! DEFINITION. The architectural state (spec/10_state.md, whole), the reasons a step can stop, and
the state after reset (rules R59 and R230). -/

namespace Sys2Proof.Machine

/-- The engine state held in `PHASE`, 4 bits; the values 9 to 15 are never held (rule R24,
spec/93_implementation_defined.md U6). -/
inductive Phase where
  | idle
  | counted
  | treeBuilt
  | encoded
  | written
  | parsed
  | treeRebuilt
  | decoded
  | failed
  deriving DecidableEq, Repr

/-- The result of the most recent command held in `RESULT`, 3 bits (rules R32 and R200). The block
never writes `ioError` (rule R201). -/
inductive Result where
  | ok
  | ioError
  | invalidInput
  | usageError
  | sequenceError
  | capacityError
  deriving DecidableEq, Repr

/-- What `CAUSE`, 4 bits, refines `RESULT` with (rules R33 and R202). -/
inductive Cause where
  | none
  | emptyTable
  | truncated
  | padRange
  | nullChild
  | symCountRange
  | badFrequency
  | dupSymbol
  | payloadShort
  | extraPayload
  | midCode
  | countMismatch
  | noCode
  | capBits
  | capPay
  | capOut
  deriving DecidableEq, Repr

/-- The field `KIND` of an arena record, 1 bit: 0 Leaf, 1 Internal (rule R46). -/
inductive Kind where
  | leaf
  | internal
  deriving DecidableEq, Repr

/-- One record of the arena `NODE` (rule R46). -/
structure Node where
  kind : Kind
  sym : Byte
  weight : Weight
  left : NodeIx
  right : NodeIx
  deriving DecidableEq, Repr

/-- The record whose every field is zero (rules R47 and R59). -/
def Node.zero : Node := { kind := .leaf, sym := 0#8, weight := 0#40, left := 0#9, right := 0#9 }

/-- The contents of a space: (index, cell) pairs, the indices strictly rising. A cell that is not
listed has not been written since reset or `CLR` and holds an unspecified value (rule R56). For the
byte spaces a pair is a `Host.Cell`. -/
abbrev Memory (α : Type) := List (Nat × α)

/-- The state of the block, and beside it what the model adds: the capacities of this instance, the
host's actions still to come, and the counters and the read-back value that stand for what the host
sees. -/
structure State where
  /-- `PHASE` (rule R24). -/
  phase : Phase
  /-- `FLAGS` bit 0, `CTV`: the code table is valid (rule R27). -/
  ctv : Bool
  /-- `FLAGS` bit 1, `BSV`: the bit sequence is valid (rule R28). -/
  bsv : Bool
  /-- `FLAGS` bit 2, `ES`: an error was seen (rule R29). -/
  es : Bool
  /-- `RESULT` (rule R32). -/
  result : Result
  /-- `CAUSE` (rule R33). -/
  cause : Cause
  /-- `IN_LEN` (rule R34). -/
  inLen : Len
  /-- `OUT_LEN` (rule R36). -/
  outLen : Len
  /-- `SYMCNT` (rule R35). -/
  symcnt : BitVec 9
  /-- `ROOT` (rule R37). -/
  root : NodeIx
  /-- `NNODES` (rule R38). -/
  nnodes : BitVec 10
  /-- `BITLEN` (rule R39). -/
  bitLen : Len
  /-- `PADLEN` (rule R40). -/
  padLen : BitVec 4
  /-- `PAY_LEN` (rule R41). -/
  payLen : Len
  /-- `DLEN` (rule R42). -/
  dLen : Len
  /-- `FREQ[0..255]` (rule R20). -/
  freq : Vector Count 256
  /-- `CLEN[0..255]` (rule R43). -/
  clen : Vector (BitVec 8) 256
  /-- `CBITS[0..255]` (rule R44). -/
  cbits : Vector (BitVec 255) 256
  /-- `NODE[0..510]` (rule R46). -/
  node : Vector Node 511
  /-- `IN` (rule R51). -/
  inBuf : Memory Byte
  /-- `OUT` (rule R52). -/
  out : Memory Byte
  /-- `PAY` (rule R53). -/
  pay : Memory Byte
  /-- `BITS` (rule R54). -/
  bits : Memory Bit
  /-- `DBUF` (rule R54). -/
  dbuf : Memory Byte
  /-- The capacities of this instance (rule R8); no action changes them. The model's own field. -/
  config : Config
  /-- The host's actions still to come, first one first (rule R16). The model's own field. -/
  host : List HostAction
  /-- Counts the resets and clears, each of which leaves every cell unspecified anew (rule R56). The
  model's own field: it only selects free values. -/
  epoch : Nat
  /-- Counts the host reads answered with an unspecified value. The model's own field: it only
  selects free values. -/
  draws : Nat
  /-- What the host's last read returned, if it has read. The model's own field. -/
  lastRead : Option Nat
  deriving DecidableEq, Repr

/-- Reasons the machine stops. No command sequence from reset reaches one: each stands where a
command's pseudocode has no meaning, in states that break an invariant of the spec. All are safe:
the model stops where the spec says nothing (log entry 6). -/
inductive Fault where
  /-- `BLD` or `SER` with `SYMCNT` not the number of keys of `FREQ`, against rule R21: the key `s_k`
  of the pseudocode does not exist or keys are left over. Safe. -/
  | tableMismatch
  /-- `GEN` or `WLK` would read `NODE[511]`: "Index 511 is not a record" (rule R46), "no command
  forms one" (rule R67). Safe. -/
  | noRecord
  /-- `GEN` descends more than 255 levels below `ROOT`, against rule R139: `NODE` is no tree, and
  the path fits no code register. Safe. -/
  | codeTooLong
  /-- `UPK` or `EMT` would write a cell beyond its space: "An index outside a space does not exist"
  (rule R67). Safe. -/
  | noCell
  deriving DecidableEq, Repr

/-- Reasons the model gives an instruction no meaning. -/
inductive Refusal where
  /-- Raised by `exec` alone, for an instruction that has no meaning yet: none is left. Safe. -/
  | notModelled (mnemonic : String)
  deriving DecidableEq, Repr

/-- The machine right after reset: the cleared state of rule R59. The five model fields are set as
log entries 2, 3, 4 and 5 say. -/
def State.reset : State :=
  { phase := .idle, ctv := false, bsv := false, es := false, result := .ok, cause := .none,
    inLen := 0#40, outLen := 0#40, symcnt := 0#9, root := nilIx, nnodes := 0#10, bitLen := 0#40,
    padLen := 0#4, payLen := 0#40, dLen := 0#40,
    freq := Vector.replicate 256 0#32, clen := Vector.replicate 256 0#8,
    cbits := Vector.replicate 256 0#255, node := Vector.replicate 511 Node.zero,
    inBuf := [], out := [], pay := [], bits := [], dbuf := [],
    config := Config.largest, host := [], epoch := 0, draws := 0, lastRead := none }

end Sys2Proof.Machine
end

