-- ==== Sys2Proof/Machine/Ops.lean ====
section
/-! DEFINITION. The shared operations: reading and storing cells of a space (spec/20_memory.md),
how a command ends (success, rule R211; failure entry, rules R217 and R219; rejection, rule R218),
recovery by clearing (rules R59, R190 and R220), and how a command and a macro command are run. -/

namespace Sys2Proof.Machine

/-- What one step answers. -/
abbrev StepResult := Host.Outcome State Fault Refusal

/-! ## Cells of a space -/

/-- The canonical form: the indices strictly rise, so equal contents are equal data. -/
def Memory.wf {α : Type} (m : Memory α) : Bool := decide (m.Pairwise fun c d => c.1 < d.1)

/-- The cell at index `a`, if it has been written. -/
def Memory.read? {α : Type} (m : Memory α) (a : Nat) : Option α := m.lookup a

/-- The cells `a`, `a+1`, … holding the elements of `vs` in order. -/
def Memory.run {α : Type} (a : Nat) : List α → Memory α
  | [] => []
  | v :: vs => (a, v) :: Memory.run (a + 1) vs

/-- Write the elements of `vs` to the cells `a`, `a+1`, …; every other cell is kept. -/
def Memory.store {α : Type} (m : Memory α) (a : Nat) (vs : List α) : Memory α :=
  m.filter (fun c => c.1 < a) ++ (Memory.run a vs ++ m.filter (fun c => a + vs.length ≤ c.1))

/-- Write one cell. -/
def Memory.write {α : Type} (m : Memory α) (a : Nat) (v : α) : Memory α := m.store a [v]

/-- The contents of a byte space. -/
def State.space (s : State) : Space → Memory Byte
  | .inp => s.inBuf
  | .out => s.out
  | .pay => s.pay
  | .dbuf => s.dbuf

/-- The read of one byte cell. A cell that nothing has written holds a free value (rule R56). -/
def State.byteAt (s : State) (sp : Space) (a : Nat) : Byte :=
  ((s.space sp).read? a).getD (Config.unwrittenByte s.epoch sp a)

/-- The read of one bit cell. A cell that nothing has written holds a free value (rule R56). -/
def State.bitAt (s : State) (a : Nat) : Bit :=
  (s.bits.read? a).getD (Config.unwrittenBit s.epoch a)

/-- The number a byte sequence stands for, little-endian: "the byte at the lowest index holds bits
7..0 of the value" (rule R60). -/
def leValue : List Byte → Nat
  | [] => 0
  | b :: bs => b.toNat + 256 * leValue bs

/-- The `n` low-order bytes of `v`, little-endian (rules R11 and R60). -/
def leBytes : Nat → Nat → List Byte
  | 0, _ => []
  | n + 1, v => BitVec.ofNat 8 v :: leBytes n (v / 256)

/-- `MemRead(SPACE, a, n)` (rule R11). -/
def State.memRead (s : State) (sp : Space) (a n : Nat) : Nat :=
  leValue ((List.range n).map fun k => s.byteAt sp (a + k))

/-! ## How a command ends -/

/-- Why the body of a command does not complete. -/
inductive Stop where
  /-- `raise R(c)` (rule R11). -/
  | raise (r : Result) (c : Cause)
  /-- The pseudocode has no meaning in this state; no run from reset reaches it. -/
  | stuck (f : Fault)
  deriving DecidableEq, Repr

/-- `raise InvalidInput(c)`. -/
def invalidInput {α : Type} (c : Cause) : Except Stop α := .error (.raise .invalidInput c)

/-- `raise CapacityError(c)`. -/
def capacityError {α : Type} (c : Cause) : Except Stop α := .error (.raise .capacityError c)

/-- A command that meets no error: `RESULT <- OK`, `CAUSE <- 0`, `ES` as it was (rule R211). -/
def State.succeed (s : State) : State := { s with result := .ok, cause := .none }

/-- Failure entry: `RESULT`, `CAUSE`, `ES <- 1`, `PHASE <- Failed`, and nothing else (rule R217).
Given the state before the command it also discards every write of it (rule R219). -/
def State.failWith (s : State) (r : Result) (c : Cause) : State :=
  { s with result := r, cause := c, es := true, phase := .failed }

/-- Rejection: `RESULT`, `CAUSE <- 0`, `ES <- 1`; `PHASE` and all other state unchanged
(rule R218). -/
def State.reject (s : State) (r : Result) : State :=
  { s with result := r, cause := .none, es := true }

/-- Recovery, and reset: the cleared state of rule R59, every buffer cell unspecified again. What is
outside the block (its capacities, the host) stays. -/
def State.cleared (s : State) : State :=
  { State.reset with
    config := s.config, host := s.host, epoch := s.epoch + 1, draws := s.draws,
    lastRead := s.lastRead }

/-- The end of an accepted command that started in `s`. -/
def conclude (s : State) : Except Stop State → StepResult
  | .ok t => .next t.succeed
  | .error (.raise r c) => .next (s.failWith r c)
  | .error (.stuck f) => .fault f

/-- One command: acceptance first, then its body (rules R181 and R208). -/
def command (accepted : Bool) (body : State → Except Stop State) (s : State) : StepResult :=
  if accepted then conclude s (body s) else .next (s.reject .sequenceError)

/-- Go on to the next stage of a macro command if the stage before ended with `OK`; else the macro
ends there, with that stage's result (rule R191). -/
def andThen (o : StepResult) (next : State → StepResult) : StepResult :=
  match o with
  | .next t => if t.result = .ok then next t else .next t
  | .fault f => .fault f
  | .refused r => .refused r

/-- The stages of a macro command in order (rules R70 and R191). -/
def stages : List (State → StepResult) → State → StepResult
  | [], s => .next s
  | c :: cs, s => andThen (c s) (stages cs)

/-- Write `vs` to the cells `0`, `1`, … of a space of `cap` cells; a cell beyond the space does not
exist (rule R67). -/
def storeWithin {α : Type} (cap : Nat) (vs : List α) (m : Memory α) : Except Stop (Memory α) :=
  if vs.length ≤ cap then .ok (m.store 0 vs) else .error (.stuck .noCell)

end Sys2Proof.Machine
end

