-- ==== Sys2Proof/Machine/Operands.lean ====
section
/-! DEFINITION. The operands of the commands. A command has no operand field: "Its operands are the
state the rule of the command names" (spec/30_encoding.md rule R81). This file reads each of them
out of the state: the input bytes, the payload, the bit sequence, the decoded bytes, the keys of the
frequency table, the code of a symbol, a record of the arena. -/

namespace Sys2Proof.Machine

/-! ## Register files indexed by symbol -/

/-- The 256 symbols in ascending order. -/
def symbols : List Byte := (List.range 256).map (BitVec.ofNat 8)

/-- The register file whose entry `s` is `f s`. -/
def tabulate {α : Type} (f : Byte → α) : Vector α 256 :=
  ⟨⟨symbols.map f⟩, by simp [symbols]⟩

/-- Entry `s` of a register file: "The index is the symbol value itself" (rule R20). -/
def entry {α : Type} (t : Vector α 256) (s : Byte) : α := t[s.toNat]

/-- Write entry `s` of a register file. -/
def setEntry {α : Type} (t : Vector α 256) (s : Byte) (v : α) : Vector α 256 :=
  t.set s.toNat v s.isLt

/-- The keys of a frequency table in ascending order: the symbols with `FREQ[s] > 0` (rule R21). -/
def keys (f : Vector Count 256) : List Byte :=
  (symbols.zip f.toList).filterMap fun e => if e.2.toNat = 0 then none else some e.1

/-- The sum of all entries of a frequency table, as a natural number (rule R13). -/
def freqSum (f : Vector Count 256) : Nat := (f.toList.map BitVec.toNat).sum

/-! ## The code table -/

/-- `CODE[s]`: the bits `0 .. CLEN[s]-1` of `CBITS[s]` (rule R45). -/
def State.code (s : State) (sy : Byte) : List Bit :=
  (List.range (entry s.clen sy).toNat).map fun i => (entry s.cbits sy).getLsbD i

/-- The number whose bit `i` is element `i` of a bit sequence (rule R44). -/
def pathValue : List Bit → Nat
  | [] => 0
  | b :: bs => b.toNat + 2 * pathValue bs

/-- The pair of register files `CLEN`, `CBITS`. -/
structure CodeTable where
  clen : Vector (BitVec 8) 256
  cbits : Vector (BitVec 255) 256
  deriving DecidableEq, Repr

/-- The table in which no symbol has a code (rules R43 and R44). -/
def CodeTable.empty : CodeTable :=
  { clen := Vector.replicate 256 0#8, cbits := Vector.replicate 256 0#255 }

/-- `CODE[s] <- p` (rule R45). -/
def CodeTable.set (t : CodeTable) (sy : Byte) (p : List Bit) : CodeTable :=
  { clen := setEntry t.clen sy (BitVec.ofNat 8 p.length),
    cbits := setEntry t.cbits sy (BitVec.ofNat 255 (pathValue p)) }

/-! ## The arena -/

/-- The record at an arena index; there is none at `NIL` (rule R46). -/
def recordAt (arena : Vector Node 511) (i : NodeIx) : Except Stop Node :=
  match arena[i.toNat]? with
  | some nd => .ok nd
  | none => .error (.stuck .noRecord)

/-- The child a bit leads to: `LEFT` for 0, `RIGHT` for 1 (rule R137). -/
def Node.child (nd : Node) (b : Bit) : NodeIx := if b then nd.right else nd.left

/-! ## The valid cells of the buffers -/

/-- The first `n` cells of a byte space. -/
def State.bytes (s : State) (sp : Space) (n : Nat) : List Byte :=
  (List.range n).map (s.byteAt sp)

/-- `IN[0..IN_LEN)` (rule R51). -/
def State.input (s : State) : List Byte := s.bytes .inp s.inLen.toNat

/-- `OUT[0..OUT_LEN)` (rule R52). -/
def State.output (s : State) : List Byte := s.bytes .out s.outLen.toNat

/-- `PAY[0..PAY_LEN)` (rule R53). -/
def State.payload (s : State) : List Byte := s.bytes .pay s.payLen.toNat

/-- `DBUF[0..DLEN)` (rule R54). -/
def State.decodedBytes (s : State) : List Byte := s.bytes .dbuf s.dLen.toNat

/-- `BITS[0..BITLEN)` (rule R54). -/
def State.bitSeq (s : State) : List Bit := (List.range s.bitLen.toNat).map s.bitAt

end Sys2Proof.Machine
end

