-- ==== Sys2Proof/Machine/Flags.lean ====
section
/-! DEFINITION. `FLAGS`, and what the sequencer reads of it and of `PHASE`: the register's layout
(spec/10_state.md rules R27 to R29), which command is accepted when (spec/45_engine.md rule R181),
and the number each named value of `PHASE`, `RESULT`, `CAUSE` and `KIND` is encoded as. -/

namespace Sys2Proof.Machine

/-- `FLAGS` as a host reads it: bit 0 `CTV`, bit 1 `BSV`, bit 2 `ES` (rule R27). -/
def State.flags (s : State) : BitVec 3 :=
  BitVec.ofNat 3 (s.ctv.toNat + 2 * s.bsv.toNat + 4 * s.es.toNat)

/-- `CTV <- 1` (rule R136). -/
def State.setCtv (s : State) : State := { s with ctv := true }

/-- `BSV <- 1` (rules R146 and R157). -/
def State.setBsv (s : State) : State := { s with bsv := true }

/-- The acceptance table of rule R181. -/
def accepts (i : Instr) (s : State) : Bool :=
  match i with
  | .clr => true
  | .cnt => s.phase = .idle
  | .par => s.phase = .idle
  | .cmp => s.phase = .idle
  | .dcm => s.phase = .idle
  | .bld => s.phase = .counted || s.phase = .parsed
  | .gen => s.phase = .treeBuilt && !s.ctv
  | .enc => s.phase = .treeBuilt && s.ctv && !s.bsv
  | .pck => s.phase = .treeBuilt && s.bsv
  | .ser => s.phase = .encoded
  | .upk => s.phase = .treeRebuilt && !s.bsv
  | .wlk => s.phase = .treeRebuilt && s.bsv
  | .emt => s.phase = .decoded

/-- The values of `PHASE` (rule R24). -/
def Phase.code : Phase → BitVec 4
  | .idle => 0#4
  | .counted => 1#4
  | .treeBuilt => 2#4
  | .encoded => 3#4
  | .written => 4#4
  | .parsed => 5#4
  | .treeRebuilt => 6#4
  | .decoded => 7#4
  | .failed => 8#4

/-- The values of `RESULT` (rules R32 and R200). -/
def Result.code : Result → BitVec 3
  | .ok => 0#3
  | .ioError => 1#3
  | .invalidInput => 2#3
  | .usageError => 3#3
  | .sequenceError => 4#3
  | .capacityError => 5#3

/-- The values of `CAUSE` (rule R202). -/
def Cause.code : Cause → BitVec 4
  | .none => 0#4
  | .emptyTable => 1#4
  | .truncated => 2#4
  | .padRange => 3#4
  | .nullChild => 4#4
  | .symCountRange => 5#4
  | .badFrequency => 6#4
  | .dupSymbol => 7#4
  | .payloadShort => 8#4
  | .extraPayload => 9#4
  | .midCode => 10#4
  | .countMismatch => 11#4
  | .noCode => 12#4
  | .capBits => 13#4
  | .capPay => 14#4
  | .capOut => 15#4

/-- The values of `KIND` (rule R46). -/
def Kind.code : Kind → BitVec 1
  | .leaf => 0#1
  | .internal => 1#1

end Sys2Proof.Machine
end

