-- ==== Sys2Proof/Machine/BitPacker.lean ====
section
/-! DEFINITION. The bit packer and unpacker: `ENC`, `PCK`, `UPK` (spec/43_bit_packer.md). -/

namespace Sys2Proof.Machine

/-! ## ENC -/

/-- The loop of `ENC` (rule R146) over the input bytes still to come, `len` bits being placed and
`cap` cells existing: the bits that follow. At one byte `NoCode` is tested before `CapBits`. -/
def encodeBits (code : Byte → List Bit) (cap : Nat) : List Byte → Nat → Except Stop (List Bit)
  | [], _ => .ok []
  | b :: rest, len =>
    let c := code b
    if c.length = 0 then invalidInput .noCode
    else if cap < len + c.length then capacityError .capBits
    else
      match encodeBits code cap rest (len + c.length) with
      | .error e => .error e
      | .ok more => .ok (c ++ more)

/-- The body of `ENC` (rule R146). -/
def encBody (s : State) : Except Stop State :=
  match encodeBits s.code s.config.bitsCap s.input 0 with
  | .error e => .error e
  | .ok bs =>
    .ok ({ s with bits := s.bits.store 0 bs, bitLen := BitVec.ofNat 40 bs.length } : State).setBsv

/-- `ENC`, encode (rule R146). -/
def execEnc (s : State) : StepResult := command (accepts .enc s) encBody s

/-! ## PCK -/

/-- `paddingLength = 8 - (L mod 8)`, in `1..8` (rule R152). -/
def padding (len : Nat) : Nat := 8 - len % 8

/-- The byte `sum over j in 0..7 of P[8k + j] * 2^(7-j)`: most significant bit first
(rules R61 and R151). -/
def packByte (padded : List Bit) (k : Nat) : Byte :=
  BitVec.ofNat 8 ((List.range 8).map fun j => (padded.getD (8 * k + j) false).toNat * 2 ^ (7 - j)).sum

/-- The payload of a bit sequence: padded with 0 bits to whole bytes and grouped (rule R151), in
`(len div 8) + 1` bytes (rule R160). -/
def packBits (bs : List Bit) : List Byte :=
  let p := padding bs.length
  (List.range ((bs.length + p) / 8)).map (packByte (bs ++ List.replicate p false))

/-- The body of `PCK` (rule R151). -/
def pckBody (s : State) : Except Stop State :=
  let bs := s.bitSeq
  let bytes := packBits bs
  if s.config.payCap < bytes.length then capacityError .capPay
  else .ok { s with
    pay := s.pay.store 0 bytes, padLen := BitVec.ofNat 4 (padding bs.length),
    payLen := BitVec.ofNat 40 bytes.length, phase := .encoded }

/-- `PCK`, pack (rule R151). -/
def execPck (s : State) : StepResult := command (accepts .pck s) pckBody s

/-! ## UPK -/

/-- The first `len` bits of a payload, bit `i` being bit `7 - (i mod 8)` of byte `i div 8`
(rule R157). It gives back what `packBits` packed (rule R160: `unpackBits_packBits` in
Sys2Proof/Laws/BitPacker.lean; the statement UnpackInvertsPack says it of the commands). -/
def unpackBits (bytes : List Byte) (len : Nat) : List Bit :=
  (List.range len).map fun i => (bytes.getD (i / 8) 0#8).getLsbD (7 - i % 8)

/-- The body of `UPK` (rule R157). -/
def upkBody (s : State) : Except Stop State :=
  let m := s.payLen.toNat
  let p := s.padLen.toNat
  if 8 * m < p then invalidInput .payloadShort
  else
    let bs := unpackBits s.payload (8 * m - p)
    match storeWithin s.config.bitsCap bs s.bits with
    | .error e => .error e
    | .ok cells => .ok ({ s with bits := cells, bitLen := BitVec.ofNat 40 bs.length } : State).setBsv

/-- `UPK`, unpack (rule R157). -/
def execUpk (s : State) : StepResult := command (accepts .upk s) upkBody s

end Sys2Proof.Machine
end

