-- ==== Sys2Proof/Machine/Builder.lean ====
section
/-! DEFINITION. The tree builder: `BLD` (spec/41_tree_builder.md). -/

namespace Sys2Proof.Machine

/-- A Leaf of the symbol `s` (rules R47 and R122). -/
def leafNode (f : Vector Count 256) (s : Byte) : Node :=
  { kind := .leaf, sym := s, weight := BitVec.ofNat 40 (entry f s).toNat, left := nilIx, right := nilIx }

/-- The weight of record `i`. -/
def weightAt (arena : Vector Node 511) (i : Nat) : Nat :=
  match arena[i]? with
  | some nd => nd.weight.toNat
  | none => 0

/-- `(w1, i1) < (w2, i2)` for the pairs (weight, index) of two records (rule R14). -/
def before (arena : Vector Node 511) (i j : Nat) : Bool :=
  decide (weightAt arena i < weightAt arena j) ||
  (decide (weightAt arena i = weightAt arena j) && decide (i < j))

/-- `argmin` over the set `i`, `A` of (weight, index) (rules R14, R121 and R127). -/
def lowest (arena : Vector Node 511) (i : Nat) (A : List Nat) : Nat :=
  A.foldl (fun best j => if before arena j best then j else best) i

/-- Remove the lowest-weight member of the active set; `none` if the set is empty. -/
def takeLowest (arena : Vector Node 511) : List Nat → Option (Nat × List Nat)
  | [] => none
  | i :: A => let a := lowest arena i A; some (a, (i :: A).erase a)

/-- The Internal node that joins `a` (left, bit 0) and `b` (right, bit 1) (rules R123 and R124). -/
def joinNode (arena : Vector Node 511) (a b : Nat) : Node :=
  { kind := .internal, sym := 0#8, weight := BitVec.ofNat 40 (weightAt arena a + weightAt arena b),
    left := BitVec.ofNat 9 a, right := BitVec.ofNat 9 b }

/-- `rounds` rounds of the merge loop, the next new record being `next` and the active set `A`
(rule R123). A round needs two members; in `BLD` it always has them. -/
def mergeRounds : (rounds : Nat) → (arena : Vector Node 511) → (A : List Nat) → (next : Nat) →
    Vector Node 511
  | 0, arena, _, _ => arena
  | rounds + 1, arena, A, next =>
    match takeLowest arena A with
    | none => arena
    | some (a, A') =>
      match takeLowest arena A' with
      | none => arena
      | some (b, A'') =>
        mergeRounds rounds (arena.setIfInBounds next (joinNode arena a b)) (A'' ++ [next]) (next + 1)

/-- Write the Leaves of the keys `ks` to the records `k`, `k+1`, … (rule R122). -/
def writeLeaves (f : Vector Count 256) : List Byte → Nat → Vector Node 511 → Vector Node 511
  | [], _, arena => arena
  | s :: ks, k, arena => writeLeaves f ks (k + 1) (arena.setIfInBounds k (leafNode f s))

/-- The arena of the Leaves alone, in ascending symbol order from record 0, all else zero
(rules R121, R122 and R131). -/
def leafArena (f : Vector Count 256) : Vector Node 511 :=
  writeLeaves f (keys f) 0 (Vector.replicate 511 Node.zero)

/-- What `BLD` leaves in `NODE`, `NNODES` and `ROOT`. -/
structure Tree where
  node : Vector Node 511
  nnodes : BitVec 10
  root : NodeIx
  deriving DecidableEq, Repr

/-- The single-symbol tree: an Internal root whose left child is the one Leaf and whose right child
is `NIL` (rule R125). -/
def singleTree (f : Vector Count 256) : Tree :=
  let leaves := leafArena f
  { node := leaves.set 1
      { kind := .internal, sym := 0#8, weight := leaves[0].weight, left := 0#9, right := nilIx },
    nnodes := 2#10, root := 1#9 }

/-- The tree of `n >= 2` keys (rules R122 to R124 and R127). -/
def mergedTree (f : Vector Count 256) (n : Nat) : Tree :=
  { node := mergeRounds (n - 1) (leafArena f) (List.range n) n,
    nnodes := BitVec.ofNat 10 (2 * n - 1), root := BitVec.ofNat 9 (2 * n - 2) }

/-- The tree of a table with `n >= 1` keys (rule R121). -/
def buildTree (f : Vector Count 256) (n : Nat) : Tree :=
  if n = 1 then singleTree f else mergedTree f n

/-- The body of `BLD` (rule R121). -/
def bldBody (s : State) : Except Stop State :=
  let n := s.symcnt.toNat
  if n = 0 then invalidInput .emptyTable
  else if (keys s.freq).length ≠ n then .error (.stuck .tableMismatch)
  else
    let t := buildTree s.freq n
    .ok { s with
      node := t.node, nnodes := t.nnodes, root := t.root,
      phase := if s.phase = .counted then .treeBuilt else .treeRebuilt }

/-- `BLD`, build (rule R121). -/
def execBld (s : State) : StepResult := command (accepts .bld s) bldBody s

end Sys2Proof.Machine
end

