-- ==== Sys2Proof/Machine/CodeGenerator.lean ====
section
/-! DEFINITION. The code table generator: `GEN` (spec/42_code_generator.md). -/

namespace Sys2Proof.Machine

/-- `visit(i, p)` of rule R136, writing to the table `t`. The first argument bounds the descent: a
path holds at most `CLEN_MAX` bits (rule R139); in an arena that is no tree the walk has no end and
is stuck. A `NIL` child is skipped (rule R138). -/
def visit (arena : Vector Node 511) : Nat → NodeIx → List Bit → CodeTable → Except Stop CodeTable
  | 0, _, _, _ => .error (.stuck .codeTooLong)
  | fuel + 1, i, p, t =>
    match recordAt arena i with
    | .error e => .error e
    | .ok nd =>
      match nd.kind with
      | .leaf => .ok (t.set nd.sym p)
      | .internal =>
        match (if nd.left ≠ nilIx then visit arena fuel nd.left (p ++ [false]) t else .ok t) with
        | .error e => .error e
        | .ok t' => if nd.right ≠ nilIx then visit arena fuel nd.right (p ++ [true]) t' else .ok t'

/-- The body of `GEN` (rule R136). -/
def genBody (s : State) : Except Stop State :=
  match visit s.node (clenMax + 1) s.root [] CodeTable.empty with
  | .error e => .error e
  | .ok t => .ok ({ s with clen := t.clen, cbits := t.cbits } : State).setCtv

/-- `GEN`, generate codes (rule R136). -/
def execGen (s : State) : StepResult := command (accepts .gen s) genBody s

end Sys2Proof.Machine
end

