-- ==== Sys2Proof/Machine/Container.lean ====
section
/-! DEFINITION. The container codec: `SER`, `PAR` (spec/44_container_codec.md; the layout is
spec/30_encoding.md rule R88). -/

namespace Sys2Proof.Machine

/-! ## SER -/

/-- One symbol entry: the symbol, then its frequency in 4 little-endian bytes (rule R90). -/
def entryBytes (f : Vector Count 256) (s : Byte) : List Byte := s :: leBytes 4 (entry f s).toNat

/-- The container of a table with `n` keys, a padding length and a payload (rules R88 and R166). -/
def containerBytes (f : Vector Count 256) (n pad : Nat) (payload : List Byte) : List Byte :=
  leBytes 2 n ++ ((keys f).flatMap (entryBytes f) ++ (BitVec.ofNat 8 pad :: payload))

/-- The body of `SER` (rule R166). -/
def serBody (s : State) : Except Stop State :=
  let n := s.symcnt.toNat
  let total := 3 + 5 * n + s.payLen.toNat
  if s.config.outCap < total then capacityError .capOut
  else if (keys s.freq).length ≠ n then .error (.stuck .tableMismatch)
  else .ok { s with
    out := s.out.store 0 (containerBytes s.freq n s.padLen.toNat s.payload),
    outLen := BitVec.ofNat 40 total, phase := .written }

/-- `SER`, serialize (rule R166). -/
def execSer (s : State) : StepResult := command (accepts .ser s) serBody s

/-! ## PAR -/

/-- `sint32(v)` (rule R12). -/
def sint32 (v : Nat) : Int := if v < 2 ^ 31 then v else (v : Int) - 2 ^ 32

/-- The loop of `PAR` over the symbol entries: `todo` entries from entry `k` on, into the scratch
table `F` (rules R170 and R172). -/
def parseEntries (s : State) : (todo k : Nat) → Vector Count 256 → Except Stop (Vector Count 256)
  | 0, _, F => .ok F
  | todo + 1, k, F =>
    let sy := s.byteAt .inp (2 + 5 * k)
    let f := sint32 (s.memRead .inp (3 + 5 * k) 4)
    if f ≤ 0 then invalidInput .badFrequency
    else if (entry F sy).toNat ≠ 0 then invalidInput .dupSymbol
    else parseEntries s todo (k + 1) (setEntry F sy (BitVec.ofNat 32 f.toNat))

/-- The body of `PAR`, its checks in the order of rule R170. -/
def parBody (s : State) : Except Stop State :=
  let len := s.inLen.toNat
  if len < 2 then invalidInput .truncated
  else
    let n := s.memRead .inp 0 2
    if 256 < n then invalidInput .symCountRange
    else if len < 2 + 5 * n + 1 then invalidInput .truncated
    else
      match parseEntries s n 0 (Vector.replicate 256 0#32) with
      | .error e => .error e
      | .ok F =>
        let p := (s.byteAt .inp (2 + 5 * n)).toNat
        let m := len - (3 + 5 * n)
        if p < 1 ∨ 8 < p then invalidInput .padRange
        else if n = 0 ∧ 0 < m then invalidInput .extraPayload
        else if s.config.payCap < m then capacityError .capPay
        else
          let payload := (List.range m).map fun i => s.byteAt .inp (3 + 5 * n + i)
          let t := { s with
            freq := F, symcnt := BitVec.ofNat 9 n, padLen := BitVec.ofNat 4 p,
            pay := s.pay.store 0 payload, payLen := BitVec.ofNat 40 m }
          if 0 < n then .ok { t with phase := .parsed }
          else .ok { t with dLen := 0#40, phase := .decoded }

/-- `PAR`, parse (rule R170). -/
def execPar (s : State) : StepResult := command (accepts .par s) parBody s

end Sys2Proof.Machine
end

