-- ==== Sys2Proof/Machine/Counter.lean ====
section
/-! DEFINITION. The frequency counter: `CNT` (spec/40_frequency_counter.md). -/

namespace Sys2Proof.Machine

/-- `FREQ[s] = #{ i < IN_LEN : IN[i] = s }` for every `s` (rule R111). The count fits the register
whenever `IN_LEN <= IN_CAP` (rule R112). -/
def countTable (input : List Byte) : Vector Count 256 :=
  tabulate fun s => BitVec.ofNat 32 (input.count s)

/-- The body of `CNT` (rules R111 and R113). -/
def cntBody (s : State) : Except Stop State :=
  let f := countTable s.input
  let t := { s with freq := f, symcnt := BitVec.ofNat 9 (keys f).length }
  if s.inLen = 0#40 then .ok { t with padLen := 8#4, payLen := 0#40, phase := .encoded }
  else .ok { t with phase := .counted }

/-- `CNT`, count (rule R111). -/
def execCnt (s : State) : StepResult := command (accepts .cnt s) cntBody s

end Sys2Proof.Machine
end

