-- ==== Sys2Proof/Machine/Engine.lean ====
section
/-! DEFINITION. The engine: the decode walk `WLK`, the final write `EMT`, the system command `CLR`
and the macro commands `CMP` and `DCM` (spec/45_engine.md). -/

namespace Sys2Proof.Machine

/-! ## WLK -/

/-- The loop of `WLK` (rule R185) over the bits still to come, with the cursor `cur` and `d` bytes
emitted into `cap` cells: the cursor at the end and the bytes that follow. At one bit `NullChild` is
tested before `CapOut`. -/
def walkBits (arena : Vector Node 511) (root : NodeIx) (cap : Nat) :
    List Bit → NodeIx → Nat → Except Stop (NodeIx × List Byte)
  | [], cur, _ => .ok (cur, [])
  | b :: rest, cur, d =>
    match recordAt arena cur with
    | .error e => .error e
    | .ok nd =>
      if nd.child b = nilIx then invalidInput .nullChild
      else
        match recordAt arena (nd.child b) with
        | .error e => .error e
        | .ok nd' =>
          match nd'.kind with
          | .internal => walkBits arena root cap rest (nd.child b) d
          | .leaf =>
            if d = cap then capacityError .capOut
            else
              match walkBits arena root cap rest root (d + 1) with
              | .error e => .error e
              | .ok (fin, more) => .ok (fin, nd'.sym :: more)

/-- The body of `WLK` (rules R185 and R188). -/
def wlkBody (s : State) : Except Stop State :=
  match walkBits s.node s.root s.config.outCap s.bitSeq s.root 0 with
  | .error e => .error e
  | .ok (cur, bytes) =>
    if cur ≠ s.root then invalidInput .midCode
    else if bytes.length ≠ freqSum s.freq then invalidInput .countMismatch
    else .ok { s with
      dbuf := s.dbuf.store 0 bytes, dLen := BitVec.ofNat 40 bytes.length, phase := .decoded }

/-- `WLK`, walk (rule R185). -/
def execWlk (s : State) : StepResult := command (accepts .wlk s) wlkBody s

/-! ## EMT -/

/-- The body of `EMT` (rule R189). -/
def emtBody (s : State) : Except Stop State :=
  match storeWithin s.config.outCap s.decodedBytes s.out with
  | .error e => .error e
  | .ok cells => .ok { s with out := cells, outLen := s.dLen, phase := .written }

/-- `EMT`, emit (rule R189). -/
def execEmt (s : State) : StepResult := command (accepts .emt s) emtBody s

/-! ## CLR -/

/-- `CLR`, clear: accepted in any phase, always `OK` (rule R190). -/
def execClr (s : State) : StepResult := .next s.cleared

/-! ## CMP and DCM -/

/-- The stages of `CMP` (rule R192). -/
def cmpStages (s : State) : List (State → StepResult) :=
  if s.inLen = 0#40 then [execCnt, execSer]
  else [execCnt, execBld, execGen, execEnc, execPck, execSer]

/-- `CMP`, compress (rules R191 and R192). -/
def execCmp (s : State) : StepResult :=
  if accepts .cmp s then stages (cmpStages s) s else .next (s.reject .sequenceError)

/-- The stages of `DCM` after `PAR`, by the phase `PAR` left (rule R193). -/
def dcmStages (s : State) : List (State → StepResult) :=
  if s.phase = .decoded then [execEmt] else [execBld, execUpk, execWlk, execEmt]

/-- `DCM`, decompress (rules R191 and R193). -/
def execDcm (s : State) : StepResult :=
  if accepts .dcm s then andThen (execPar s) fun t => stages (dcmStages t) t
  else .next (s.reject .sequenceError)

end Sys2Proof.Machine
end

