-- ==== Sys2Proof/Machine/Dispatch.lean ====
section
/-! DEFINITION. One arm per command: which meaning it has. -/

namespace Sys2Proof.Machine

def exec (i : Instr) (s : State) : Host.Outcome State Fault Refusal :=
  match i with
  | .clr => Sys2Proof.Machine.execClr s
  | .cnt => Sys2Proof.Machine.execCnt s
  | .bld => Sys2Proof.Machine.execBld s
  | .gen => Sys2Proof.Machine.execGen s
  | .enc => Sys2Proof.Machine.execEnc s
  | .pck => Sys2Proof.Machine.execPck s
  | .ser => Sys2Proof.Machine.execSer s
  | .par => Sys2Proof.Machine.execPar s
  | .upk => Sys2Proof.Machine.execUpk s
  | .wlk => Sys2Proof.Machine.execWlk s
  | .emt => Sys2Proof.Machine.execEmt s
  | .cmp => Sys2Proof.Machine.execCmp s
  | .dcm => Sys2Proof.Machine.execDcm s

end Sys2Proof.Machine
end

