-- ==== Sys2Proof/Machine/HostPort.lean ====
section
/-! DEFINITION. What the host can do to the block between commands (spec/10_state.md rules R30, R31,
R34 and R55): write a command, write `IN` and `IN_LEN`, be refused, read, reset. -/

namespace Sys2Proof.Machine

/-- A write of `w` to `CMD`: a reserved code ends with `UsageError` in any phase, any other runs its
command (rules R31, R84, R181 and R208). -/
def commandWrite (w : Byte) (s : State) : StepResult :=
  match decode w with
  | .ok i => exec i s
  | .error (.reserved _) => .next (s.reject .usageError)

/-- A write of `v` to `IN[a]`: accepted in Idle for `a < IN_CAP`, else refused (rule R55). -/
def inputWrite (a : Nat) (v : Byte) (s : State) : State :=
  if s.phase = .idle ∧ a < s.config.inCap then { s with inBuf := s.inBuf.write a v } else s

/-- A write of `n` to `IN_LEN`: accepted in Idle for `n <= IN_CAP`, else refused (rules R34, R55). It
stores the length and does nothing beyond that (rule R65): every cell of `IN` keeps what it holds. -/
def inLenWrite (n : Len) (s : State) : State :=
  if s.phase = .idle ∧ n.toNat ≤ s.config.inCap then { s with inLen := n } else s

/-- The length register that bounds the valid cells of a byte space (rule R66). -/
def State.validLen (s : State) : Space → Nat
  | .inp => s.inLen.toNat
  | .out => s.outLen.toNat
  | .pay => s.payLen.toNat
  | .dbuf => s.dLen.toNat

/-- "A host read returns the current value" (rule R30); `none` where the value is unspecified: `CMD`
(rule R31) and the cells at or beyond a valid length (rule R56). -/
def hostRead (l : Loc) (s : State) : Option Nat :=
  match l with
  | .cmd => none
  | .phase => some s.phase.code.toNat
  | .flags => some s.flags.toNat
  | .result => some s.result.code.toNat
  | .cause => some s.cause.code.toNat
  | .inLen => some s.inLen.toNat
  | .outLen => some s.outLen.toNat
  | .symcnt => some s.symcnt.toNat
  | .root => some s.root.toNat
  | .nnodes => some s.nnodes.toNat
  | .bitLen => some s.bitLen.toNat
  | .padLen => some s.padLen.toNat
  | .payLen => some s.payLen.toNat
  | .dLen => some s.dLen.toNat
  | .freq sy => some (entry s.freq sy).toNat
  | .clen sy => some (entry s.clen sy).toNat
  | .cbits sy => some (entry s.cbits sy).toNat
  | .nodeKind i => some s.node[i].kind.code.toNat
  | .nodeSym i => some s.node[i].sym.toNat
  | .nodeWeight i => some s.node[i].weight.toNat
  | .nodeLeft i => some s.node[i].left.toNat
  | .nodeRight i => some s.node[i].right.toNat
  | .cell sp a => if a < s.validLen sp then some (s.byteAt sp a).toNat else none
  | .bit a => if a < s.bitLen.toNat then some (s.bitAt a).toNat else none

/-- A host read: no side effect on the block (rule R65); the host gets the current value, or a free
value where it is unspecified. -/
def readBy (l : Loc) (s : State) : State :=
  match hostRead l s with
  | some v => { s with lastRead := some v }
  | none => { s with lastRead := some (Config.unspecifiedRead s.draws), draws := s.draws + 1 }

/-- One action of the host. -/
def hostStep (a : HostAction) (s : State) : StepResult :=
  match a with
  | .command w => commandWrite w s
  | .writeIn i v => .next (inputWrite i v s)
  | .writeInLen n => .next (inLenWrite n s)
  | .writeReadOnly _ _ => .next s
  | .read l => .next (readBy l s)
  | .reset => .next s.cleared

/-- The next thing that happens: the host's next action, or nothing, "the block does nothing until
the host writes CMD" (rule R232). -/
def nextAction (s : State) : StepResult :=
  match s.host with
  | [] => .next s
  | a :: rest => hostStep a { s with host := rest }

/-- The host actions that bring a program word to the block: one write to `CMD`. -/
def fetchActions (nbits w : Nat) : List HostAction :=
  if nbits = 8 ∧ w < 256 then [.command (BitVec.ofNat 8 w)] else []

end Sys2Proof.Machine
end

