-- ==== Sys2Proof/Machine/Step.lean ====
section
/-! DEFINITION. One step of the machine: one action of the host, a command being one whole command
(spec/00_scope.md rule R5). -/

namespace Sys2Proof.Machine

/-- One step: the host's next action on the block, or nothing if the host has none. -/
def step (s : State) : Host.Outcome State Fault Refusal := nextAction s

/-- The state in which the host's very next action writes the word `w` to `CMD`: that is how a
command reaches the block, which fetches nothing (rules R24 and R31; log entry 5). -/
def State.withFetchWord (s : State) (nbits w : Nat) : State :=
  { s with host := fetchActions nbits w ++ s.host }

end Sys2Proof.Machine
end

