-- ==== Sys2Proof/Safety.lean ====
section
/-! DEFINITION. What counts as a safe run, in the terms the claims use: the invariants of
spec/45_engine.md rule R184 and spec/10_state.md rule R48, and the words of the statements
(acceptance, the path of a code, a failure, agreement up to unspecified cells). -/

namespace Sys2Proof.Machine

/-! ## Cells -/

/-- Every space is in canonical form. -/
def State.memoryWf (s : State) : Bool :=
  s.inBuf.wf && s.out.wf && s.pay.wf && s.bits.wf && s.dbuf.wf

/-- Every written cell has an index below `cap`: there are no others (rule R67). -/
def Memory.within {α : Type} (m : Memory α) (cap : Nat) : Prop := ∀ c ∈ m, c.1 < cap

/-- The cells `0..n-1` have been written. -/
def Memory.covers {α : Type} (m : Memory α) (n : Nat) : Prop := ∀ a < n, (m.read? a).isSome

/-! ## Acceptance and failure -/

/-- The table of rule R181: in which phase and with which flags a command is accepted. -/
def Accepted : Instr → State → Prop
  | .clr, _ => True
  | .cnt, s | .par, s | .cmp, s | .dcm, s => s.phase = .idle
  | .bld, s => s.phase = .counted ∨ s.phase = .parsed
  | .gen, s => s.phase = .treeBuilt ∧ s.ctv = false
  | .enc, s => s.phase = .treeBuilt ∧ s.ctv = true ∧ s.bsv = false
  | .pck, s => s.phase = .treeBuilt ∧ s.bsv = true
  | .ser, s => s.phase = .encoded
  | .upk, s => s.phase = .treeRebuilt ∧ s.bsv = false
  | .wlk, s => s.phase = .treeRebuilt ∧ s.bsv = true
  | .emt, s => s.phase = .decoded

/-- The state rule R217 leaves when a command that started in `s` raises `r` with cause `c`: "Nothing
else changes". -/
def failed (s : State) (r : Result) (c : Cause) : State :=
  { s with result := r, cause := c, es := true, phase := .failed }

/-- The cleared state, value by value (rule R59): no buffer cell is listed, so each is unspecified. -/
structure State.Cleared (s : State) : Prop where
  phase : s.phase = .idle
  flags : s.ctv = false ∧ s.bsv = false ∧ s.es = false
  outcome : s.result = .ok ∧ s.cause = .none
  lengths : s.inLen = 0#40 ∧ s.outLen = 0#40 ∧ s.bitLen = 0#40 ∧ s.payLen = 0#40 ∧ s.dLen = 0#40
  counters : s.symcnt = 0#9 ∧ s.padLen = 0#4 ∧ s.nnodes = 0#10 ∧ s.root = 511#9
  tables : ∀ sy, entry s.freq sy = 0#32 ∧ entry s.clen sy = 0#8 ∧ entry s.cbits sy = 0#255
  records : ∀ i : Fin 511, s.node[i] = Node.zero
  cells : (∀ sp a, hostRead (.cell sp a) s = none) ∧ ∀ a, hostRead (.bit a) s = none
  unwritten : (∀ sp, s.space sp = []) ∧ s.bits = []

/-- The results and causes an accepted command can end with, from rules R192, R193, R202 and R209;
`EmptyTable` and `NoCode` are left out, which rules R126 and R148 call unreachable. -/
def outcomes : Instr → List (Result × Cause)
  | .clr | .cnt | .bld | .gen | .emt => [(.ok, .none)]
  | .enc => [(.ok, .none), (.capacityError, .capBits)]
  | .pck => [(.ok, .none), (.capacityError, .capPay)]
  | .ser => [(.ok, .none), (.capacityError, .capOut)]
  | .par => [(.ok, .none), (.invalidInput, .truncated), (.invalidInput, .symCountRange),
      (.invalidInput, .badFrequency), (.invalidInput, .dupSymbol), (.invalidInput, .padRange),
      (.invalidInput, .extraPayload), (.capacityError, .capPay)]
  | .upk => [(.ok, .none), (.invalidInput, .payloadShort)]
  | .wlk => [(.ok, .none), (.invalidInput, .nullChild), (.capacityError, .capOut),
      (.invalidInput, .midCode), (.invalidInput, .countMismatch)]
  | .cmp => [(.ok, .none), (.capacityError, .capBits), (.capacityError, .capPay),
      (.capacityError, .capOut)]
  | .dcm => [(.ok, .none), (.invalidInput, .truncated), (.invalidInput, .symCountRange),
      (.invalidInput, .badFrequency), (.invalidInput, .dupSymbol), (.invalidInput, .padRange),
      (.invalidInput, .extraPayload), (.capacityError, .capPay), (.invalidInput, .payloadShort),
      (.invalidInput, .nullChild), (.capacityError, .capOut), (.invalidInput, .midCode),
      (.invalidInput, .countMismatch)]

/-! ## The tree and its paths -/

/-- `nd` is the Leaf of the symbol `sy` with weight `w` (rule R47). -/
def Node.IsLeaf (nd : Node) (sy : Byte) (w : Nat) : Prop :=
  nd.kind = .leaf ∧ nd.sym = sy ∧ nd.weight.toNat = w ∧ nd.left = nilIx ∧ nd.right = nilIx

/-- `nd` is an Internal record with the children `a`, `b` and weight `w` (rule R47). -/
def Node.IsInternal (nd : Node) (a b w : Nat) : Prop :=
  nd.kind = .internal ∧ nd.sym = 0#8 ∧ nd.weight.toNat = w ∧ nd.left.toNat = a ∧ nd.right.toNat = b

/-- The record `i` is an Internal record, and `c` is one of its children. -/
def IsChild (arena : Vector Node 511) (i c : Nat) : Prop :=
  ∃ nd ∈ arena[i]?, nd.kind = .internal ∧ (nd.left.toNat = c ∨ nd.right.toNat = c)

/-- The records `0..n-1` are the Leaves of the keys in ascending order (rules R48 and R122). -/
def LeavesFirst (f : Vector Count 256) (arena : Vector Node 511) : Prop :=
  ∀ k, (h : k < (keys f).length) → ∃ nd ∈ arena[k]?, nd.IsLeaf (keys f)[k] (entry f (keys f)[k]).toNat

/-- The tree invariant of rule R48 for the current `FREQ`. -/
structure State.TreeInvariant (s : State) : Prop where
  /-- `SYMCNT` is the number of keys, at least 1 (rules R21 and R35). -/
  count : s.symcnt.toNat = (keys s.freq).length ∧ 1 ≤ s.symcnt.toNat
  /-- "records `0..n-1` are the Leaves". -/
  leaves : LeavesFirst s.freq s.node
  /-- "With `n = 1`": two records, the second an Internal root with `LEFT = 0`, `RIGHT = NIL`. -/
  single : s.symcnt.toNat = 1 → s.nnodes = 2#10 ∧ s.root = 1#9 ∧
    ∃ nd ∈ s.node[1]?, nd.IsInternal 0 511 (freqSum s.freq)
  /-- "`NNODES = 2n - 1`" and "`ROOT = 2n - 2`". -/
  size : 2 ≤ s.symcnt.toNat →
    s.nnodes.toNat = 2 * s.symcnt.toNat - 1 ∧ s.root.toNat = 2 * s.symcnt.toNat - 2
  /-- "records `n..2n-2` are Internal, each with two non-`NIL` children of smaller index", of
  different indices, the weight being the sum of the children's weights (rule R47). -/
  inner : 2 ≤ s.symcnt.toNat → ∀ i < 2 * s.symcnt.toNat - 1, s.symcnt.toNat ≤ i →
    ∃ nd ∈ s.node[i]?, nd.left.toNat < i ∧ nd.right.toNat < i ∧ nd.left ≠ nd.right ∧
      nd.IsInternal nd.left.toNat nd.right.toNat
        (weightAt s.node nd.left.toNat + weightAt s.node nd.right.toNat)
  /-- "every record but the root is the child of exactly one Internal record". -/
  owned : 2 ≤ s.symcnt.toNat → ∀ c < 2 * s.symcnt.toNat - 2,
    ∃! i, i < 2 * s.symcnt.toNat - 1 ∧ IsChild s.node i c
  /-- Records at index `>= NNODES` hold zero in every field (rule R47). -/
  rest : ∀ nd ∈ s.node.toList.drop s.nnodes.toNat, nd = Node.zero

/-- Follow a bit sequence down from record `i`, `LEFT` for 0 and `RIGHT` for 1 (rule R137); `none` if
it leaves the Internal records before its last step or meets `NIL`. -/
def follow (arena : Vector Node 511) : NodeIx → List Bit → Option NodeIx
  | i, [] => some i
  | i, b :: p =>
    match arena[i.toNat]? with
    | none => none
    | some nd =>
      if nd.kind = .internal then
        if nd.child b = nilIx then none else follow arena (nd.child b) p
      else none

/-- The bit sequence `p` leads from `root` to the Leaf of `sy`: it is the code of `sy` (rule R137). -/
def IsCode (arena : Vector Node 511) (root : NodeIx) (p : List Bit) (sy : Byte) : Prop :=
  ∃ i ∈ follow arena root p, ∃ nd ∈ arena[i.toNat]?, nd.kind = .leaf ∧ nd.sym = sy

/-- The bit sequence `p` leads from `root` to an Internal record: it ends inside a code. -/
def EndsInside (arena : Vector Node 511) (root : NodeIx) (p : List Bit) : Prop :=
  ∃ i ∈ follow arena root p, ∃ nd ∈ arena[i.toNat]?, nd.kind = .internal

/-- The code table is that of the tree in `NODE`: a key has the path to its Leaf, of 1 to 255 bits,
any other symbol has none (rules R43, R44, R137 and R140). -/
def State.CodesOfTree (s : State) : Prop :=
  ∀ sy, (sy ∈ keys s.freq → 1 ≤ (entry s.clen sy).toNat ∧ IsCode s.node s.root (s.code sy) sy) ∧
    (sy ∉ keys s.freq → entry s.clen sy = 0#8) ∧
    ∀ i, (entry s.clen sy).toNat ≤ i → (entry s.cbits sy).getLsbD i = false

/-! ## The invariant -/

/-- The cleared state of rule R59 but for `IN`, `IN_LEN`, `RESULT`, `CAUSE`, `ES` (rule R184 (g)) and
what the model adds. -/
def State.clearedButInput (s : State) : State :=
  { State.reset with
    result := s.result, cause := s.cause, es := s.es, inLen := s.inLen, inBuf := s.inBuf,
    config := s.config, host := s.host, epoch := s.epoch, draws := s.draws, lastRead := s.lastRead }

/-- What holds between commands (rule R184), with the ranges of spec/10_state.md that it rests on. -/
structure State.Inv (s : State) : Prop where
  /-- The capacities are in range (rule R8). -/
  legal : s.config.legal = true
  /-- Every space is in canonical form. -/
  canonical : s.memoryWf = true
  /-- No cell exists beyond its space (rules R66 and R67). -/
  within : s.inBuf.within s.config.inCap ∧ s.out.within s.config.outCap ∧
    s.pay.within s.config.payCap ∧ s.bits.within s.config.bitsCap ∧ s.dbuf.within s.config.outCap
  /-- Every valid cell of the spaces that commands write has been written (rules R52 to R54). -/
  covered : s.out.covers s.outLen.toNat ∧ s.pay.covers s.payLen.toNat ∧
    s.bits.covers s.bitLen.toNat ∧ s.dbuf.covers s.dLen.toNat
  /-- The lengths are within the capacities (rules R34 to R42). -/
  lengths : s.inLen.toNat ≤ s.config.inCap ∧ s.outLen.toNat ≤ s.config.outCap ∧
    s.payLen.toNat ≤ s.config.payCap ∧ s.bitLen.toNat ≤ s.config.bitsCap ∧
    s.dLen.toNat ≤ s.config.outCap
  /-- Bit 31 of a frequency is 0 (rule R20). -/
  frequencies : ∀ sy, (entry s.freq sy).toNat ≤ freqMax
  /-- `SYMCNT` equals the number of keys (rules R21 and R35). -/
  count : s.symcnt.toNat = (keys s.freq).length
  /-- The block never writes `IOError` (rule R201), and `CAUSE` is 0 exactly with `OK`, `UsageError`
  and `SequenceError` (rule R33). -/
  results : s.result ≠ .ioError ∧
    (s.cause = .none ↔ s.result ≠ .invalidInput ∧ s.result ≠ .capacityError)
  /-- R184 (a): "`OUT_LEN = 0` unless `PHASE = Written`". -/
  output : s.phase ≠ .written → s.outLen = 0#40
  /-- R184 (b). -/
  tabled : s.phase = .counted ∨ s.phase = .parsed →
    1 ≤ s.symcnt.toNat ∧ s.nnodes = 0#10 ∧ s.root = nilIx
  /-- R184 (c). -/
  tree : s.phase = .treeBuilt ∨ s.phase = .treeRebuilt → s.TreeInvariant
  /-- R184 (d). -/
  codes : s.ctv = true → (s.phase = .treeBuilt ∨ s.phase = .encoded ∨ s.phase = .written ∨
    s.phase = .failed) ∧ s.CodesOfTree
  /-- R184 (e). -/
  encoded : s.phase = .encoded → (1 ≤ s.padLen.toNat ∧ s.padLen.toNat ≤ 8) ∧
    ((1 ≤ s.symcnt.toNat ∧ s.payLen.toNat = s.bitLen.toNat / 8 + 1) ∨
      (s.symcnt = 0#9 ∧ s.payLen = 0#40 ∧ s.padLen = 8#4))
  /-- R184 (f). -/
  padded : s.phase = .parsed ∨ s.phase = .treeRebuilt ∨ s.phase = .decoded →
    1 ≤ s.padLen.toNat ∧ s.padLen.toNat ≤ 8
  /-- R184 (g). -/
  idle : s.phase = .idle → s = s.clearedButInput
  /-- R184 (h). -/
  failedSeen : s.phase = .failed → s.es = true
  /-- In Counted and TreeBuilt `FREQ` holds the counts of `IN` (rules R24 and R115). -/
  counts : s.phase = .counted ∨ s.phase = .treeBuilt →
    ∀ sy, (entry s.freq sy).toNat = s.input.count sy
  /-- Where `BSV` can be 1: after `ENC` or `UPK` (rule R28); in TreeBuilt only with `CTV`
  (spec/95_test_vectors.md V34). -/
  bitsValid : s.bsv = true → (s.phase = .treeBuilt ∧ s.ctv = true) ∨ s.phase = .encoded ∨
    s.phase = .written ∨ s.phase = .treeRebuilt ∨ s.phase = .decoded ∨ s.phase = .failed

/-! ## Agreement up to unspecified cells -/

/-- Two states with the same registers and the same valid cells: they may differ in the cells of
rule R56, in which epoch those belong to, and in what the host still does or has read. -/
structure State.Agrees (s u : State) : Prop where
  /-- Every register, register file and capacity is equal. -/
  registers : s = { u with
    inBuf := s.inBuf, out := s.out, pay := s.pay, bits := s.bits, dbuf := s.dbuf,
    host := s.host, epoch := s.epoch, draws := s.draws, lastRead := s.lastRead }
  /-- Every valid byte cell reads equal. -/
  bytes : ∀ sp a, a < s.validLen sp → s.byteAt sp a = u.byteAt sp a
  /-- Every valid bit cell reads equal. -/
  bits : ∀ a < s.bitLen.toNat, s.bitAt a = u.bitAt a

/-- The same kind of outcome, the next states in agreement. -/
def OutcomesAgree : StepResult → StepResult → Prop
  | .next t, .next v => t.Agrees v
  | .fault f, .fault g => f = g
  | .refused r, .refused q => r = q
  | _, _ => False

/-! ## Programs of the host -/

/-- The host actions of a staged sequence: one `CMD` write for each command. -/
def staged (is : List Instr) : List HostAction := is.map fun i => .command (encode i)

/-- The stages of `CMP`, by the length of the input (rules R87 and R192). -/
def compressSequence (s : State) : List Instr :=
  if s.inLen = 0#40 then [.cnt, .ser] else [.cnt, .bld, .gen, .enc, .pck, .ser]

/-- The stages of `DCM`, by the container's `symbolCount` (rules R87 and R193). -/
def decompressSequence (s : State) : List Instr :=
  if s.memRead .inp 0 2 = 0 then [.par, .emt] else [.par, .bld, .upk, .wlk, .emt]

/-- `n` steps, stopping at the first fault or refusal. -/
def runSteps : Nat → State → StepResult
  | 0, s => .next s
  | n + 1, s =>
    match step s with
    | .next t => runSteps n t
    | .fault f => .fault f
    | .refused r => .refused r

/-- No host action still to come clears or resets the block. -/
def neverClears (h : List HostAction) : Prop :=
  ∀ a ∈ h, a ≠ .reset ∧ a ≠ .command (encode .clr)

end Sys2Proof.Machine
end

