-- ==== Sys2Proof/Certificates/Slice0/Obligations.lean ====
section
/-! DEFINITION. The statements for the provers. Each docstring names the rule of spec/ it comes from.
A premise `s.Inv` rules out states that no run reaches; that the invariant holds at reset and that
every step keeps it are statements of their own. A free value appears in a statement only under a
quantifier or through the model's read of a cell, so each statement holds whatever it is. -/

open Sys2Proof Sys2Proof.Machine

/-! ## Command words and steps -/

/-- Rule R82: the thirteen codes, read by the decoder and written by the encoder, and rule R84: every
value from `0x0D` on selects no command. -/
def Obligations.CommandWordsDecode : Prop :=
  decode 0x00#8 = .ok .clr ∧ decode 0x01#8 = .ok .cnt ∧ decode 0x02#8 = .ok .bld ∧
  decode 0x03#8 = .ok .gen ∧ decode 0x04#8 = .ok .enc ∧ decode 0x05#8 = .ok .pck ∧
  decode 0x06#8 = .ok .ser ∧ decode 0x07#8 = .ok .par ∧ decode 0x08#8 = .ok .upk ∧
  decode 0x09#8 = .ok .wlk ∧ decode 0x0A#8 = .ok .emt ∧ decode 0x0B#8 = .ok .cmp ∧
  decode 0x0C#8 = .ok .dcm ∧ (∀ i, decode (encode i) = .ok i) ∧
  ∀ w : Byte, 0x0D ≤ w.toNat → decode w = .error (.reserved w)

/-- Rules R31 and R232: when the host's next action writes a word to `CMD` that decodes to a command,
the step is that command's meaning, the action being used up; with no action to come the block keeps
its state. -/
def Obligations.StepRunsTheDecodedCommand : Prop :=
  (∀ (s : State) (w : Byte) (rest : List HostAction) (i : Instr),
    s.host = .command w :: rest → decode w = .ok i → step s = exec i { s with host := rest }) ∧
  ∀ s : State, s.host = [] → step s = .next s

/-- Rule R84: a reserved code ends with `UsageError` in any phase and changes nothing but `RESULT`,
`CAUSE` and `ES`. -/
def Obligations.ReservedCodeIsUsageError : Prop :=
  ∀ (s : State) (w : Byte) (rest : List HostAction),
    s.host = .command w :: rest → 0x0D ≤ w.toNat →
    step s = .next { s with host := rest, result := .usageError, cause := .none, es := true }

/-- Rules R55 and R65: a host write to `IN[a]` or `IN_LEN` is accepted in Idle and in range, and has no
effect beyond storing to that location; every other host write changes nothing. -/
def Obligations.HostWritesAreAcceptedOrRefused : Prop :=
  (∀ (s : State) (a : Nat) (v : Byte) (rest : List HostAction), s.host = .writeIn a v :: rest →
    (s.phase = .idle ∧ a < s.config.inCap → ∃ t, step s = .next t ∧
      t = { s with inBuf := t.inBuf, host := rest } ∧ t.byteAt .inp a = v ∧
      ∀ b, b ≠ a → t.byteAt .inp b = s.byteAt .inp b) ∧
    (¬ (s.phase = .idle ∧ a < s.config.inCap) → step s = .next { s with host := rest })) ∧
  (∀ (s : State) (n : Len) (rest : List HostAction), s.host = .writeInLen n :: rest →
    (s.phase = .idle ∧ n.toNat ≤ s.config.inCap → ∃ t, step s = .next t ∧
      t = { s with inLen := n, host := rest } ∧ ∀ sp a, t.byteAt sp a = s.byteAt sp a) ∧
    (¬ (s.phase = .idle ∧ n.toNat ≤ s.config.inCap) → step s = .next { s with host := rest })) ∧
  ∀ (s : State) (l : Loc) (v : Nat) (rest : List HostAction), s.host = .writeReadOnly l v :: rest →
    step s = .next { s with host := rest }

/-- Rules R30, R55 and R65: a host read returns the current value of a register, a register-file
entry, a record field or a valid cell, changes nothing of the block, and read twice the location
gives the same value. -/
def Obligations.HostReadsHaveNoSideEffect : Prop :=
  ∀ (s : State) (l : Loc) (rest : List HostAction), s.host = .read l :: rest →
    ∃ t, step s = .next t ∧
      t = { s with host := rest, lastRead := t.lastRead, draws := t.draws } ∧
      (∀ l', hostRead l' t = hostRead l' s) ∧
      (∀ v, hostRead l s = some v → t.lastRead = some v ∧ t.draws = s.draws) ∧
      (l = .phase → t.lastRead = some s.phase.code.toNat) ∧
      (l = .flags → t.lastRead = some (s.ctv.toNat + 2 * s.bsv.toNat + 4 * s.es.toNat)) ∧
      (l = .result → t.lastRead = some s.result.code.toNat) ∧
      (l = .cause → t.lastRead = some s.cause.code.toNat) ∧
      (l = .inLen → t.lastRead = some s.inLen.toNat) ∧
      (l = .outLen → t.lastRead = some s.outLen.toNat) ∧
      (l = .symcnt → t.lastRead = some s.symcnt.toNat) ∧
      (l = .root → t.lastRead = some s.root.toNat) ∧
      (l = .nnodes → t.lastRead = some s.nnodes.toNat) ∧
      (l = .bitLen → t.lastRead = some s.bitLen.toNat) ∧
      (l = .padLen → t.lastRead = some s.padLen.toNat) ∧
      (l = .payLen → t.lastRead = some s.payLen.toNat) ∧
      (l = .dLen → t.lastRead = some s.dLen.toNat) ∧
      (∀ sy, l = .freq sy → t.lastRead = some (entry s.freq sy).toNat) ∧
      (∀ sy, l = .clen sy → t.lastRead = some (entry s.clen sy).toNat) ∧
      (∀ sy, l = .cbits sy → t.lastRead = some (entry s.cbits sy).toNat) ∧
      (∀ i, l = .nodeKind i → t.lastRead = some (if s.node[i].kind = .leaf then 0 else 1)) ∧
      (∀ i, l = .nodeSym i → t.lastRead = some s.node[i].sym.toNat) ∧
      (∀ i, l = .nodeWeight i → t.lastRead = some s.node[i].weight.toNat) ∧
      (∀ i, l = .nodeLeft i → t.lastRead = some s.node[i].left.toNat) ∧
      (∀ i, l = .nodeRight i → t.lastRead = some s.node[i].right.toNat) ∧
      (∀ a, l = .cell .inp a → a < s.inLen.toNat → t.lastRead = some (s.byteAt .inp a).toNat) ∧
      (∀ a, l = .cell .out a → a < s.outLen.toNat → t.lastRead = some (s.byteAt .out a).toNat) ∧
      (∀ a, l = .cell .pay a → a < s.payLen.toNat → t.lastRead = some (s.byteAt .pay a).toNat) ∧
      (∀ a, l = .cell .dbuf a → a < s.dLen.toNat → t.lastRead = some (s.byteAt .dbuf a).toNat) ∧
      (∀ a, l = .bit a → a < s.bitLen.toNat → t.lastRead = some (s.bitAt a).toNat)

/-- Rules R59 and R230: `CLR` and reset leave the cleared state; what is outside the block, its
capacities and the host's other actions, stays. -/
def Obligations.ClearAndResetReachTheClearedState : Prop :=
  State.reset.Cleared ∧
  (∀ s : State, ∃ t, exec .clr s = .next t ∧ t.Cleared ∧ t.config = s.config ∧ t.host = s.host) ∧
  ∀ (s : State) (rest : List HostAction), s.host = .reset :: rest →
    ∃ t, step s = .next t ∧ t.Cleared ∧ t.config = s.config ∧ t.host = rest

/-! ## Acceptance, results, failure -/

/-- Rules R181 and R218: a `CMD` write refused with `SequenceError`, the command not being accepted, or
with `UsageError`, the code being reserved, writes that error, `CAUSE` 0 and `ES`, and nothing else. -/
def Obligations.RejectionChangesOnlyTheOutcome : Prop :=
  (∀ (i : Instr) (s : State), ¬ Accepted i s →
    exec i s = .next { s with result := .sequenceError, cause := .none, es := true }) ∧
  ∀ (w : Byte) (s : State) (e : DecodeError), decode w = .error e →
    commandWrite w s = .next { s with result := .usageError, cause := .none, es := true }

/-- Rule R181: "at every point of an operation exactly one command besides `CLR` is accepted", that
is, ends with a result that is no rejection. -/
def Obligations.ExactlyOneCommandRunsInAnOperation : Prop :=
  ∀ s : State, s.Inv → s.phase ≠ .idle → s.phase ≠ .written → s.phase ≠ .failed →
    ∃! i, i ≠ Instr.clr ∧ ∃ t, exec i s = .next t ∧ t.result ≠ .sequenceError

/-- Rules R192, R193, R202, R126 and R148: how an accepted command can end; `EmptyTable` and `NoCode`
do not arise, and `CMP` never ends with `InvalidInput`. -/
def Obligations.AcceptedCommandsEndAsTabulated : Prop :=
  ∀ (i : Instr) (s t : State), s.Inv → Accepted i s → exec i s = .next t →
    (t.result, t.cause) ∈ outcomes i

/-- Rules R217 and R219: an accepted command, no macro, that does not end with `OK` changes nothing
but `RESULT`, `CAUSE`, `ES` and `PHASE`. -/
def Obligations.FailureChangesNothingElse : Prop :=
  ∀ (i : Instr) (s t : State), Accepted i s → i ≠ .cmp → i ≠ .dcm → exec i s = .next t →
    t.result ≠ .ok →
    (t.result = .invalidInput ∨ t.result = .capacityError) ∧ t = failed s t.result t.cause

/-- Rule R182: what an accepted command does to `PHASE` and the flags when it ends with `OK`; when it
fails `PHASE` becomes Failed. -/
def Obligations.TransitionsFollowTheTable : Prop :=
  (∀ (i : Instr) (s t : State), Accepted i s → exec i s = .next t →
    t.result = .invalidInput ∨ t.result = .capacityError → t.phase = .failed) ∧
  ∀ (i : Instr) (s t : State), s.Inv → exec i s = .next t → t.result = .ok →
    match i with
    | .clr => t.phase = .idle ∧ t.ctv = false ∧ t.bsv = false ∧ t.es = false
    | .cnt => t.phase = (if s.inLen = 0#40 then .encoded else .counted) ∧
        t.ctv = s.ctv ∧ t.bsv = s.bsv ∧ t.es = s.es
    | .bld => t.phase = (if s.phase = .counted then .treeBuilt else .treeRebuilt) ∧
        t.ctv = s.ctv ∧ t.bsv = s.bsv ∧ t.es = s.es
    | .gen => t.phase = .treeBuilt ∧ t.ctv = true ∧ t.bsv = s.bsv ∧ t.es = s.es
    | .enc => t.phase = .treeBuilt ∧ t.ctv = s.ctv ∧ t.bsv = true ∧ t.es = s.es
    | .pck => t.phase = .encoded ∧ t.ctv = s.ctv ∧ t.bsv = s.bsv ∧ t.es = s.es
    | .ser => t.phase = .written ∧ t.ctv = s.ctv ∧ t.bsv = s.bsv ∧ t.es = s.es
    | .par => t.phase = (if t.symcnt = 0#9 then .decoded else .parsed) ∧
        t.ctv = s.ctv ∧ t.bsv = s.bsv ∧ t.es = s.es
    | .upk => t.phase = .treeRebuilt ∧ t.ctv = s.ctv ∧ t.bsv = true ∧ t.es = s.es
    | .wlk => t.phase = .decoded ∧ t.ctv = s.ctv ∧ t.bsv = s.bsv ∧ t.es = s.es
    | .emt => t.phase = .written ∧ t.ctv = s.ctv ∧ t.bsv = s.bsv ∧ t.es = s.es
    | .cmp => t.phase = .written ∧ t.es = s.es ∧
        t.ctv = decide (s.inLen ≠ 0#40) ∧ t.bsv = decide (s.inLen ≠ 0#40)
    | .dcm => t.phase = .written ∧ t.es = s.es ∧ t.ctv = false ∧ t.bsv = decide (t.symcnt ≠ 0#9)

/-- The last column of the tables of rules R30 and R66, read as a frame for the whole machine: a
register, table or buffer is written only by the commands listed for it. -/
def Obligations.OnlyTheListedCommandsWrite : Prop :=
  ∀ (i : Instr) (s t : State), exec i s = .next t →
    (i ∉ [.clr] → t.inBuf = s.inBuf ∧ t.inLen = s.inLen ∧ t.epoch = s.epoch) ∧
    (i ∉ [.clr, .cnt, .par, .cmp, .dcm] → t.freq = s.freq ∧ t.symcnt = s.symcnt) ∧
    (i ∉ [.clr, .bld, .cmp, .dcm] → t.node = s.node ∧ t.nnodes = s.nnodes ∧ t.root = s.root) ∧
    (i ∉ [.clr, .gen, .cmp] → t.clen = s.clen ∧ t.cbits = s.cbits ∧ t.ctv = s.ctv) ∧
    (i ∉ [.clr, .enc, .upk, .cmp, .dcm] → t.bits = s.bits ∧ t.bitLen = s.bitLen ∧ t.bsv = s.bsv) ∧
    (i ∉ [.clr, .pck, .par, .cmp, .dcm] → t.pay = s.pay) ∧
    (i ∉ [.clr, .cnt, .pck, .par, .cmp, .dcm] → t.padLen = s.padLen ∧ t.payLen = s.payLen) ∧
    (i ∉ [.clr, .wlk, .dcm] → t.dbuf = s.dbuf) ∧
    (i ∉ [.clr, .par, .wlk, .dcm] → t.dLen = s.dLen) ∧
    (i ∉ [.clr, .ser, .emt, .cmp, .dcm] → t.out = s.out ∧ t.outLen = s.outLen) ∧
    (t.config = s.config ∧ t.host = s.host ∧ t.draws = s.draws ∧ t.lastRead = s.lastRead)

/-- Rules R220 and R221: while no `CLR` and no reset comes, a failed block stays failed, with `ES`
set, whatever the host does. -/
def Obligations.FailedUntilCleared : Prop :=
  ∀ (n : Nat) (s : State), s.phase = .failed → s.es = true → neverClears s.host →
    ∃ t, runSteps n s = .next t ∧ t.phase = .failed ∧ t.es = true ∧
      t.freq = s.freq ∧ t.node = s.node ∧ t.outLen = s.outLen

/-! ## CNT -/

/-- Rule R111, with rule R113 for the empty input: the counts, their number, their sum, and the
frame. -/
def Obligations.CountCountsTheInput : Prop :=
  ∀ s : State, s.phase = .idle → s.config.legal = true → s.inLen.toNat ≤ s.config.inCap →
    ∃ t, exec .cnt s = .next t ∧
      (∀ sy, (entry t.freq sy).toNat = s.input.count sy) ∧
      t.symcnt.toNat = s.input.dedup.length ∧ freqSum t.freq = s.inLen.toNat ∧
      (s.inLen ≠ 0#40 → t = { s with
        freq := t.freq, symcnt := t.symcnt, phase := .counted, result := .ok, cause := .none }) ∧
      (s.inLen = 0#40 → t = { s with
        freq := t.freq, symcnt := t.symcnt, padLen := 8#4, payLen := 0#40, phase := .encoded,
        result := .ok, cause := .none }) ∧
      ∀ sp a, t.byteAt sp a = s.byteAt sp a

/-- Rules R95, R113 and R168: the empty input is counted straight to Encoded, and `SER` then writes
the empty container `00 00 08`; `CMP` does the same in one command. -/
def Obligations.EmptyInputGivesTheEmptyContainer : Prop :=
  ∀ s : State, s.Inv → s.phase = .idle → s.inLen = 0#40 →
    ∃ t u, exec .cnt s = .next t ∧ t.phase = .encoded ∧ t.symcnt = 0#9 ∧ t.padLen = 8#4 ∧
      t.payLen = 0#40 ∧ t.root = nilIx ∧ t.nnodes = 0#10 ∧ t.ctv = false ∧ t.bsv = false ∧
      t.bitLen = 0#40 ∧ (∀ sy, entry t.freq sy = 0#32) ∧
      exec .ser t = .next u ∧ u.phase = .written ∧ u.output = [0x00#8, 0x00#8, 0x08#8] ∧
      exec .cmp s = .next u

/-! ## BLD -/

/-- Rule R125: the tree of exactly one key. -/
def Obligations.BuildOfOneKey : Prop :=
  ∀ (s : State) (sy : Byte), s.phase = .counted ∨ s.phase = .parsed → s.symcnt = 1#9 →
    keys s.freq = [sy] →
    ∃ t, exec .bld s = .next t ∧
      (∃ nd ∈ t.node[0]?, nd.IsLeaf sy (entry s.freq sy).toNat) ∧
      (∃ nd ∈ t.node[1]?, nd.IsInternal 0 511 (entry s.freq sy).toNat) ∧
      (∀ nd ∈ t.node.toList.drop 2, nd = Node.zero) ∧ t.nnodes = 2#10 ∧ t.root = 1#9 ∧
      t = { s with
        node := t.node, nnodes := t.nnodes, root := t.root, result := .ok, cause := .none,
        phase := if s.phase = .counted then .treeBuilt else .treeRebuilt } ∧
      ∀ sp a, t.byteAt sp a = s.byteAt sp a

/-- Rules R122, R123, R124 and R127: with two keys or more, the Leaves come first; each further
record joins the two lowest of the records not joined before it, by weight and then by index, the
lowest on the left; its weight is their sum. -/
def Obligations.BuildJoinsTheTwoLowest : Prop :=
  ∀ s : State, s.phase = .counted ∨ s.phase = .parsed → 2 ≤ s.symcnt.toNat →
    (keys s.freq).length = s.symcnt.toNat →
    ∃ t, exec .bld s = .next t ∧ LeavesFirst s.freq t.node ∧
      t.nnodes.toNat = 2 * s.symcnt.toNat - 1 ∧ t.root.toNat = 2 * s.symcnt.toNat - 2 ∧
      (∀ i < 2 * s.symcnt.toNat - 1, s.symcnt.toNat ≤ i → ∃ a b,
        (∃ nd ∈ t.node[i]?, nd.IsInternal a b (weightAt t.node a + weightAt t.node b)) ∧
        a < i ∧ b < i ∧
        (∀ j < i, ¬ IsChild t.node j a ∧ ¬ IsChild t.node j b) ∧
        (weightAt t.node a < weightAt t.node b ∨
          (weightAt t.node a = weightAt t.node b ∧ a < b)) ∧
        ∀ c < i, (∀ j < i, ¬ IsChild t.node j c) → c ≠ a → c ≠ b →
          weightAt t.node b < weightAt t.node c ∨
            (weightAt t.node b = weightAt t.node c ∧ b < c)) ∧
      (∀ nd ∈ t.node.toList.drop t.nnodes.toNat, nd = Node.zero) ∧
      t = { s with
        node := t.node, nnodes := t.nnodes, root := t.root, result := .ok, cause := .none,
        phase := if s.phase = .counted then .treeBuilt else .treeRebuilt } ∧
      ∀ sp a, t.byteAt sp a = s.byteAt sp a

/-- Rules R48 and R49: after `BLD` the tree invariant holds, and the root's weight is the sum of all
frequencies. -/
def Obligations.BuildLeavesTheTreeInvariant : Prop :=
  ∀ s : State, s.phase = .counted ∨ s.phase = .parsed → 1 ≤ s.symcnt.toNat →
    (keys s.freq).length = s.symcnt.toNat →
    ∃ t, exec .bld s = .next t ∧ t.result = .ok ∧ t.TreeInvariant ∧
      weightAt t.node t.root.toNat = freqSum s.freq

/-- Rule R126: the builder fails on an empty table. -/
def Obligations.BuildOfNoKeyFails : Prop :=
  ∀ s : State, s.phase = .counted ∨ s.phase = .parsed → s.symcnt = 0#9 →
    exec .bld s = .next (failed s .invalidInput .emptyTable)

/-! ## GEN -/

/-- Rules R136, R137, R138 and R139: in a state with the tree invariant `GEN` completes; the code of
a key is the path to its Leaf, of 1 to 255 bits, at most one bit less than there are keys, and one
bit 0 for a single key; no other symbol has a code; and the frame. -/
def Obligations.GenerateAssignsThePaths : Prop :=
  ∀ s : State, s.phase = .treeBuilt → s.ctv = false → s.TreeInvariant →
    ∃ t, exec .gen s = .next t ∧ t.CodesOfTree ∧
      (∀ sy, keys s.freq = [sy] → t.code sy = [false]) ∧
      (∀ sy, (entry t.clen sy).toNat ≤ max 1 (s.symcnt.toNat - 1)) ∧
      t = { s with
        clen := t.clen, cbits := t.cbits, ctv := true, result := .ok, cause := .none } ∧
      ∀ sp a, t.byteAt sp a = s.byteAt sp a

/-- Rule R140 (b): after `GEN` no code is a prefix of another. -/
def Obligations.CodesArePrefixFree : Prop :=
  ∀ s t : State, s.phase = .treeBuilt → s.TreeInvariant → exec .gen s = .next t → t.result = .ok →
    ∀ x ∈ keys t.freq, ∀ y ∈ keys t.freq, x ≠ y → ¬ t.code x <+: t.code y

/-! ## ENC -/

/-- Rule R146: `ENC` lays down the concatenation of the codes of the input bytes, in order. -/
def Obligations.EncodeConcatenatesTheCodes : Prop :=
  ∀ s : State, s.phase = .treeBuilt → s.ctv = true → s.bsv = false → s.config.legal = true →
    (∀ b ∈ s.input, s.code b ≠ []) → (s.input.flatMap s.code).length ≤ s.config.bitsCap →
    ∃ t, exec .enc s = .next t ∧ t.bitSeq = s.input.flatMap s.code ∧
      t.bitLen.toNat = (s.input.map fun b => (entry s.clen b).toNat).sum ∧
      (∀ a, t.bitLen.toNat ≤ a → t.bitAt a = s.bitAt a) ∧
      t = { s with
        bits := t.bits, bitLen := t.bitLen, bsv := true, result := .ok, cause := .none } ∧
      ∀ sp a, t.byteAt sp a = s.byteAt sp a

/-- Rules R148, R149 and R209: at the first input byte that has no code, or whose code would pass the
capacity, `ENC` fails with `NoCode`, tested first, or `CapBits`. -/
def Obligations.EncodeStopsAtTheFirstBadByte : Prop :=
  ∀ (s : State) (done : List Byte) (b : Byte) (rest : List Byte),
    s.phase = .treeBuilt → s.ctv = true → s.bsv = false → s.input = done ++ b :: rest →
    (∀ x ∈ done, s.code x ≠ []) → (done.flatMap s.code).length ≤ s.config.bitsCap →
    (s.code b = [] → exec .enc s = .next (failed s .invalidInput .noCode)) ∧
    (s.code b ≠ [] → s.config.bitsCap < (done.flatMap s.code).length + (s.code b).length →
      exec .enc s = .next (failed s .capacityError .capBits))

/-! ## PCK and UPK -/

/-- Rules R61, R151, R152 and R153: the padding length, the number of payload bytes, and every bit of
every payload byte, most significant bit first, the filler bits 0. -/
def Obligations.PackPlacesTheBits : Prop :=
  ∀ s : State, s.phase = .treeBuilt → s.bsv = true → s.config.legal = true →
    s.bitLen.toNat < 8 * s.config.payCap →
    ∃ t, exec .pck s = .next t ∧ t.padLen.toNat = 8 - s.bitLen.toNat % 8 ∧
      t.payLen.toNat = s.bitLen.toNat / 8 + 1 ∧
      (∀ k < t.payLen.toNat, ∀ j < 8, (t.byteAt .pay k).getLsbD (7 - j) =
        if 8 * k + j < s.bitLen.toNat then s.bitAt (8 * k + j) else false) ∧
      (∀ a, t.payLen.toNat ≤ a → t.byteAt .pay a = s.byteAt .pay a) ∧
      t = { s with
        pay := t.pay, padLen := t.padLen, payLen := t.payLen, phase := .encoded, result := .ok,
        cause := .none }

/-- Rule R155: `CapPay` is raised exactly when the bit buffer is full. -/
def Obligations.PackFailsExactlyWhenFull : Prop :=
  ∀ s : State, s.phase = .treeBuilt → s.bsv = true → s.bitLen.toNat ≤ 8 * s.config.payCap →
    (exec .pck s = .next (failed s .capacityError .capPay) ↔
      s.bitLen.toNat = 8 * s.config.payCap)

/-- Rules R157, R158 and R159: the bits of the payload, most significant first, less the last
`PADLEN`, which are not looked at; `PayloadShort` if there are fewer. -/
def Obligations.UnpackDropsThePadding : Prop :=
  ∀ s : State, s.phase = .treeRebuilt → s.bsv = false → s.config.legal = true →
    s.payLen.toNat ≤ s.config.payCap →
    (8 * s.payLen.toNat < s.padLen.toNat →
      exec .upk s = .next (failed s .invalidInput .payloadShort)) ∧
    (s.padLen.toNat ≤ 8 * s.payLen.toNat → ∃ t, exec .upk s = .next t ∧
      t.bitLen.toNat = 8 * s.payLen.toNat - s.padLen.toNat ∧
      (∀ i < t.bitLen.toNat, t.bitAt i = (s.byteAt .pay (i / 8)).getLsbD (7 - i % 8)) ∧
      (∀ i, t.bitLen.toNat ≤ i → t.bitAt i = s.bitAt i) ∧
      t = { s with
        bits := t.bits, bitLen := t.bitLen, bsv := true, result := .ok, cause := .none } ∧
      ∀ sp a, t.byteAt sp a = s.byteAt sp a)

/-- Rule R160: packing a bit sequence shorter than the bit buffer and unpacking the result gives it
back. -/
def Obligations.UnpackInvertsPack : Prop :=
  ∀ s u : State, s.phase = .treeBuilt → s.bsv = true → s.bitLen.toNat < 8 * s.config.payCap →
    s.config.legal = true → u.config = s.config → u.phase = .treeRebuilt → u.bsv = false →
    ∃ t, exec .pck s = .next t ∧ (1 ≤ t.padLen.toNat ∧ t.padLen.toNat ≤ 8) ∧
      t.payLen.toNat = s.bitLen.toNat / 8 + 1 ∧
      (u.padLen = t.padLen → u.payload = t.payload →
        ∃ v, exec .upk u = .next v ∧ v.bitSeq = s.bitSeq)

/-! ## SER and PAR -/

/-- Rules R88 and R166: the bytes `SER` writes, field by field, and the frame. -/
def Obligations.SerializeLaysOutTheContainer : Prop :=
  ∀ s : State, s.phase = .encoded → s.config.legal = true →
    s.symcnt.toNat = (keys s.freq).length →
    3 + 5 * s.symcnt.toNat + s.payLen.toNat ≤ s.config.outCap →
    ∃ t, exec .ser s = .next t ∧
      t.outLen.toNat = 3 + 5 * s.symcnt.toNat + s.payLen.toNat ∧
      t.memRead .out 0 2 = s.symcnt.toNat ∧
      (∀ k, (h : k < (keys s.freq).length) → t.byteAt .out (2 + 5 * k) = (keys s.freq)[k] ∧
        t.memRead .out (3 + 5 * k) 4 = (entry s.freq (keys s.freq)[k]).toNat) ∧
      (t.byteAt .out (2 + 5 * s.symcnt.toNat)).toNat = s.padLen.toNat ∧
      (∀ i < s.payLen.toNat, t.byteAt .out (3 + 5 * s.symcnt.toNat + i) = s.byteAt .pay i) ∧
      (∀ a, t.outLen.toNat ≤ a → t.byteAt .out a = s.byteAt .out a) ∧
      t = { s with
        out := t.out, outLen := t.outLen, phase := .written, result := .ok, cause := .none }

/-- Rule R169: a container that does not fit `OUT` fails with `CapOut`. -/
def Obligations.SerializeFailsWhenTooLong : Prop :=
  ∀ s : State, s.phase = .encoded →
    s.config.outCap < 3 + 5 * s.symcnt.toNat + s.payLen.toNat →
    exec .ser s = .next (failed s .capacityError .capOut)

/-- Rules R170 and R209: the refusals of `PAR`, in the order of its checks. Entry `k` has its symbol
at byte `2 + 5k` and its frequency at `3 + 5k`; a frequency of 0 or with bit 31 set is bad. -/
def Obligations.ParseRefusesInOrder : Prop :=
  ∀ s : State, s.phase = .idle →
    let len := s.inLen.toNat
    let n := s.memRead .inp 0 2
    let sym := fun k => s.byteAt .inp (2 + 5 * k)
    let bad := fun k => s.memRead .inp (3 + 5 * k) 4 = 0 ∨ 2 ^ 31 ≤ s.memRead .inp (3 + 5 * k) 4
    let dup := fun k => ∃ j < k, sym j = sym k
    let pad := (s.byteAt .inp (2 + 5 * n)).toNat
    let tableGood := 2 ≤ len ∧ n ≤ 256 ∧ 3 + 5 * n ≤ len ∧ ∀ k < n, ¬ bad k ∧ ¬ dup k
    (len < 2 → exec .par s = .next (failed s .invalidInput .truncated)) ∧
    (2 ≤ len → 256 < n → exec .par s = .next (failed s .invalidInput .symCountRange)) ∧
    (2 ≤ len → n ≤ 256 → len < 3 + 5 * n →
      exec .par s = .next (failed s .invalidInput .truncated)) ∧
    (∀ k < n, 2 ≤ len → n ≤ 256 → 3 + 5 * n ≤ len → (∀ j < k, ¬ bad j ∧ ¬ dup j) → bad k →
      exec .par s = .next (failed s .invalidInput .badFrequency)) ∧
    (∀ k < n, 2 ≤ len → n ≤ 256 → 3 + 5 * n ≤ len → (∀ j < k, ¬ bad j ∧ ¬ dup j) → ¬ bad k → dup k →
      exec .par s = .next (failed s .invalidInput .dupSymbol)) ∧
    (tableGood → pad < 1 ∨ 8 < pad → exec .par s = .next (failed s .invalidInput .padRange)) ∧
    (tableGood → 1 ≤ pad → pad ≤ 8 → n = 0 → 3 < len →
      exec .par s = .next (failed s .invalidInput .extraPayload)) ∧
    (tableGood → 1 ≤ pad → pad ≤ 8 → 1 ≤ n → s.config.payCap < len - (3 + 5 * n) →
      exec .par s = .next (failed s .capacityError .capPay))

/-- Rules R170, R171, R174 and R175: what `PAR` leaves when every check passes. -/
def Obligations.ParseRecoversTheParts : Prop :=
  ∀ (s : State) (n pad : Nat), s.phase = .idle → s.config.legal = true →
    n = s.memRead .inp 0 2 → pad = (s.byteAt .inp (2 + 5 * n)).toNat →
    n ≤ 256 → 3 + 5 * n ≤ s.inLen.toNat →
    (∀ k < n, 1 ≤ s.memRead .inp (3 + 5 * k) 4 ∧ s.memRead .inp (3 + 5 * k) 4 < 2 ^ 31) →
    (∀ k < n, ∀ j < k, s.byteAt .inp (2 + 5 * j) ≠ s.byteAt .inp (2 + 5 * k)) →
    1 ≤ pad → pad ≤ 8 → (n = 0 → s.inLen.toNat = 3) →
    s.inLen.toNat - (3 + 5 * n) ≤ s.config.payCap →
    ∃ t, exec .par s = .next t ∧
      (∀ k < n, (entry t.freq (s.byteAt .inp (2 + 5 * k))).toNat = s.memRead .inp (3 + 5 * k) 4) ∧
      (∀ sy, (∀ k < n, s.byteAt .inp (2 + 5 * k) ≠ sy) → entry t.freq sy = 0#32) ∧
      t.symcnt.toNat = n ∧ (keys t.freq).length = n ∧ t.padLen.toNat = pad ∧
      t.payLen.toNat = s.inLen.toNat - (3 + 5 * n) ∧
      (∀ i < t.payLen.toNat, t.byteAt .pay i = s.byteAt .inp (3 + 5 * n + i)) ∧
      (∀ a, t.payLen.toNat ≤ a → t.byteAt .pay a = s.byteAt .pay a) ∧
      t.phase = (if n = 0 then .decoded else .parsed) ∧
      t.dLen = (if n = 0 then 0#40 else s.dLen) ∧
      t = { s with
        freq := t.freq, symcnt := t.symcnt, padLen := t.padLen, pay := t.pay, payLen := t.payLen,
        dLen := t.dLen, phase := t.phase, result := .ok, cause := .none }

/-- Rule R177: `PAR` recovers what `SER` wrote. -/
def Obligations.ParseInvertsSerialize : Prop :=
  ∀ s t u : State, s.Inv → s.phase = .encoded → exec .ser s = .next t → t.result = .ok →
    u.phase = .idle → u.config.legal = true → u.input = t.output →
    s.payLen.toNat ≤ u.config.payCap →
    ∃ v, exec .par u = .next v ∧ v.result = .ok ∧ v.freq = s.freq ∧ v.symcnt = s.symcnt ∧
      v.padLen = s.padLen ∧ v.payLen = s.payLen ∧ v.payload = s.payload

/-- Rule R91: the order of the symbol entries does not matter to `PAR`. An entry is a symbol and four
bytes of frequency. -/
def Obligations.EntryOrderDoesNotMatter : Prop :=
  ∀ (s u t : State) (head tail : List Byte) (es es' : List (Byte × Byte × Byte × Byte × Byte)),
    s.phase = .idle → u.phase = .idle → s.config = u.config → head.length = 2 →
    leValue head = es.length → es.Perm es' →
    s.input = head ++ es.flatMap (fun e => [e.1, e.2.1, e.2.2.1, e.2.2.2.1, e.2.2.2.2]) ++ tail →
    u.input = head ++ es'.flatMap (fun e => [e.1, e.2.1, e.2.2.1, e.2.2.2.1, e.2.2.2.2]) ++ tail →
    exec .par s = .next t → t.result = .ok →
    ∃ v, exec .par u = .next v ∧ v.result = .ok ∧ v.freq = t.freq ∧ v.symcnt = t.symcnt ∧
      v.padLen = t.padLen ∧ v.payload = t.payload ∧ v.phase = t.phase

/-! ## WLK and EMT -/

/-- Rules R185 and R186: when the bits are the concatenation of codes of as many symbols as the
frequencies sum to, and those fit `DBUF`, the walk decodes exactly these symbols. -/
def Obligations.WalkDecodesTheCodes : Prop :=
  ∀ (s : State) (ds : List Byte) (code : Byte → List Bit),
    s.phase = .treeRebuilt → s.bsv = true → s.config.legal = true → s.TreeInvariant →
    (∀ d ∈ ds, IsCode s.node s.root (code d) d) → s.bitSeq = ds.flatMap code →
    ds.length = freqSum s.freq → ds.length ≤ s.config.outCap →
    ∃ t, exec .wlk s = .next t ∧ t.decodedBytes = ds ∧ t.dLen.toNat = ds.length ∧
      (∀ a, t.dLen.toNat ≤ a → t.byteAt .dbuf a = s.byteAt .dbuf a) ∧
      t = { s with
        dbuf := t.dbuf, dLen := t.dLen, phase := .decoded, result := .ok, cause := .none }

/-- Rules R185, R188 and R209: the failures of the walk after whole codes of the symbols `ds`: too
many symbols for `DBUF`, bits that end inside a code, a wrong number of symbols. -/
def Obligations.WalkChecksTheEnd : Prop :=
  ∀ (s : State) (ds : List Byte) (code : Byte → List Bit) (more : List Bit),
    s.phase = .treeRebuilt → s.bsv = true → s.TreeInvariant →
    (∀ d ∈ ds, IsCode s.node s.root (code d) d) → ds.length ≤ s.config.outCap →
    s.bitSeq = ds.flatMap code ++ more →
    (∀ d p rest, IsCode s.node s.root p d → more = p ++ rest → ds.length = s.config.outCap →
      exec .wlk s = .next (failed s .capacityError .capOut)) ∧
    (more ≠ [] → EndsInside s.node s.root more →
      exec .wlk s = .next (failed s .invalidInput .midCode)) ∧
    (more = [] → ds.length ≠ freqSum s.freq →
      exec .wlk s = .next (failed s .invalidInput .countMismatch))

/-- Rule R187: `NullChild` arises with the single-symbol tree and a bit 1, and in no other situation:
never with a tree of two keys or more, and never without a bit 1. -/
def Obligations.NullChildOnlyInTheSingleTree : Prop :=
  (∀ (s : State) (k : Nat) (rest : List Bit),
    s.phase = .treeRebuilt → s.bsv = true → s.TreeInvariant → s.symcnt = 1#9 →
    k ≤ s.config.outCap → s.bitSeq = List.replicate k false ++ true :: rest →
    exec .wlk s = .next (failed s .invalidInput .nullChild)) ∧
  ∀ s t : State, s.phase = .treeRebuilt → s.bsv = true → s.TreeInvariant →
    exec .wlk s = .next t → t.cause = .nullChild → s.symcnt = 1#9 ∧ true ∈ s.bitSeq

/-- Rule R189: `EMT` copies the decoded bytes to `OUT`. -/
def Obligations.EmitCopiesTheDecodedBytes : Prop :=
  ∀ s : State, s.phase = .decoded → s.dLen.toNat ≤ s.config.outCap →
    ∃ t, exec .emt s = .next t ∧ (∀ a < s.dLen.toNat, t.byteAt .out a = s.byteAt .dbuf a) ∧
      (∀ a, s.dLen.toNat ≤ a → t.byteAt .out a = s.byteAt .out a) ∧
      t = { s with
        out := t.out, outLen := s.dLen, phase := .written, result := .ok, cause := .none }

/-! ## CMP and DCM -/

/-- Rules R191 and R192: `CMP` leaves the state that its stages leave when the host issues them one by
one and stops at the first result that is not `OK`. -/
def Obligations.CompressIsItsStages : Prop :=
  ∀ (s t : State), s.phase = .idle → s.host = [] → exec .cmp s = .next t →
    ∃ k, 1 ≤ k ∧ k ≤ (compressSequence s).length ∧ ∃ u,
      runSteps k { s with host := staged (compressSequence s) } = .next u ∧
      t = { u with host := [] } ∧ (t.result = .ok → k = (compressSequence s).length) ∧
      ∀ j < k, j ≠ 0 → ∃ v,
        runSteps j { s with host := staged (compressSequence s) } = .next v ∧
        v.result = .ok

/-- Rules R191 and R193: `DCM` leaves the state that its stages leave. -/
def Obligations.DecompressIsItsStages : Prop :=
  ∀ (s t : State), s.phase = .idle → s.host = [] → exec .dcm s = .next t →
    ∃ k, 1 ≤ k ∧ k ≤ (decompressSequence s).length ∧ ∃ u,
      runSteps k { s with host := staged (decompressSequence s) } = .next u ∧
      t = { u with host := [] } ∧ (t.result = .ok → k = (decompressSequence s).length) ∧
      ∀ j < k, j ≠ 0 → ∃ v,
        runSteps j { s with host := staged (decompressSequence s) } = .next v ∧
        v.result = .ok

/-- Rules R192, R147 and R196: with capacities large enough `CMP` on a non-empty input ends in
Written with `OK`; the counts, the tree, the codes, the bit sequence, the padding length and the
payload packed from it (rules R151 and R152), the container byte for byte (rule R88, whose layout
SerializeLaysOutTheContainer spells out), and the frame. -/
def Obligations.CompressCompletes : Prop :=
  ∀ s : State, s.Inv → s.phase = .idle → s.inLen ≠ 0#40 →
    255 * s.inLen.toNat < 8 * s.config.payCap →
    1284 + 255 * s.inLen.toNat / 8 ≤ s.config.outCap →
    ∃ t, exec .cmp s = .next t ∧ t.phase = .written ∧ t.result = .ok ∧
      (∀ sy, (entry t.freq sy).toNat = s.input.count sy) ∧ t.TreeInvariant ∧ t.CodesOfTree ∧
      t.bitSeq = s.input.flatMap t.code ∧
      t.bitLen.toNat = (symbols.map fun sy => (entry t.freq sy).toNat * (entry t.clen sy).toNat).sum ∧
      s.inLen.toNat ≤ t.bitLen.toNat ∧ t.bitLen.toNat ≤ 255 * s.inLen.toNat ∧
      t.padLen.toNat = 8 - t.bitLen.toNat % 8 ∧ t.payLen.toNat = t.bitLen.toNat / 8 + 1 ∧
      t.payload = packBits t.bitSeq ∧
      t.output = containerBytes t.freq t.symcnt.toNat t.padLen.toNat t.payload ∧
      t.outLen.toNat = 3 + 5 * t.symcnt.toNat + (t.bitLen.toNat / 8 + 1) ∧
      t.memRead .out 0 2 = t.symcnt.toNat ∧
      (∀ i < t.payLen.toNat, t.byteAt .out (3 + 5 * t.symcnt.toNat + i) = t.byteAt .pay i) ∧
      (∀ a, t.outLen.toNat ≤ a → t.byteAt .out a = s.byteAt .out a) ∧
      (∀ a, t.payLen.toNat ≤ a → t.byteAt .pay a = s.byteAt .pay a) ∧
      (∀ a, t.bitLen.toNat ≤ a → t.bitAt a = s.bitAt a) ∧
      t = { s with
        freq := t.freq, symcnt := t.symcnt, node := t.node, nnodes := t.nnodes, root := t.root,
        clen := t.clen, cbits := t.cbits, ctv := true, bits := t.bits, bitLen := t.bitLen,
        bsv := true, pay := t.pay, padLen := t.padLen, payLen := t.payLen, out := t.out,
        outLen := t.outLen, phase := .written, result := .ok, cause := .none }

/-- Rules R193 and R194: with capacities large enough `DCM` on the container of a non-empty byte
sequence `S`, that is the table of its counts, the padding length and the packed codes of `S` in the
tree of that table, ends in Written with `OUT` holding `S`; on the empty container `00 00 08` it
leaves an output of length 0. -/
def Obligations.DecompressCompletes : Prop :=
  (∀ (s : State) (S : List Byte) (code : Byte → List Bit), s.Inv → s.phase = .idle → S ≠ [] →
    S.length ≤ s.config.outCap → S.length < 2 ^ 31 →
    (∀ d ∈ S, IsCode (buildTree (countTable S) (keys (countTable S)).length).node
      (buildTree (countTable S) (keys (countTable S)).length).root (code d) d) →
    (S.flatMap code).length < 8 * s.config.payCap →
    s.input = containerBytes (countTable S) (keys (countTable S)).length
      (8 - (S.flatMap code).length % 8) (packBits (S.flatMap code)) →
    ∃ t, exec .dcm s = .next t ∧ t.phase = .written ∧ t.result = .ok ∧ t.output = S ∧
      t.freq = countTable S ∧ t.decodedBytes = S ∧
      (∀ a, t.outLen.toNat ≤ a → t.byteAt .out a = s.byteAt .out a) ∧
      (∀ a, t.dLen.toNat ≤ a → t.byteAt .dbuf a = s.byteAt .dbuf a) ∧
      (∀ a, t.payLen.toNat ≤ a → t.byteAt .pay a = s.byteAt .pay a) ∧
      (∀ a, t.bitLen.toNat ≤ a → t.bitAt a = s.bitAt a) ∧
      t = { s with
        freq := t.freq, symcnt := t.symcnt, padLen := t.padLen, pay := t.pay, payLen := t.payLen,
        node := t.node, nnodes := t.nnodes, root := t.root, bits := t.bits, bitLen := t.bitLen,
        bsv := true, dbuf := t.dbuf, dLen := t.dLen, out := t.out, outLen := t.outLen,
        phase := .written, result := .ok, cause := .none }) ∧
  ∀ s : State, s.Inv → s.phase = .idle → s.input = [0x00#8, 0x00#8, 0x08#8] →
    ∃ t, exec .dcm s = .next t ∧ t.phase = .written ∧ t.result = .ok ∧ t.outLen = 0#40

/-- Rule R194, the round trip: if `CMP` on `S` ends with `OK`, and its output, the container, is the
input of a block of the same capacities, and `S` fits `OUT`, then `DCM` ends with `OK` and gives back
`S`. -/
def Obligations.DecompressInvertsCompress : Prop :=
  ∀ s t u : State, s.Inv → s.phase = .idle → exec .cmp s = .next t → t.result = .ok →
    u.Inv → u.phase = .idle → u.config = s.config → u.input = t.output →
    s.inLen.toNat ≤ s.config.outCap →
    ∃ v, exec .dcm u = .next v ∧ v.phase = .written ∧ v.result = .ok ∧ v.output = s.input

/-- Rule R188: a container that has lost whole bytes from the end of its payload is detected as
`InvalidInput`, nothing being put out. -/
def Obligations.TruncatedPayloadIsDetected : Prop :=
  ∀ (s t u : State) (k : Nat), s.Inv → s.phase = .idle → s.inLen ≠ 0#40 →
    exec .cmp s = .next t → t.result = .ok → s.inLen.toNat ≤ s.config.outCap →
    u.Inv → u.phase = .idle → u.config = s.config → 1 ≤ k → k ≤ t.payLen.toNat →
    u.input = t.output.take (t.outLen.toNat - k) →
    ∃ v, exec .dcm u = .next v ∧ v.phase = .failed ∧ v.result = .invalidInput ∧ v.outLen = 0#40

/-! ## The whole machine -/

/-- The invariant holds after reset (rules R59 and R184). -/
def Obligations.ResetMeetsTheInvariant : Prop := State.reset.Inv

/-- Rule R184: every step keeps the invariant. -/
def Obligations.StepKeepsTheInvariant : Prop :=
  ∀ s t : State, s.Inv → step s = .next t → t.Inv

/-- Rules R25, R67 and R243: from a state with the invariant no step stops: every command terminates,
reads only records that exist and writes only cells that exist. -/
def Obligations.InvariantStatesNeverStop : Prop :=
  ∀ s : State, s.Inv → ∃ t, step s = .next t

/-- Every step keeps every space in canonical form, whatever the state. -/
def Obligations.StepKeepsMemoryCanonical : Prop :=
  ∀ s t : State, s.memoryWf = true → step s = .next t → t.memoryWf = true

/-- Rule R56: "no command reads" an unspecified cell: two states that agree on every register and
every valid cell end a command alike, whatever their unspecified cells hold. -/
def Obligations.UnspecifiedCellsNeverMatter : Prop :=
  ∀ (i : Instr) (s u : State), s.Agrees u → OutcomesAgree (exec i s) (exec i u)
end

