-- ==== Sys2Proof/Laws/Memory.lean ====
section
/-! SUPPORT. Laws of the cells of a space: what a store changes and keeps, and that every operation
keeps the canonical form. -/

namespace Sys2Proof.Machine

variable {α : Type}

@[simp] theorem Memory.run_nil (a : Nat) : Memory.run (α := α) a [] = [] := rfl

@[simp] theorem Memory.run_cons (a : Nat) (v : α) (vs : List α) :
    Memory.run a (v :: vs) = (a, v) :: Memory.run (a + 1) vs := rfl

/-- The cells of a run are those from `a` on, as many as there are values. -/
theorem Memory.mem_run {c : Nat × α} {a : Nat} {vs : List α} (h : c ∈ Memory.run a vs) :
    a ≤ c.1 ∧ c.1 < a + vs.length := by
  induction vs generalizing a with
  | nil => simp at h
  | cons v vs ih =>
    rcases List.mem_cons.1 h with rfl | h
    · simp
    · have := ih h
      simp only [List.length_cons]
      omega

theorem Memory.run_pairwise (a : Nat) (vs : List α) :
    (Memory.run a vs).Pairwise fun c d => c.1 < d.1 := by
  induction vs generalizing a with
  | nil => simp
  | cons v vs ih =>
    refine List.pairwise_cons.2 ⟨fun d hd => ?_, ih (a + 1)⟩
    have := Memory.mem_run hd
    omega

theorem Memory.wf_iff (m : Memory α) : m.wf = true ↔ m.Pairwise fun c d => c.1 < d.1 := by
  simp [Memory.wf]

@[simp] theorem Memory.wf_nil : Memory.wf (α := α) [] = true := by simp [Memory.wf]

/-- A store keeps the canonical form. -/
theorem Memory.wf_store {m : Memory α} (h : m.wf = true) (a : Nat) (vs : List α) :
    (m.store a vs).wf = true := by
  rw [Memory.wf_iff] at h ⊢
  refine List.pairwise_append.2 ⟨h.filter _, List.pairwise_append.2
    ⟨Memory.run_pairwise a vs, h.filter _, ?_⟩, ?_⟩
  · intro c hc d hd
    have hc := Memory.mem_run hc
    have hd := (List.mem_filter.1 hd).2
    simp only [decide_eq_true_eq] at hd
    omega
  · intro c hc d hd
    have hc := (List.mem_filter.1 hc).2
    simp only [decide_eq_true_eq] at hc
    rcases List.mem_append.1 hd with hd | hd
    · have := Memory.mem_run hd
      omega
    · have := (List.mem_filter.1 hd).2
      simp only [decide_eq_true_eq] at this
      omega

theorem Memory.wf_write {m : Memory α} (h : m.wf = true) (a : Nat) (v : α) :
    (m.write a v).wf = true := Memory.wf_store h a [v]

/-! ## Reading -/

@[simp] theorem Memory.read?_nil (a : Nat) : Memory.read? (α := α) [] a = none := rfl

theorem Memory.read?_cons (c : Nat × α) (m : Memory α) (a : Nat) :
    Memory.read? (c :: m) a = if a = c.1 then some c.2 else Memory.read? m a := by
  obtain ⟨i, v⟩ := c
  by_cases h : a = i
  · simp [Memory.read?, List.lookup, h]
  · have : (a == i) = false := by simpa using h
    simp [Memory.read?, List.lookup, h, this]

theorem Memory.read?_append (m m' : Memory α) (a : Nat) :
    Memory.read? (m ++ m') a = (Memory.read? m a).or (Memory.read? m' a) := by
  induction m with
  | nil => simp
  | cons c m ih =>
    rw [List.cons_append, Memory.read?_cons, Memory.read?_cons, ih]
    split <;> simp

/-- Reading what a run of values laid down. -/
theorem Memory.read?_run (a : Nat) (vs : List α) (b : Nat) :
    Memory.read? (Memory.run a vs) b = if a ≤ b then vs[b - a]? else none := by
  induction vs generalizing a with
  | nil => simp
  | cons v vs ih =>
    rw [Memory.run_cons, Memory.read?_cons, ih]
    by_cases h : b = a
    · simp [h]
    · by_cases h' : a ≤ b
      · obtain ⟨k, rfl⟩ : ∃ k, b = a + 1 + k := ⟨b - (a + 1), by omega⟩
        have h1 : a + 1 + k - a = k + 1 := by omega
        have h2 : a + 1 ≤ a + 1 + k := by omega
        simp [h, h1, h', h2]
      · have : ¬ a + 1 ≤ b := by omega
        simp [h, h', this]

theorem Memory.read?_filter (m : Memory α) (p : Nat → Bool) (a : Nat) :
    Memory.read? (m.filter fun c => p c.1) a = if p a then Memory.read? m a else none := by
  induction m with
  | nil => simp
  | cons c m ih =>
    by_cases hp : p c.1 = true
    · rw [List.filter_cons_of_pos (by simpa using hp), Memory.read?_cons, Memory.read?_cons, ih]
      by_cases h : a = c.1
      · simp [h, hp]
      · simp [h]
    · rw [List.filter_cons_of_neg (by simpa using hp), ih, Memory.read?_cons]
      by_cases h : a = c.1
      · have : p a = false := by simpa [h] using hp
        simp [this]
      · simp [h]

/-- Reading after a store: the stored value inside the run, the value before outside it. -/
theorem Memory.read?_store (m : Memory α) (a : Nat) (vs : List α) (b : Nat) :
    (m.store a vs).read? b =
      if a ≤ b ∧ b < a + vs.length then vs[b - a]? else m.read? b := by
  rw [Memory.store, Memory.read?_append, Memory.read?_append, Memory.read?_run,
    Memory.read?_filter m (fun i => decide (i < a)) b,
    Memory.read?_filter m (fun i => decide (a + vs.length ≤ i)) b]
  by_cases h1 : b < a
  · have : ¬ a ≤ b := by omega
    have h3 : ¬ a + vs.length ≤ b := by omega
    simp [h1, this, h3]
  · by_cases h2 : b < a + vs.length
    · have h3 : a ≤ b := by omega
      have h4 : b - a < vs.length := by omega
      simp [h1, h2, h3, List.getElem?_eq_getElem h4]
    · have h3 : a ≤ b := by omega
      have h4 : a + vs.length ≤ b := by omega
      have h5 : vs[b - a]? = none := List.getElem?_eq_none (by omega)
      simp [h1, h2, h3, h4, h5]

/-- The cells from 0 on, after a store there, hold the stored values. -/
theorem Memory.read?_store_zero (m : Memory α) (vs : List α) (b : Nat) :
    (m.store 0 vs).read? b = if b < vs.length then vs[b]? else m.read? b := by
  simp [Memory.read?_store]

theorem Memory.read?_write (m : Memory α) (a : Nat) (v : α) (b : Nat) :
    (m.write a v).read? b = if b = a then some v else m.read? b := by
  rw [Memory.write, Memory.read?_store]
  by_cases h : b = a
  · simp [h]
  · have : ¬ (a ≤ b ∧ b < a + [v].length) := by simp only [List.length_cons, List.length_nil]; omega
    rw [if_neg this, if_neg h]

/-! ## Little-endian numbers -/

@[simp] theorem leBytes_length (n v : Nat) : (leBytes n v).length = n := by
  induction n generalizing v with
  | zero => rfl
  | succ n ih => simp [leBytes, ih]

/-- Writing a number and reading it back gives it modulo the width. -/
theorem leValue_leBytes (n v : Nat) : leValue (leBytes n v) = v % 256 ^ n := by
  induction n generalizing v with
  | zero => simp [leBytes, leValue, Nat.mod_one]
  | succ n ih =>
    have h8 : (BitVec.ofNat 8 v).toNat = v % 256 := BitVec.toNat_ofNat ..
    rw [leBytes, leValue, ih, h8, Nat.pow_succ', Nat.mod_mul]

theorem leValue_lt (bs : List Byte) : leValue bs < 256 ^ bs.length := by
  induction bs with
  | nil => simp [leValue]
  | cons b bs ih =>
    have hb : b.toNat < 256 := b.isLt
    rw [leValue, List.length_cons, Nat.pow_succ]
    omega

end Sys2Proof.Machine
end

