-- ==== Sys2Proof/Laws/State.lean ====
section
/-! SUPPORT. One lemma per field per named update of the state, each true by unfolding. -/

namespace Sys2Proof.Machine

/-! ## `succeed` -/

@[simp] theorem State.succeed_phase (s : State) : (s.succeed).phase = s.phase := rfl
@[simp] theorem State.succeed_ctv (s : State) : (s.succeed).ctv = s.ctv := rfl
@[simp] theorem State.succeed_bsv (s : State) : (s.succeed).bsv = s.bsv := rfl
@[simp] theorem State.succeed_es (s : State) : (s.succeed).es = s.es := rfl
@[simp] theorem State.succeed_result (s : State) : (s.succeed).result = .ok := rfl
@[simp] theorem State.succeed_cause (s : State) : (s.succeed).cause = .none := rfl
@[simp] theorem State.succeed_inLen (s : State) : (s.succeed).inLen = s.inLen := rfl
@[simp] theorem State.succeed_outLen (s : State) : (s.succeed).outLen = s.outLen := rfl
@[simp] theorem State.succeed_symcnt (s : State) : (s.succeed).symcnt = s.symcnt := rfl
@[simp] theorem State.succeed_root (s : State) : (s.succeed).root = s.root := rfl
@[simp] theorem State.succeed_nnodes (s : State) : (s.succeed).nnodes = s.nnodes := rfl
@[simp] theorem State.succeed_bitLen (s : State) : (s.succeed).bitLen = s.bitLen := rfl
@[simp] theorem State.succeed_padLen (s : State) : (s.succeed).padLen = s.padLen := rfl
@[simp] theorem State.succeed_payLen (s : State) : (s.succeed).payLen = s.payLen := rfl
@[simp] theorem State.succeed_dLen (s : State) : (s.succeed).dLen = s.dLen := rfl
@[simp] theorem State.succeed_freq (s : State) : (s.succeed).freq = s.freq := rfl
@[simp] theorem State.succeed_clen (s : State) : (s.succeed).clen = s.clen := rfl
@[simp] theorem State.succeed_cbits (s : State) : (s.succeed).cbits = s.cbits := rfl
@[simp] theorem State.succeed_node (s : State) : (s.succeed).node = s.node := rfl
@[simp] theorem State.succeed_inBuf (s : State) : (s.succeed).inBuf = s.inBuf := rfl
@[simp] theorem State.succeed_out (s : State) : (s.succeed).out = s.out := rfl
@[simp] theorem State.succeed_pay (s : State) : (s.succeed).pay = s.pay := rfl
@[simp] theorem State.succeed_bits (s : State) : (s.succeed).bits = s.bits := rfl
@[simp] theorem State.succeed_dbuf (s : State) : (s.succeed).dbuf = s.dbuf := rfl
@[simp] theorem State.succeed_config (s : State) : (s.succeed).config = s.config := rfl
@[simp] theorem State.succeed_host (s : State) : (s.succeed).host = s.host := rfl
@[simp] theorem State.succeed_epoch (s : State) : (s.succeed).epoch = s.epoch := rfl
@[simp] theorem State.succeed_draws (s : State) : (s.succeed).draws = s.draws := rfl
@[simp] theorem State.succeed_lastRead (s : State) : (s.succeed).lastRead = s.lastRead := rfl

/-! ## `failWith` -/

@[simp] theorem State.failWith_phase (s : State) (r : Result) (c : Cause) : (s.failWith r c).phase = .failed := rfl
@[simp] theorem State.failWith_ctv (s : State) (r : Result) (c : Cause) : (s.failWith r c).ctv = s.ctv := rfl
@[simp] theorem State.failWith_bsv (s : State) (r : Result) (c : Cause) : (s.failWith r c).bsv = s.bsv := rfl
@[simp] theorem State.failWith_es (s : State) (r : Result) (c : Cause) : (s.failWith r c).es = true := rfl
@[simp] theorem State.failWith_result (s : State) (r : Result) (c : Cause) : (s.failWith r c).result = r := rfl
@[simp] theorem State.failWith_cause (s : State) (r : Result) (c : Cause) : (s.failWith r c).cause = c := rfl
@[simp] theorem State.failWith_inLen (s : State) (r : Result) (c : Cause) : (s.failWith r c).inLen = s.inLen := rfl
@[simp] theorem State.failWith_outLen (s : State) (r : Result) (c : Cause) : (s.failWith r c).outLen = s.outLen := rfl
@[simp] theorem State.failWith_symcnt (s : State) (r : Result) (c : Cause) : (s.failWith r c).symcnt = s.symcnt := rfl
@[simp] theorem State.failWith_root (s : State) (r : Result) (c : Cause) : (s.failWith r c).root = s.root := rfl
@[simp] theorem State.failWith_nnodes (s : State) (r : Result) (c : Cause) : (s.failWith r c).nnodes = s.nnodes := rfl
@[simp] theorem State.failWith_bitLen (s : State) (r : Result) (c : Cause) : (s.failWith r c).bitLen = s.bitLen := rfl
@[simp] theorem State.failWith_padLen (s : State) (r : Result) (c : Cause) : (s.failWith r c).padLen = s.padLen := rfl
@[simp] theorem State.failWith_payLen (s : State) (r : Result) (c : Cause) : (s.failWith r c).payLen = s.payLen := rfl
@[simp] theorem State.failWith_dLen (s : State) (r : Result) (c : Cause) : (s.failWith r c).dLen = s.dLen := rfl
@[simp] theorem State.failWith_freq (s : State) (r : Result) (c : Cause) : (s.failWith r c).freq = s.freq := rfl
@[simp] theorem State.failWith_clen (s : State) (r : Result) (c : Cause) : (s.failWith r c).clen = s.clen := rfl
@[simp] theorem State.failWith_cbits (s : State) (r : Result) (c : Cause) : (s.failWith r c).cbits = s.cbits := rfl
@[simp] theorem State.failWith_node (s : State) (r : Result) (c : Cause) : (s.failWith r c).node = s.node := rfl
@[simp] theorem State.failWith_inBuf (s : State) (r : Result) (c : Cause) : (s.failWith r c).inBuf = s.inBuf := rfl
@[simp] theorem State.failWith_out (s : State) (r : Result) (c : Cause) : (s.failWith r c).out = s.out := rfl
@[simp] theorem State.failWith_pay (s : State) (r : Result) (c : Cause) : (s.failWith r c).pay = s.pay := rfl
@[simp] theorem State.failWith_bits (s : State) (r : Result) (c : Cause) : (s.failWith r c).bits = s.bits := rfl
@[simp] theorem State.failWith_dbuf (s : State) (r : Result) (c : Cause) : (s.failWith r c).dbuf = s.dbuf := rfl
@[simp] theorem State.failWith_config (s : State) (r : Result) (c : Cause) : (s.failWith r c).config = s.config := rfl
@[simp] theorem State.failWith_host (s : State) (r : Result) (c : Cause) : (s.failWith r c).host = s.host := rfl
@[simp] theorem State.failWith_epoch (s : State) (r : Result) (c : Cause) : (s.failWith r c).epoch = s.epoch := rfl
@[simp] theorem State.failWith_draws (s : State) (r : Result) (c : Cause) : (s.failWith r c).draws = s.draws := rfl
@[simp] theorem State.failWith_lastRead (s : State) (r : Result) (c : Cause) : (s.failWith r c).lastRead = s.lastRead := rfl

/-! ## `reject` -/

@[simp] theorem State.reject_phase (s : State) (r : Result) : (s.reject r).phase = s.phase := rfl
@[simp] theorem State.reject_ctv (s : State) (r : Result) : (s.reject r).ctv = s.ctv := rfl
@[simp] theorem State.reject_bsv (s : State) (r : Result) : (s.reject r).bsv = s.bsv := rfl
@[simp] theorem State.reject_es (s : State) (r : Result) : (s.reject r).es = true := rfl
@[simp] theorem State.reject_result (s : State) (r : Result) : (s.reject r).result = r := rfl
@[simp] theorem State.reject_cause (s : State) (r : Result) : (s.reject r).cause = .none := rfl
@[simp] theorem State.reject_inLen (s : State) (r : Result) : (s.reject r).inLen = s.inLen := rfl
@[simp] theorem State.reject_outLen (s : State) (r : Result) : (s.reject r).outLen = s.outLen := rfl
@[simp] theorem State.reject_symcnt (s : State) (r : Result) : (s.reject r).symcnt = s.symcnt := rfl
@[simp] theorem State.reject_root (s : State) (r : Result) : (s.reject r).root = s.root := rfl
@[simp] theorem State.reject_nnodes (s : State) (r : Result) : (s.reject r).nnodes = s.nnodes := rfl
@[simp] theorem State.reject_bitLen (s : State) (r : Result) : (s.reject r).bitLen = s.bitLen := rfl
@[simp] theorem State.reject_padLen (s : State) (r : Result) : (s.reject r).padLen = s.padLen := rfl
@[simp] theorem State.reject_payLen (s : State) (r : Result) : (s.reject r).payLen = s.payLen := rfl
@[simp] theorem State.reject_dLen (s : State) (r : Result) : (s.reject r).dLen = s.dLen := rfl
@[simp] theorem State.reject_freq (s : State) (r : Result) : (s.reject r).freq = s.freq := rfl
@[simp] theorem State.reject_clen (s : State) (r : Result) : (s.reject r).clen = s.clen := rfl
@[simp] theorem State.reject_cbits (s : State) (r : Result) : (s.reject r).cbits = s.cbits := rfl
@[simp] theorem State.reject_node (s : State) (r : Result) : (s.reject r).node = s.node := rfl
@[simp] theorem State.reject_inBuf (s : State) (r : Result) : (s.reject r).inBuf = s.inBuf := rfl
@[simp] theorem State.reject_out (s : State) (r : Result) : (s.reject r).out = s.out := rfl
@[simp] theorem State.reject_pay (s : State) (r : Result) : (s.reject r).pay = s.pay := rfl
@[simp] theorem State.reject_bits (s : State) (r : Result) : (s.reject r).bits = s.bits := rfl
@[simp] theorem State.reject_dbuf (s : State) (r : Result) : (s.reject r).dbuf = s.dbuf := rfl
@[simp] theorem State.reject_config (s : State) (r : Result) : (s.reject r).config = s.config := rfl
@[simp] theorem State.reject_host (s : State) (r : Result) : (s.reject r).host = s.host := rfl
@[simp] theorem State.reject_epoch (s : State) (r : Result) : (s.reject r).epoch = s.epoch := rfl
@[simp] theorem State.reject_draws (s : State) (r : Result) : (s.reject r).draws = s.draws := rfl
@[simp] theorem State.reject_lastRead (s : State) (r : Result) : (s.reject r).lastRead = s.lastRead := rfl

/-! ## `setCtv` -/

@[simp] theorem State.setCtv_phase (s : State) : (s.setCtv).phase = s.phase := rfl
@[simp] theorem State.setCtv_ctv (s : State) : (s.setCtv).ctv = true := rfl
@[simp] theorem State.setCtv_bsv (s : State) : (s.setCtv).bsv = s.bsv := rfl
@[simp] theorem State.setCtv_es (s : State) : (s.setCtv).es = s.es := rfl
@[simp] theorem State.setCtv_result (s : State) : (s.setCtv).result = s.result := rfl
@[simp] theorem State.setCtv_cause (s : State) : (s.setCtv).cause = s.cause := rfl
@[simp] theorem State.setCtv_inLen (s : State) : (s.setCtv).inLen = s.inLen := rfl
@[simp] theorem State.setCtv_outLen (s : State) : (s.setCtv).outLen = s.outLen := rfl
@[simp] theorem State.setCtv_symcnt (s : State) : (s.setCtv).symcnt = s.symcnt := rfl
@[simp] theorem State.setCtv_root (s : State) : (s.setCtv).root = s.root := rfl
@[simp] theorem State.setCtv_nnodes (s : State) : (s.setCtv).nnodes = s.nnodes := rfl
@[simp] theorem State.setCtv_bitLen (s : State) : (s.setCtv).bitLen = s.bitLen := rfl
@[simp] theorem State.setCtv_padLen (s : State) : (s.setCtv).padLen = s.padLen := rfl
@[simp] theorem State.setCtv_payLen (s : State) : (s.setCtv).payLen = s.payLen := rfl
@[simp] theorem State.setCtv_dLen (s : State) : (s.setCtv).dLen = s.dLen := rfl
@[simp] theorem State.setCtv_freq (s : State) : (s.setCtv).freq = s.freq := rfl
@[simp] theorem State.setCtv_clen (s : State) : (s.setCtv).clen = s.clen := rfl
@[simp] theorem State.setCtv_cbits (s : State) : (s.setCtv).cbits = s.cbits := rfl
@[simp] theorem State.setCtv_node (s : State) : (s.setCtv).node = s.node := rfl
@[simp] theorem State.setCtv_inBuf (s : State) : (s.setCtv).inBuf = s.inBuf := rfl
@[simp] theorem State.setCtv_out (s : State) : (s.setCtv).out = s.out := rfl
@[simp] theorem State.setCtv_pay (s : State) : (s.setCtv).pay = s.pay := rfl
@[simp] theorem State.setCtv_bits (s : State) : (s.setCtv).bits = s.bits := rfl
@[simp] theorem State.setCtv_dbuf (s : State) : (s.setCtv).dbuf = s.dbuf := rfl
@[simp] theorem State.setCtv_config (s : State) : (s.setCtv).config = s.config := rfl
@[simp] theorem State.setCtv_host (s : State) : (s.setCtv).host = s.host := rfl
@[simp] theorem State.setCtv_epoch (s : State) : (s.setCtv).epoch = s.epoch := rfl
@[simp] theorem State.setCtv_draws (s : State) : (s.setCtv).draws = s.draws := rfl
@[simp] theorem State.setCtv_lastRead (s : State) : (s.setCtv).lastRead = s.lastRead := rfl

/-! ## `setBsv` -/

@[simp] theorem State.setBsv_phase (s : State) : (s.setBsv).phase = s.phase := rfl
@[simp] theorem State.setBsv_ctv (s : State) : (s.setBsv).ctv = s.ctv := rfl
@[simp] theorem State.setBsv_bsv (s : State) : (s.setBsv).bsv = true := rfl
@[simp] theorem State.setBsv_es (s : State) : (s.setBsv).es = s.es := rfl
@[simp] theorem State.setBsv_result (s : State) : (s.setBsv).result = s.result := rfl
@[simp] theorem State.setBsv_cause (s : State) : (s.setBsv).cause = s.cause := rfl
@[simp] theorem State.setBsv_inLen (s : State) : (s.setBsv).inLen = s.inLen := rfl
@[simp] theorem State.setBsv_outLen (s : State) : (s.setBsv).outLen = s.outLen := rfl
@[simp] theorem State.setBsv_symcnt (s : State) : (s.setBsv).symcnt = s.symcnt := rfl
@[simp] theorem State.setBsv_root (s : State) : (s.setBsv).root = s.root := rfl
@[simp] theorem State.setBsv_nnodes (s : State) : (s.setBsv).nnodes = s.nnodes := rfl
@[simp] theorem State.setBsv_bitLen (s : State) : (s.setBsv).bitLen = s.bitLen := rfl
@[simp] theorem State.setBsv_padLen (s : State) : (s.setBsv).padLen = s.padLen := rfl
@[simp] theorem State.setBsv_payLen (s : State) : (s.setBsv).payLen = s.payLen := rfl
@[simp] theorem State.setBsv_dLen (s : State) : (s.setBsv).dLen = s.dLen := rfl
@[simp] theorem State.setBsv_freq (s : State) : (s.setBsv).freq = s.freq := rfl
@[simp] theorem State.setBsv_clen (s : State) : (s.setBsv).clen = s.clen := rfl
@[simp] theorem State.setBsv_cbits (s : State) : (s.setBsv).cbits = s.cbits := rfl
@[simp] theorem State.setBsv_node (s : State) : (s.setBsv).node = s.node := rfl
@[simp] theorem State.setBsv_inBuf (s : State) : (s.setBsv).inBuf = s.inBuf := rfl
@[simp] theorem State.setBsv_out (s : State) : (s.setBsv).out = s.out := rfl
@[simp] theorem State.setBsv_pay (s : State) : (s.setBsv).pay = s.pay := rfl
@[simp] theorem State.setBsv_bits (s : State) : (s.setBsv).bits = s.bits := rfl
@[simp] theorem State.setBsv_dbuf (s : State) : (s.setBsv).dbuf = s.dbuf := rfl
@[simp] theorem State.setBsv_config (s : State) : (s.setBsv).config = s.config := rfl
@[simp] theorem State.setBsv_host (s : State) : (s.setBsv).host = s.host := rfl
@[simp] theorem State.setBsv_epoch (s : State) : (s.setBsv).epoch = s.epoch := rfl
@[simp] theorem State.setBsv_draws (s : State) : (s.setBsv).draws = s.draws := rfl
@[simp] theorem State.setBsv_lastRead (s : State) : (s.setBsv).lastRead = s.lastRead := rfl

/-! ## `cleared` -/

@[simp] theorem State.cleared_phase (s : State) : (s.cleared).phase = .idle := rfl
@[simp] theorem State.cleared_ctv (s : State) : (s.cleared).ctv = false := rfl
@[simp] theorem State.cleared_bsv (s : State) : (s.cleared).bsv = false := rfl
@[simp] theorem State.cleared_es (s : State) : (s.cleared).es = false := rfl
@[simp] theorem State.cleared_result (s : State) : (s.cleared).result = .ok := rfl
@[simp] theorem State.cleared_cause (s : State) : (s.cleared).cause = .none := rfl
@[simp] theorem State.cleared_inLen (s : State) : (s.cleared).inLen = 0#40 := rfl
@[simp] theorem State.cleared_outLen (s : State) : (s.cleared).outLen = 0#40 := rfl
@[simp] theorem State.cleared_symcnt (s : State) : (s.cleared).symcnt = 0#9 := rfl
@[simp] theorem State.cleared_root (s : State) : (s.cleared).root = nilIx := rfl
@[simp] theorem State.cleared_nnodes (s : State) : (s.cleared).nnodes = 0#10 := rfl
@[simp] theorem State.cleared_bitLen (s : State) : (s.cleared).bitLen = 0#40 := rfl
@[simp] theorem State.cleared_padLen (s : State) : (s.cleared).padLen = 0#4 := rfl
@[simp] theorem State.cleared_payLen (s : State) : (s.cleared).payLen = 0#40 := rfl
@[simp] theorem State.cleared_dLen (s : State) : (s.cleared).dLen = 0#40 := rfl
@[simp] theorem State.cleared_freq (s : State) : (s.cleared).freq = Vector.replicate 256 0#32 := rfl
@[simp] theorem State.cleared_clen (s : State) : (s.cleared).clen = Vector.replicate 256 0#8 := rfl
@[simp] theorem State.cleared_cbits (s : State) : (s.cleared).cbits = Vector.replicate 256 0#255 := rfl
@[simp] theorem State.cleared_node (s : State) : (s.cleared).node = Vector.replicate 511 Node.zero := rfl
@[simp] theorem State.cleared_inBuf (s : State) : (s.cleared).inBuf = [] := rfl
@[simp] theorem State.cleared_out (s : State) : (s.cleared).out = [] := rfl
@[simp] theorem State.cleared_pay (s : State) : (s.cleared).pay = [] := rfl
@[simp] theorem State.cleared_bits (s : State) : (s.cleared).bits = [] := rfl
@[simp] theorem State.cleared_dbuf (s : State) : (s.cleared).dbuf = [] := rfl
@[simp] theorem State.cleared_config (s : State) : (s.cleared).config = s.config := rfl
@[simp] theorem State.cleared_host (s : State) : (s.cleared).host = s.host := rfl
@[simp] theorem State.cleared_epoch (s : State) : (s.cleared).epoch = s.epoch + 1 := rfl
@[simp] theorem State.cleared_draws (s : State) : (s.cleared).draws = s.draws := rfl
@[simp] theorem State.cleared_lastRead (s : State) : (s.cleared).lastRead = s.lastRead := rfl

end Sys2Proof.Machine
end

