-- ==== Sys2Proof/Laws/Ops.lean ====
section
/-! SUPPORT. What the shared operations can do: reading a cell, ending a command, running the stages
of a macro command. -/

namespace Sys2Proof.Machine

/-! ## Reading a cell -/

theorem State.byteAt_of_written {s : State} {sp : Space} {a : Nat} {v : Byte}
    (h : (s.space sp).read? a = some v) : s.byteAt sp a = v := by
  simp [State.byteAt, h]

theorem State.bitAt_of_written {s : State} {a : Nat} {v : Bit} (h : s.bits.read? a = some v) :
    s.bitAt a = v := by
  simp [State.bitAt, h]

/-- A byte cell reads the same in two states that hold the same space in the same epoch. -/
theorem State.byteAt_congr {s t : State} {sp : Space} (h : t.space sp = s.space sp)
    (he : t.epoch = s.epoch) (a : Nat) : t.byteAt sp a = s.byteAt sp a := by
  simp [State.byteAt, h, he]

theorem State.bitAt_congr {s t : State} (h : t.bits = s.bits) (he : t.epoch = s.epoch) (a : Nat) :
    t.bitAt a = s.bitAt a := by
  simp [State.bitAt, h, he]

/-! ## The end of a command -/

/-- All a command can do: complete, fail, be stuck, or be rejected. -/
theorem command_cases (acc : Bool) (body : State → Except Stop State) (s : State) :
    (acc = false ∧ command acc body s = .next (s.reject .sequenceError)) ∨
    (acc = true ∧ ∃ t, body s = .ok t ∧ command acc body s = .next t.succeed) ∨
    (acc = true ∧ ∃ r c, body s = .error (.raise r c) ∧ command acc body s = .next (s.failWith r c)) ∨
    (acc = true ∧ ∃ f, body s = .error (.stuck f) ∧ command acc body s = .fault f) := by
  cases acc with
  | false => exact .inl ⟨rfl, rfl⟩
  | true =>
    match h : body s with
    | .ok t => exact .inr (.inl ⟨rfl, t, rfl, by simp [command, conclude, h]⟩)
    | .error (.raise r c) => exact .inr (.inr (.inl ⟨rfl, r, c, rfl, by simp [command, conclude, h]⟩))
    | .error (.stuck f) => exact .inr (.inr (.inr ⟨rfl, f, rfl, by simp [command, conclude, h]⟩))

/-- A command that is accepted and whose body completes. -/
theorem command_of_ok {acc : Bool} {body : State → Except Stop State} {s t : State}
    (ha : acc = true) (h : body s = .ok t) : command acc body s = .next t.succeed := by
  simp [command, conclude, ha, h]

/-- A command that is accepted and whose body raises. -/
theorem command_of_raise {acc : Bool} {body : State → Except Stop State} {s : State} {r : Result}
    {c : Cause} (ha : acc = true) (h : body s = .error (.raise r c)) :
    command acc body s = .next (s.failWith r c) := by
  simp [command, conclude, ha, h]

/-- A command that is not accepted. -/
theorem command_of_not_accepted {acc : Bool} {body : State → Except Stop State} {s : State}
    (ha : acc = false) : command acc body s = .next (s.reject .sequenceError) := by
  simp [command, ha]

/-- What the next state of a command is. -/
theorem command_next {acc : Bool} {body : State → Except Stop State} {s t : State}
    (h : command acc body s = .next t) :
    (acc = false ∧ t = s.reject .sequenceError) ∨
    (acc = true ∧ ∃ u, body s = .ok u ∧ t = u.succeed) ∨
    (acc = true ∧ ∃ r c, body s = .error (.raise r c) ∧ t = s.failWith r c) := by
  rcases command_cases acc body s with ⟨ha, h'⟩ | ⟨ha, u, hb, h'⟩ | ⟨ha, r, c, hb, h'⟩ | ⟨_, f, _, h'⟩ <;>
    rw [h] at h'
  · exact .inl ⟨ha, by injection h'⟩
  · exact .inr (.inl ⟨ha, u, hb, by injection h'⟩)
  · exact .inr (.inr ⟨ha, r, c, hb, by injection h'⟩)
  · cases h'

/-! ## Macro commands -/

@[simp] theorem andThen_fault (f : Fault) (g : State → StepResult) : andThen (.fault f) g = .fault f := rfl

theorem andThen_ok {t : State} (h : t.result = .ok) (g : State → StepResult) :
    andThen (.next t) g = g t := by
  simp [andThen, h]

theorem andThen_not_ok {t : State} (h : t.result ≠ .ok) (g : State → StepResult) :
    andThen (.next t) g = .next t := by
  simp [andThen, h]

/-- What a next state of a sequence of two can be: the first one's with a result that is not `OK`, or
the second one's. -/
theorem andThen_next {o : StepResult} {g : State → StepResult} {t : State}
    (h : andThen o g = .next t) :
    (o = .next t ∧ t.result ≠ .ok) ∨ ∃ u, o = .next u ∧ u.result = .ok ∧ g u = .next t := by
  match o with
  | .next u =>
    by_cases hr : u.result = .ok
    · exact .inr ⟨u, rfl, hr, by rwa [andThen_ok hr] at h⟩
    · rw [andThen_not_ok hr] at h
      injection h with h
      exact .inl ⟨by rw [h], h ▸ hr⟩
  | .fault f => cases h
  | .refused r => cases h

@[simp] theorem stages_nil (s : State) : stages [] s = .next s := rfl

@[simp] theorem stages_cons (c : State → StepResult) (cs : List (State → StepResult)) (s : State) :
    stages (c :: cs) s = andThen (c s) (stages cs) := rfl

/-- A property that every stage keeps is kept by the macro. -/
theorem stages_induction {P : State → Prop} {cs : List (State → StepResult)}
    (hc : ∀ c ∈ cs, ∀ s t, P s → c s = .next t → P t) {s t : State} (hs : P s)
    (h : stages cs s = .next t) : P t := by
  induction cs generalizing s with
  | nil => injection h with h; exact h ▸ hs
  | cons c cs ih =>
    rcases andThen_next h with ⟨h, _⟩ | ⟨u, h, _, h'⟩
    · exact hc c (by simp) s t hs h
    · exact ih (fun d hd => hc d (by simp [hd])) (hc c (by simp) s u hs h) h'

/-- A store that fits its space is the plain store. -/
theorem storeWithin_of_le {α : Type} {cap : Nat} {vs : List α} (h : vs.length ≤ cap) (m : Memory α) :
    storeWithin cap vs m = .ok (m.store 0 vs) := by
  simp [storeWithin, h]

theorem storeWithin_ok {α : Type} {cap : Nat} {vs : List α} {m m' : Memory α}
    (h : storeWithin cap vs m = .ok m') : vs.length ≤ cap ∧ m' = m.store 0 vs := by
  unfold storeWithin at h
  split at h
  · injection h with h
    exact ⟨‹_›, h.symm⟩
  · cases h

end Sys2Proof.Machine
end

