-- ==== Sys2Proof/Laws/Operands.lean ====
section
/-! SUPPORT. Laws of the operands: register files, the keys, the code table, the valid cells. -/

namespace Sys2Proof.Machine

variable {α : Type}

/-! ## Register files -/

@[simp] theorem symbols_length : symbols.length = 256 := by simp [symbols]

@[simp] theorem symbols_getElem (k : Nat) (h : k < symbols.length) :
    symbols[k] = BitVec.ofNat 8 k := by
  simp [symbols]

theorem mem_symbols (sy : Byte) : sy ∈ symbols :=
  List.mem_map.2 ⟨sy.toNat, List.mem_range.2 sy.isLt, by simp⟩

@[simp] theorem entry_tabulate (f : Byte → α) (sy : Byte) : entry (tabulate f) sy = f sy := by
  unfold entry tabulate
  rw [Vector.getElem_mk, List.getElem_toArray, List.getElem_map, symbols_getElem,
    BitVec.ofNat_toNat, BitVec.setWidth_eq]

theorem entry_setEntry (t : Vector α 256) (sy sy' : Byte) (v : α) :
    entry (setEntry t sy v) sy' = if sy' = sy then v else entry t sy' := by
  unfold entry setEntry
  rw [Vector.getElem_set]
  by_cases h : sy' = sy
  · simp [h]
  · have : sy.toNat ≠ sy'.toNat := fun e => h (BitVec.eq_of_toNat_eq e.symm)
    simp [h, this]

@[simp] theorem entry_setEntry_self (t : Vector α 256) (sy : Byte) (v : α) :
    entry (setEntry t sy v) sy = v := by simp [entry_setEntry]

@[simp] theorem entry_replicate (v : α) (sy : Byte) : entry (Vector.replicate 256 v) sy = v := by
  simp [entry]

/-- Two register files with equal entries are equal. -/
theorem table_ext {t u : Vector α 256} (h : ∀ sy, entry t sy = entry u sy) : t = u := by
  refine Vector.ext fun i hi => ?_
  have := h (BitVec.ofNat 8 i)
  have hn : (BitVec.ofNat 8 i).toNat = i := by
    rw [BitVec.toNat_ofNat]
    exact Nat.mod_eq_of_lt hi
  simpa only [entry, hn] using this

/-- A property of every entry of a table, checked along the table's list. -/
theorem forall_entry_iff (t : Vector α 256) (P : Byte → α → Prop) :
    (∀ sy, P sy (entry t sy)) ↔ ∀ e ∈ symbols.zip t.toList, P e.1 e.2 := by
  constructor
  · intro h e he
    obtain ⟨i, hi, rfl⟩ := List.mem_iff_getElem.1 he
    have hl : i < 256 := by simpa using hi
    have hn : (BitVec.ofNat 8 i).toNat = i := by
      rw [BitVec.toNat_ofNat]
      exact Nat.mod_eq_of_lt hl
    have := h (BitVec.ofNat 8 i)
    simp only [entry, hn] at this
    simpa using this
  · intro h sy
    have hl : sy.toNat < (symbols.zip t.toList).length := by simpa using sy.isLt
    have := h _ (List.getElem_mem hl)
    simpa [entry] using this

/-- The same with a check that computes. -/
theorem forall_entry_of_all {t : Vector α 256} {P : Byte → α → Prop} [∀ sy v, Decidable (P sy v)]
    (h : ((symbols.zip t.toList).all fun e => decide (P e.1 e.2)) = true) : ∀ sy, P sy (entry t sy) :=
  (forall_entry_iff t P).2 fun e he => of_decide_eq_true (List.all_eq_true.1 h e he)

/-! ## The keys of a frequency table -/

/-- The list the keys are read from pairs each symbol with its entry. -/
theorem zip_eq_map (t : Vector α 256) : symbols.zip t.toList = symbols.map fun sy => (sy, entry t sy) := by
  refine List.ext_getElem (by simp) fun i hi _ => ?_
  have hl : i < 256 := by simpa using hi
  have hn : (BitVec.ofNat 8 i).toNat = i := by
    rw [BitVec.toNat_ofNat]
    exact Nat.mod_eq_of_lt hl
  simp [entry, Nat.mod_eq_of_lt hl]

/-- The keys are the symbols with a non-zero entry, in the order of the symbols. -/
theorem keys_eq_filter (f : Vector Count 256) :
    keys f = symbols.filter fun sy => (entry f sy).toNat ≠ 0 := by
  rw [keys, zip_eq_map, List.filterMap_map, ← List.filterMap_eq_filter]
  refine List.filterMap_congr fun sy _ => ?_
  by_cases h : (entry f sy).toNat = 0 <;> simp [h, Option.guard]

theorem mem_keys {f : Vector Count 256} {sy : Byte} : sy ∈ keys f ↔ 0 < (entry f sy).toNat := by
  rw [keys_eq_filter]
  simp [mem_symbols, Nat.pos_iff_ne_zero]

theorem symbols_pairwise : symbols.Pairwise fun a b => a.toNat < b.toNat := by
  rw [symbols, List.pairwise_map, List.pairwise_iff_getElem]
  intro i j hi hj hij
  have hi' : i < 256 := by simpa using hi
  have hj' : j < 256 := by simpa using hj
  simp only [List.getElem_range, BitVec.toNat_ofNat]
  omega

/-- The keys ascend (rule R21). -/
theorem keys_pairwise (f : Vector Count 256) : (keys f).Pairwise fun a b => a.toNat < b.toNat := by
  rw [keys_eq_filter]
  exact symbols_pairwise.filter _

theorem keys_nodup (f : Vector Count 256) : (keys f).Nodup :=
  (keys_pairwise f).imp fun h e => by simp [e] at h

theorem keys_length_le (f : Vector Count 256) : (keys f).length ≤ 256 := by
  rw [keys_eq_filter, ← symbols_length]
  exact List.length_filter_le ..

@[simp] theorem keys_zero : keys (Vector.replicate 256 0#32) = [] := by
  refine List.eq_nil_iff_forall_not_mem.2 fun sy h => ?_
  simp [mem_keys] at h

theorem freqSum_eq_sum (f : Vector Count 256) :
    freqSum f = (symbols.map fun sy => (entry f sy).toNat).sum := by
  have : f.toList = (symbols.zip f.toList).map Prod.snd := by
    rw [List.map_snd_zip]
    simp
  rw [freqSum, this, zip_eq_map]
  simp [Function.comp_def]

/-! ## The code table -/

theorem pathValue_lt (p : List Bit) : pathValue p < 2 ^ p.length := by
  induction p with
  | nil => simp [pathValue]
  | cons b p ih =>
    have : b.toNat ≤ 1 := by cases b <;> simp
    rw [pathValue, List.length_cons, Nat.pow_succ]
    omega

theorem pathValue_testBit (p : List Bit) (i : Nat) : (pathValue p).testBit i = p.getD i false := by
  induction p generalizing i with
  | nil => simp [pathValue]
  | cons b p ih =>
    have hb : b.toNat + 2 * pathValue p = 2 * pathValue p + b.toNat := Nat.add_comm ..
    cases i with
    | zero => cases b <;> simp [pathValue, Nat.testBit_zero]
    | succ i =>
      rw [pathValue, Nat.testBit_succ, List.getD_cons_succ, ← ih]
      congr 1
      have : b.toNat ≤ 1 := by cases b <;> simp
      omega

/-- `CODE[s] <- p` for a path of at most 255 bits, then reading `CODE` (rule R45). -/
theorem code_set {p : List Bit} (hp : p.length ≤ 255) (t : CodeTable) (sy : Byte) (s : State)
    (hl : s.clen = (t.set sy p).clen) (hb : s.cbits = (t.set sy p).cbits) : s.code sy = p := by
  have h8 : (BitVec.ofNat 8 p.length).toNat = p.length := by
    rw [BitVec.toNat_ofNat]
    exact Nat.mod_eq_of_lt (by omega)
  refine List.ext_getElem (by simp [State.code, hl, CodeTable.set, h8]) fun i hi hi' => ?_
  have h255 : i < 255 := by omega
  simp only [State.code, hl, hb, CodeTable.set, entry_setEntry_self, List.getElem_map,
    List.getElem_range, BitVec.getLsbD_ofNat, h255, decide_true, Bool.true_and, pathValue_testBit]
  simp [hi']

theorem code_length (s : State) (sy : Byte) : (s.code sy).length = (entry s.clen sy).toNat := by
  simp [State.code]

/-! ## Records -/

theorem recordAt_ok {arena : Vector Node 511} {i : NodeIx} {nd : Node} :
    recordAt arena i = .ok nd ↔ arena[i.toNat]? = some nd := by
  unfold recordAt
  split <;> simp_all

/-- Every index but `NIL` has a record (rule R46). -/
theorem recordAt_of_ne_nil (arena : Vector Node 511) {i : NodeIx} (h : i ≠ nilIx) :
    ∃ nd, recordAt arena i = .ok nd := by
  have hi : i.toNat < 511 := by
    have h1 : i.toNat ≠ (511#9).toNat := fun e => h (BitVec.eq_of_toNat_eq e)
    have h2 := i.isLt
    have h3 : (511#9).toNat = 511 := rfl
    omega
  exact ⟨arena[i.toNat], by simp [recordAt, hi]⟩

/-! ## The valid cells -/

@[simp] theorem State.bytes_length (s : State) (sp : Space) (n : Nat) : (s.bytes sp n).length = n := by
  simp [State.bytes]

@[simp] theorem State.bytes_getElem (s : State) (sp : Space) (n k : Nat) (h : k < (s.bytes sp n).length) :
    (s.bytes sp n)[k] = s.byteAt sp k := by
  simp [State.bytes]

@[simp] theorem State.input_length (s : State) : s.input.length = s.inLen.toNat := by
  simp [State.input]

@[simp] theorem State.output_length (s : State) : s.output.length = s.outLen.toNat := by
  simp [State.output]

@[simp] theorem State.payload_length (s : State) : s.payload.length = s.payLen.toNat := by
  simp [State.payload]

@[simp] theorem State.decodedBytes_length (s : State) : s.decodedBytes.length = s.dLen.toNat := by
  simp [State.decodedBytes]

@[simp] theorem State.bitSeq_length (s : State) : s.bitSeq.length = s.bitLen.toNat := by
  simp [State.bitSeq]

@[simp] theorem State.bitSeq_getElem (s : State) (k : Nat) (h : k < s.bitSeq.length) :
    s.bitSeq[k] = s.bitAt k := by
  simp [State.bitSeq]

/-- The first cells of a space, once a sequence has been stored there, are that sequence. -/
theorem State.bytes_of_store {s : State} {sp : Space} {m : Memory Byte} {vs : List Byte}
    (h : s.space sp = m.store 0 vs) : s.bytes sp vs.length = vs := by
  refine List.ext_getElem (by simp) fun k hk hk' => ?_
  rw [State.bytes_getElem]
  refine State.byteAt_of_written ?_
  rw [h, Memory.read?_store_zero, if_pos hk', List.getElem?_eq_getElem hk']

theorem State.bitSeq_of_store {s : State} {m : Memory Bit} {vs : List Bit}
    (h : s.bits = m.store 0 vs) (hl : s.bitLen.toNat = vs.length) : s.bitSeq = vs := by
  refine List.ext_getElem (by simp [hl]) fun k hk hk' => ?_
  rw [State.bitSeq_getElem]
  refine State.bitAt_of_written ?_
  rw [h, Memory.read?_store_zero, if_pos hk', List.getElem?_eq_getElem hk']

/-- `MemRead` is the little-endian number of the cells it names. -/
theorem State.memRead_eq (s : State) (sp : Space) (a n : Nat) :
    s.memRead sp a n = leValue ((List.range n).map fun k => s.byteAt sp (a + k)) := rfl

end Sys2Proof.Machine
end

