-- ==== Sys2Proof/Laws/BitPacker.lean ====
section
/-! SUPPORT. What encoding, packing and unpacking compute. -/

namespace Sys2Proof.Machine

/-! ## ENC -/

/-- Every byte has a code and all of them fit: the loop yields their concatenation (rule R146). -/
theorem encodeBits_ok {code : Byte → List Bit} {cap : Nat} {l : List Byte} {len : Nat}
    (hc : ∀ b ∈ l, code b ≠ []) (hl : len + (l.flatMap code).length ≤ cap) :
    encodeBits code cap l len = .ok (l.flatMap code) := by
  induction l generalizing len with
  | nil => rfl
  | cons b l ih =>
    have h0 : (code b).length ≠ 0 := by simpa using hc b (by simp)
    rw [List.flatMap_cons, List.length_append] at hl
    have h1 : ¬ cap < len + (code b).length := by omega
    have h2 := ih (len := len + (code b).length) (fun x hx => hc x (by simp [hx])) (by omega)
    rw [encodeBits]
    simp only [h0, if_false, h1, h2, List.flatMap_cons]

/-- After a prefix whose codes fit, the loop goes on with the rest. -/
theorem encodeBits_append {code : Byte → List Bit} {cap : Nat} {done rest : List Byte} {len : Nat}
    (hc : ∀ b ∈ done, code b ≠ []) (hl : len + (done.flatMap code).length ≤ cap) {e : Stop}
    (he : encodeBits code cap rest (len + (done.flatMap code).length) = .error e) :
    encodeBits code cap (done ++ rest) len = .error e := by
  induction done generalizing len with
  | nil => simpa using he
  | cons b l ih =>
    have h0 : (code b).length ≠ 0 := by simpa using hc b (by simp)
    rw [List.flatMap_cons, List.length_append] at hl he
    have h1 : ¬ cap < len + (code b).length := by omega
    rw [List.cons_append, encodeBits]
    simp only [h0, if_false, h1]
    rw [ih (fun x hx => hc x (by simp [hx])) (by omega) (by rwa [Nat.add_assoc])]

/-- What a completed loop has done: every byte had a code, and all of them fitted. -/
theorem encodeBits_inv {code : Byte → List Bit} {cap : Nat} {l : List Byte} {len : Nat}
    {bs : List Bit} (hlen : len ≤ cap) (h : encodeBits code cap l len = .ok bs) :
    bs = l.flatMap code ∧ (∀ b ∈ l, code b ≠ []) ∧ len + bs.length ≤ cap := by
  induction l generalizing len bs with
  | nil =>
    injection h with h
    subst h
    simpa using hlen
  | cons b l ih =>
    rw [encodeBits] at h
    by_cases h0 : (code b).length = 0
    · simp only [h0, if_true] at h
      cases h
    · by_cases h1 : cap < len + (code b).length
      · simp only [h0, if_false, h1, if_true] at h
        cases h
      · simp only [h0, if_false, h1] at h
        match hm : encodeBits code cap l (len + (code b).length) with
        | .error e => rw [hm] at h; cases h
        | .ok more =>
          rw [hm] at h
          injection h with h
          obtain ⟨h2, h3, h4⟩ := ih (by omega) hm
          refine ⟨by rw [← h, h2, List.flatMap_cons], ?_, by rw [← h, List.length_append]; omega⟩
          intro x hx
          rcases List.mem_cons.1 hx with rfl | hx
          · exact fun e => h0 (by simp [e])
          · exact h3 x hx

/-! ## PCK -/

/-- The padding length is in `1..8` (rule R152). -/
theorem padding_range (len : Nat) : 1 ≤ padding len ∧ padding len ≤ 8 := by
  unfold padding
  omega

theorem add_padding_div (len : Nat) : (len + padding len) / 8 = len / 8 + 1 := by
  unfold padding
  omega

/-- A payload has one byte more than the whole bytes of the bit sequence (rule R93). -/
@[simp] theorem packBits_length (bs : List Bit) : (packBits bs).length = bs.length / 8 + 1 := by
  simp [packBits, add_padding_div]

/-- A padded bit sequence reads 0 past the end of the bit sequence. -/
theorem getD_append_replicate (bs : List Bit) (p i : Nat) :
    (bs ++ List.replicate p false).getD i false = bs.getD i false := by
  by_cases h : i < bs.length
  · simp [List.getD_eq_getElem?_getD, List.getElem?_append_left h]
  · have h' : bs.length ≤ i := by omega
    rw [List.getD_eq_getElem?_getD, List.getD_eq_getElem?_getD, List.getElem?_append_right h',
      List.getElem?_eq_none h', List.getElem?_replicate]
    split <;> rfl

/-- The eight bits of a byte put together most significant first, one by one. -/
theorem eight_bits : ∀ b0 b1 b2 b3 b4 b5 b6 b7 : Bool, ∀ j : Fin 8,
    (BitVec.ofNat 8 ([b0.toNat * 2 ^ 7, b1.toNat * 2 ^ 6, b2.toNat * 2 ^ 5, b3.toNat * 2 ^ 4,
      b4.toNat * 2 ^ 3, b5.toNat * 2 ^ 2, b6.toNat * 2 ^ 1, b7.toNat * 2 ^ 0].sum)).getLsbD (7 - j) =
    [b0, b1, b2, b3, b4, b5, b6, b7].getD j false := by
  decide +kernel

/-- The number whose bits, most significant first, are the eight given ones. -/
theorem getLsbD_ofNat_eight (b : Nat → Bool) (j : Nat) (hj : j < 8) :
    (BitVec.ofNat 8 ((List.range 8).map fun j => (b j).toNat * 2 ^ (7 - j)).sum).getLsbD (7 - j) =
      b j := by
  refine (eight_bits (b 0) (b 1) (b 2) (b 3) (b 4) (b 5) (b 6) (b 7) ⟨j, hj⟩).trans ?_
  interval_cases j <;> rfl

/-- Bit `8k + j` of the padded sequence is bit `7 - j` of byte `k` (rule R61). -/
theorem packByte_bit (padded : List Bit) (k j : Nat) (hj : j < 8) :
    (packByte padded k).getLsbD (7 - j) = padded.getD (8 * k + j) false :=
  getLsbD_ofNat_eight (fun j => padded.getD (8 * k + j) false) j hj

theorem packBits_bit (bs : List Bit) (k j : Nat) (hk : k < bs.length / 8 + 1) (hj : j < 8) :
    ((packBits bs).getD k 0#8).getLsbD (7 - j) = bs.getD (8 * k + j) false := by
  have h : k < (packBits bs).length := by simpa using hk
  rw [List.getD_eq_getElem?_getD, List.getElem?_eq_getElem h, Option.getD_some]
  simp only [packBits, List.getElem_map, List.getElem_range]
  rw [packByte_bit _ _ _ hj, getD_append_replicate]

/-! ## UPK -/

@[simp] theorem unpackBits_length (bytes : List Byte) (len : Nat) :
    (unpackBits bytes len).length = len := by
  simp [unpackBits]

/-- Unpacking what packing made gives the bit sequence back (rule R160). -/
theorem unpackBits_packBits (bs : List Bit) : unpackBits (packBits bs) bs.length = bs := by
  refine List.ext_getElem (by simp) fun i hi hi' => ?_
  have h : 8 * (i / 8) + i % 8 = i := Nat.div_add_mod i 8
  have := packBits_bit bs (i / 8) (i % 8) (by omega) (by omega)
  rw [h] at this
  simp only [unpackBits, List.getElem_map, List.getElem_range]
  rw [this, List.getD_eq_getElem?_getD, List.getElem?_eq_getElem hi', Option.getD_some]

theorem packBits_payload_bits (bs : List Bit) :
    8 * (packBits bs).length - padding bs.length = bs.length := by
  rw [packBits_length]
  unfold padding
  omega

end Sys2Proof.Machine
end

