-- ==== Sys2Proof/Laws/Safety.lean ====
section
/-! SUPPORT. The words of the statements in Sys2Proof/Safety.lean, tied to the definitions of the
machine, and one lemma that builds the tree invariant of two keys or more from facts about the
records alone. -/

namespace Sys2Proof.Machine

/-- The sequencer's check is the acceptance table of rule R181. -/
theorem accepts_iff (i : Instr) (s : State) : accepts i s = true ↔ Accepted i s := by
  cases i <;> simp [accepts, Accepted, and_assoc]

@[simp] theorem failed_eq_failWith (s : State) (r : Result) (c : Cause) :
    failed s r c = s.failWith r c := rfl

@[simp] theorem follow_nil (arena : Vector Node 511) (i : NodeIx) : follow arena i [] = some i := rfl

/-- One step down the tree. -/
theorem follow_cons {arena : Vector Node 511} {i : NodeIx} {nd : Node} (h : arena[i.toNat]? = some nd)
    (hk : nd.kind = .internal) (b : Bit) (hc : nd.child b ≠ nilIx) (p : List Bit) :
    follow arena i (b :: p) = follow arena (nd.child b) p := by
  simp [follow, h, hk, hc]

/-- Following a path is following its first part and then the rest. -/
theorem follow_append (arena : Vector Node 511) (i : NodeIx) (p q : List Bit) :
    follow arena i (p ++ q) = (follow arena i p).bind fun j => follow arena j q := by
  induction p generalizing i with
  | nil => rfl
  | cons b p ih =>
    simp only [List.cons_append, follow]
    cases arena[i.toNat]? with
    | none => rfl
    | some nd =>
      dsimp only
      split
      · split
        · rfl
        · exact ih _
      · rfl

/-- A Leaf has no path below it: two codes of one tree, one a prefix of the other, are equal. -/
theorem follow_leaf {arena : Vector Node 511} {i j : NodeIx} {nd : Node} {p : List Bit}
    (h : arena[i.toNat]? = some nd) (hk : nd.kind = .leaf) (hp : follow arena i p = some j) :
    p = [] := by
  cases p with
  | nil => rfl
  | cons b p => simp [follow, h, hk] at hp

/-- The tree invariant of two keys or more, from the keys and the records. -/
theorem treeInvariant_of_many {s : State} {ks : List Byte} (hk : keys s.freq = ks)
    (hn : s.symcnt.toNat = ks.length) (h2 : 2 ≤ ks.length)
    (hs : s.nnodes.toNat = 2 * ks.length - 1) (hr : s.root.toNat = 2 * ks.length - 2)
    (leaves : ∀ k, (h : k < ks.length) → ∃ nd ∈ s.node[k]?, nd.IsLeaf ks[k] (entry s.freq ks[k]).toNat)
    (inner : ∀ i < 2 * ks.length - 1, ks.length ≤ i → ∃ nd ∈ s.node[i]?,
      nd.left.toNat < i ∧ nd.right.toNat < i ∧ nd.left ≠ nd.right ∧
      nd.IsInternal nd.left.toNat nd.right.toNat
        (weightAt s.node nd.left.toNat + weightAt s.node nd.right.toNat))
    (owned : ∀ c < 2 * ks.length - 2, ∃ i < 2 * ks.length - 1, IsChild s.node i c ∧
      ∀ j < 2 * ks.length - 1, IsChild s.node j c → j = i)
    (rest : ∀ nd ∈ s.node.toList.drop s.nnodes.toNat, nd = Node.zero) : s.TreeInvariant where
  count := by rw [hk, hn]; exact ⟨rfl, by omega⟩
  leaves := by unfold LeavesFirst; rw [hk]; exact leaves
  single := by intro h; omega
  size := by intro _; rw [hn]; exact ⟨hs, hr⟩
  inner := by intro _; rw [hn]; exact inner
  owned := by
    intro _ c hc
    rw [hn] at hc ⊢
    obtain ⟨i, hi, hc, hu⟩ := owned c hc
    exact ⟨i, ⟨hi, hc⟩, fun j hj => hu j hj.1 hj.2⟩
  rest := rest

end Sys2Proof.Machine
end

