-- ==== Sys2Proof/Laws/Builder.lean ====
section
/-! SUPPORT. What the parts of the tree builder compute: the Leaves, the choice of the lowest node,
which records a round of the merge loop writes. -/

namespace Sys2Proof.Machine

/-! ## The Leaves -/

/-- Writing the Leaves of `ks` from record `k` on. -/
theorem writeLeaves_getElem? (f : Vector Count 256) (ks : List Byte) (k : Nat)
    (arena : Vector Node 511) (hk : k + ks.length ≤ 511) (i : Nat) :
    (writeLeaves f ks k arena)[i]? =
      if k ≤ i then (if h : i - k < ks.length then some (leafNode f ks[i - k]) else arena[i]?)
      else arena[i]? := by
  induction ks generalizing k arena with
  | nil => simp [writeLeaves]
  | cons s ks ih =>
    rw [List.length_cons] at hk
    rw [writeLeaves, ih (k + 1) _ (by omega), Vector.getElem?_setIfInBounds]
    by_cases h : i = k
    · subst h
      have h1 : ¬ i + 1 ≤ i := by omega
      have h2 : i < 511 := by omega
      simp [h1, h2]
    · by_cases h1 : k ≤ i
      · obtain ⟨j, rfl⟩ : ∃ j, i = k + 1 + j := ⟨i - (k + 1), by omega⟩
        have h2 : k + 1 + j - k = j + 1 := by omega
        have h3 : k + 1 + j - (k + 1) = j := by omega
        have h4 : ¬ k = k + 1 + j := by omega
        have h5 : k ≤ k + 1 + j := by omega
        have h6 : k + 1 ≤ k + 1 + j := by omega
        simp [h2, h4, h5]
      · have h2 : ¬ k + 1 ≤ i := by omega
        have h3 : ¬ k = i := fun e => h e.symm
        simp [h1, h2, h3]

/-- Record `i` of the arena of the Leaves: the Leaf of the `i`-th key, or zero (rules R122, R131). -/
theorem leafArena_getElem? (f : Vector Count 256) (i : Nat) (hi : i < 511) :
    (leafArena f)[i]? =
      some (if h : i < (keys f).length then leafNode f (keys f)[i] else Node.zero) := by
  have hk := keys_length_le f
  rw [leafArena, writeLeaves_getElem? f (keys f) 0 _ (by omega)]
  by_cases h : i < (keys f).length
  · simp [h]
  · simp [h, hi]

/-! ## The lowest node -/

/-- `before` is the strict order of (weight, index) (rule R14). -/
theorem before_iff (arena : Vector Node 511) (i j : Nat) :
    before arena i j = true ↔ weightAt arena i < weightAt arena j ∨
      (weightAt arena i = weightAt arena j ∧ i < j) := by
  simp [before]

/-- Two different nodes are ordered one way. -/
theorem before_total (arena : Vector Node 511) {i j : Nat} (h : i ≠ j) :
    before arena i j = true ∨ before arena j i = true := by
  rw [before_iff, before_iff]
  omega

theorem before_trans (arena : Vector Node 511) {i j k : Nat} (h : before arena i j = true)
    (h' : before arena j k = true) : before arena i k = true := by
  rw [before_iff] at *
  omega

/-- The lowest of a non-empty set is a member, and before every other member. -/
theorem lowest_spec (arena : Vector Node 511) (i : Nat) (A : List Nat) :
    lowest arena i A ∈ i :: A ∧
      ∀ c ∈ i :: A, c ≠ lowest arena i A → before arena (lowest arena i A) c = true := by
  induction A generalizing i with
  | nil => simp [lowest]
  | cons j A ih =>
    have hstep : lowest arena i (j :: A) = lowest arena (if before arena j i then j else i) A := rfl
    by_cases hb : before arena j i = true
    · rw [hstep, if_pos hb]
      obtain ⟨hm, hl⟩ := ih j
      refine ⟨List.mem_cons_of_mem _ hm, fun c hc hne => ?_⟩
      rcases List.mem_cons.1 hc with rfl | hc
      · by_cases hj : lowest arena j A = j
        · rwa [hj]
        · exact before_trans arena (hl j (by simp) fun e => hj e.symm) hb
      · exact hl c hc hne
    · rw [hstep, if_neg hb]
      obtain ⟨hm, hl⟩ := ih i
      refine ⟨?_, fun c hc hne => ?_⟩
      · rcases List.mem_cons.1 hm with hm | hm
        · rw [hm]; simp
        · simp [hm]
      · rcases List.mem_cons.1 hc with rfl | hc
        · exact hl c (by simp) hne
        · rcases List.mem_cons.1 hc with rfl | hc
          · by_cases hci : c = i
            · exact hl c (by simp [hci]) hne
            · have hic := (before_total arena hci).resolve_left hb
              by_cases hj : lowest arena i A = i
              · rwa [hj]
              · exact before_trans arena (hl i (by simp) fun e => hj e.symm) hic
          · exact hl c (by simp [hc]) hne

/-- Taking the lowest member leaves the others (rule R123). -/
theorem takeLowest_some {arena : Vector Node 511} {A A' : List Nat} {a : Nat}
    (h : takeLowest arena A = some (a, A')) :
    a ∈ A ∧ A' = A.erase a ∧ ∀ c ∈ A, c ≠ a → before arena a c = true := by
  match A, h with
  | i :: A, h =>
    injection h with h
    injection h with h1 h2
    subst h1
    exact ⟨(lowest_spec arena i A).1, h2.symm, (lowest_spec arena i A).2⟩

theorem takeLowest_none {arena : Vector Node 511} {A : List Nat} :
    takeLowest arena A = none ↔ A = [] := by
  cases A <;> simp [takeLowest]

/-- A set with a member has a lowest one. -/
theorem takeLowest_of_ne_nil (arena : Vector Node 511) {A : List Nat} (h : A ≠ []) :
    ∃ a, takeLowest arena A = some (a, A.erase a) ∧ a ∈ A := by
  match A with
  | [] => exact absurd rfl h
  | i :: A => exact ⟨_, rfl, (lowest_spec arena i A).1⟩

/-! ## The merge loop -/

/-- The loop leaves every record below the next new one, and every record beyond its last round,
as it was. -/
theorem mergeRounds_keeps (r : Nat) (arena : Vector Node 511) (A : List Nat) (next i : Nat)
    (h : i < next ∨ next + r ≤ i) : (mergeRounds r arena A next)[i]? = arena[i]? := by
  induction r generalizing arena A next with
  | zero => rfl
  | succ r ih =>
    rw [mergeRounds]
    split
    · rfl
    · split
      · rfl
      · rw [ih _ _ _ (by omega), Vector.getElem?_setIfInBounds_ne (by omega)]

/-- One round: the record it writes joins the lowest member of the set and the lowest of the rest. -/
theorem mergeRounds_succ {r : Nat} {arena : Vector Node 511} {A : List Nat} {next : Nat}
    (h : 2 ≤ A.length) : ∃ a b, a ∈ A ∧ b ∈ A.erase a ∧
      (∀ c ∈ A, c ≠ a → before arena a c = true) ∧
      (∀ c ∈ A.erase a, c ≠ b → before arena b c = true) ∧
      mergeRounds (r + 1) arena A next =
        mergeRounds r (arena.setIfInBounds next (joinNode arena a b)) ((A.erase a).erase b ++ [next])
          (next + 1) := by
  have hA : A ≠ [] := by rintro rfl; simp at h
  obtain ⟨a, ha, ham⟩ := takeLowest_of_ne_nil arena hA
  have hA' : A.erase a ≠ [] := by
    intro e
    have := List.length_erase_of_mem ham
    rw [e, List.length_nil] at this
    omega
  obtain ⟨b, hb, hbm⟩ := takeLowest_of_ne_nil arena hA'
  exact ⟨a, b, ham, hbm, (takeLowest_some ha).2.2, (takeLowest_some hb).2.2, by
    rw [mergeRounds, ha]; simp only [hb]⟩


/-! ## What the merge loop leaves -/

theorem weightAt_congr {arena arena' : Vector Node 511} {i : Nat} (h : arena'[i]? = arena[i]?) :
    weightAt arena' i = weightAt arena i := by
  unfold weightAt; rw [h]

theorem isChild_congr {arena arena' : Vector Node 511} {i : Nat} (h : arena'[i]? = arena[i]?)
    (c : Nat) : IsChild arena' i c ↔ IsChild arena i c := by
  unfold IsChild; rw [h]

/-- What holds before each round of the merge loop: the set `A` has no repeats, it is the records
below `next` that are nobody's child, and children stand below their parents (rules R57 and R123). -/
structure MergeInv (arena : Vector Node 511) (A : List Nat) (next : Nat) : Prop where
  nodup : A.Nodup
  lt : ∀ a ∈ A, a < next
  free : ∀ c < next, c ∈ A ↔ ∀ j < next, ¬ IsChild arena j c
  down : ∀ j < next, ∀ c, IsChild arena j c → c < j

/-- The record a round writes. -/
theorem joinNode_isInternal {arena : Vector Node 511} {a b : Nat} (ha : a < 512) (hb : b < 512)
    (hw : weightAt arena a + weightAt arena b < 2 ^ 40) :
    (joinNode arena a b).IsInternal a b (weightAt arena a + weightAt arena b) := by
  refine ⟨rfl, rfl, ?_, ?_, ?_⟩
  · simp only [joinNode, BitVec.toNat_ofNat]; exact Nat.mod_eq_of_lt hw
  · simp only [joinNode, BitVec.toNat_ofNat]; exact Nat.mod_eq_of_lt (by omega)
  · simp only [joinNode, BitVec.toNat_ofNat]; exact Nat.mod_eq_of_lt (by omega)

/-- One round keeps what holds before each round. -/
theorem MergeInv.round {arena : Vector Node 511} {A : List Nat} {next a b : Nat}
    (h : MergeInv arena A next) (hn : next < 511) (ha : a ∈ A) (hb : b ∈ A.erase a) :
    MergeInv (arena.setIfInBounds next (joinNode arena a b)) ((A.erase a).erase b ++ [next])
      (next + 1) := by
  have hbA : b ∈ A := List.mem_of_mem_erase hb
  have han := h.lt a ha
  have hbn := h.lt b hbA
  have hold : ∀ j < next, (arena.setIfInBounds next (joinNode arena a b))[j]? = arena[j]? :=
    fun j hj => Vector.getElem?_setIfInBounds_ne (by omega)
  have hnew : (arena.setIfInBounds next (joinNode arena a b))[next]? = some (joinNode arena a b) := by
    rw [Vector.getElem?_setIfInBounds]; simp [hn]
  have hchild : ∀ c, IsChild (arena.setIfInBounds next (joinNode arena a b)) next c ↔ c = a ∨ c = b := by
    intro c
    have e1 : (BitVec.ofNat 9 a).toNat = a := by
      rw [BitVec.toNat_ofNat]; exact Nat.mod_eq_of_lt (by omega)
    have e2 : (BitVec.ofNat 9 b).toNat = b := by
      rw [BitVec.toNat_ofNat]; exact Nat.mod_eq_of_lt (by omega)
    unfold IsChild
    rw [hnew]
    simp only [Option.mem_def, Option.some.injEq]
    constructor
    · rintro ⟨nd, rfl, -, hc⟩
      simp only [joinNode, e1, e2] at hc
      omega
    · rintro (rfl | rfl)
      · exact ⟨_, rfl, rfl, .inl e1⟩
      · exact ⟨_, rfl, rfl, .inr e2⟩
  have hmem : ∀ c, c ∈ (A.erase a).erase b ↔ c ∈ A ∧ c ≠ a ∧ c ≠ b := by
    intro c
    rw [(h.nodup.erase a).mem_erase_iff, h.nodup.mem_erase_iff]
    tauto
  constructor
  · refine List.Nodup.append ((h.nodup.erase a).erase b) (List.nodup_singleton _) ?_
    intro c hc hc'
    have := h.lt c ((hmem c).1 hc).1
    rw [List.mem_singleton.1 hc'] at this
    omega
  · intro c hc
    rcases List.mem_append.1 hc with hc | hc
    · have := h.lt c ((hmem c).1 hc).1
      omega
    · rw [List.mem_singleton.1 hc]; omega
  · intro c hc
    rw [List.mem_append, List.mem_singleton, hmem]
    rcases Nat.lt_succ_iff_lt_or_eq.1 hc with hc | rfl
    · rw [h.free c hc]
      constructor
      · rintro (⟨h1, h2, h3⟩ | e)
        · intro j hj
          rcases Nat.lt_succ_iff_lt_or_eq.1 hj with hj | rfl
          · rw [isChild_congr (hold j hj)]; exact h1 j hj
          · rw [hchild]; tauto
        · omega
      · intro h1
        have h2 := h1 next (Nat.lt_succ_self _)
        rw [hchild] at h2
        refine .inl ⟨fun j hj => ?_, by tauto, by tauto⟩
        have := h1 j (by omega)
        rwa [isChild_congr (hold j hj)] at this
    · constructor
      · intro _ j hj
        rcases Nat.lt_succ_iff_lt_or_eq.1 hj with hj | rfl
        · rw [isChild_congr (hold j hj)]
          intro hch
          have := h.down j hj _ hch
          omega
        · rw [hchild]; omega
      · intro _; exact .inr rfl
  · intro j hj c hc
    rcases Nat.lt_succ_iff_lt_or_eq.1 hj with hj | rfl
    · rw [isChild_congr (hold j hj)] at hc
      exact h.down j hj c hc
    · rw [hchild] at hc; omega

/-- What the loop leaves (rules R122 to R124 and R127): one record that is nobody's child, the last
one made, which weighs as much as the set did; and each record it made joins the lowest and the
second lowest of the records before it that no record before it had joined. -/
theorem mergeRounds_spec {r : Nat} {arena : Vector Node 511} {A : List Nat} {next : Nat}
    (hI : MergeInv arena A next) (hlen : A.length = r + 1) (hcap : next + r ≤ 511)
    (hw : (A.map (weightAt arena)).sum < 2 ^ 40) :
    (∃ z, MergeInv (mergeRounds r arena A next) [z] (next + r) ∧
      weightAt (mergeRounds r arena A next) z = (A.map (weightAt arena)).sum ∧
      (1 ≤ r → z = next + r - 1)) ∧
    ∀ i, next ≤ i → i < next + r → ∃ a b,
      (∃ nd ∈ (mergeRounds r arena A next)[i]?, nd.IsInternal a b
        (weightAt (mergeRounds r arena A next) a + weightAt (mergeRounds r arena A next) b)) ∧
      a < i ∧ b < i ∧
      (∀ j < i, ¬ IsChild (mergeRounds r arena A next) j a ∧
        ¬ IsChild (mergeRounds r arena A next) j b) ∧
      before (mergeRounds r arena A next) a b = true ∧
      ∀ c < i, (∀ j < i, ¬ IsChild (mergeRounds r arena A next) j c) → c ≠ a → c ≠ b →
        before (mergeRounds r arena A next) b c = true := by
  induction r generalizing arena A next with
  | zero =>
    obtain ⟨z, rfl⟩ := List.length_eq_one_iff.1 hlen
    refine ⟨⟨z, hI, by simp [mergeRounds], by omega⟩, ?_⟩
    intro i h1 h2
    omega
  | succ r ih =>
    obtain ⟨a, b, ha, hb, hla, hlb, hstep⟩ := mergeRounds_succ (r := r) (arena := arena) (A := A)
      (next := next) (by omega)
    have hbA : b ∈ A := List.mem_of_mem_erase hb
    have hab : b ≠ a := (hI.nodup.mem_erase_iff.1 hb).1
    have han := hI.lt a ha
    have hbn := hI.lt b hbA
    have hsum : (A.map (weightAt arena)).sum = weightAt arena a + (weightAt arena b +
        (((A.erase a).erase b).map (weightAt arena)).sum) := by
      rw [List.sum_map_erase _ hb, List.sum_map_erase _ ha]
    have hwab : weightAt arena a + weightAt arena b < 2 ^ 40 := by omega
    rw [hstep]
    have hold : ∀ j < next, (arena.setIfInBounds next (joinNode arena a b))[j]? = arena[j]? :=
      fun j hj => Vector.getElem?_setIfInBounds_ne (by omega)
    have hnew : (arena.setIfInBounds next (joinNode arena a b))[next]? = some (joinNode arena a b) := by
      rw [Vector.getElem?_setIfInBounds]; simp [show next < 511 by omega]
    have hint := joinNode_isInternal (show a < 512 by omega) (show b < 512 by omega) hwab
    have hround := hI.round (by omega) ha hb
    have hwsum : (((A.erase a).erase b ++ [next]).map
        (weightAt (arena.setIfInBounds next (joinNode arena a b)))).sum = (A.map (weightAt arena)).sum := by
      rw [List.map_append, List.sum_append, hsum]
      have e1 : ((A.erase a).erase b).map (weightAt (arena.setIfInBounds next (joinNode arena a b))) =
          ((A.erase a).erase b).map (weightAt arena) := by
        refine List.map_congr_left fun c hc => weightAt_congr (hold c ?_)
        exact hI.lt c (List.mem_of_mem_erase (List.mem_of_mem_erase hc))
      have e2 : weightAt (arena.setIfInBounds next (joinNode arena a b)) next =
          weightAt arena a + weightAt arena b := by
        unfold weightAt; rw [hnew]; exact hint.2.2.1
      rw [e1]
      simp only [List.map_cons, List.map_nil, List.sum_cons, List.sum_nil, e2]
      omega
    have hlen' : ((A.erase a).erase b ++ [next]).length = r + 1 := by
      have h1 := List.length_erase_of_mem ha
      have h2 := List.length_erase_of_mem hb
      simp only [List.length_append, List.length_cons, List.length_nil]
      omega
    obtain ⟨⟨z, hz1, hz2, hz3⟩, hall⟩ := ih hround hlen' (by omega) (by rw [hwsum]; exact hw)
    have hfin : ∀ j ≤ next, (mergeRounds r (arena.setIfInBounds next (joinNode arena a b))
        ((A.erase a).erase b ++ [next]) (next + 1))[j]? =
        (arena.setIfInBounds next (joinNode arena a b))[j]? :=
      fun j hj => mergeRounds_keeps _ _ _ _ _ (.inl (by omega))
    generalize hF : mergeRounds r (arena.setIfInBounds next (joinNode arena a b))
      ((A.erase a).erase b ++ [next]) (next + 1) = fin at *
    refine ⟨⟨z, by rw [show next + (r + 1) = next + 1 + r by omega]; exact hz1, by rw [hz2, hwsum],
      fun _ => ?_⟩, ?_⟩
    · rcases Nat.eq_zero_or_pos r with rfl | hr
      · have h1 : (A.erase a).erase b = [] := by
          have h1 := List.length_erase_of_mem ha
          have h2 := List.length_erase_of_mem hb
          exact List.length_eq_zero_iff.1 (by omega)
        have h2 := hz1.free z (hz1.lt z (by simp))
        have h3 : next ∈ [z] := by
          rw [hz1.free next (by omega)]
          have := (hround.free next (by omega)).1 (by simp)
          intro j hj
          rw [isChild_congr (hfin j (by omega))]
          exact this j (by omega)
        have := List.mem_singleton.1 h3
        omega
      · have := hz3 hr
        omega
    · intro i h1 h2
      rcases Nat.eq_or_lt_of_le h1 with rfl | h1
      · have hc : ∀ j < next, ∀ c, IsChild fin j c ↔ IsChild arena j c := fun j hj c => by
          rw [isChild_congr (hfin j (by omega)), isChild_congr (hold j hj)]
        have hwt : ∀ j < next, weightAt fin j = weightAt arena j := fun j hj => by
          rw [weightAt_congr (hfin j (by omega)), weightAt_congr (hold j hj)]
        have hbef : ∀ i < next, ∀ j < next, before fin i j = before arena i j := fun i hi j hj => by
          unfold before; rw [hwt i hi, hwt j hj]
        refine ⟨a, b, ⟨joinNode arena a b, by rw [Option.mem_def, hfin next (Nat.le_refl _), hnew], ?_⟩,
          han, hbn, fun j hj => ?_, ?_, fun c hcn hfree hca hcb => ?_⟩
        · rw [hwt a han, hwt b hbn]; exact hint
        · rw [hc j hj, hc j hj]
          exact ⟨(hI.free a han).1 ha j hj, (hI.free b hbn).1 hbA j hj⟩
        · rw [hbef a han b hbn]; exact hla b hbA hab
        · rw [hbef b hbn c hcn]
          refine hlb c ?_ hcb
          rw [hI.nodup.mem_erase_iff]
          refine ⟨hca, (hI.free c hcn).2 fun j hj => ?_⟩
          rw [← hc j hj]
          exact hfree j hj
      · exact hall i h1 (by omega)

/-! ## The start of the loop -/

/-- The weights of the Leaves are the frequencies of the keys. -/
theorem leafArena_weights (f : Vector Count 256) :
    (List.range (keys f).length).map (weightAt (leafArena f)) =
      (keys f).map fun sy => (entry f sy).toNat := by
  have hk := keys_length_le f
  refine List.ext_getElem (by simp) fun i h1 h2 => ?_
  have hi : i < (keys f).length := by simpa using h1
  simp only [List.getElem_map, List.getElem_range]
  unfold weightAt
  rw [leafArena_getElem? f i (by omega), dif_pos hi]
  simp only [leafNode, BitVec.toNat_ofNat]
  exact Nat.mod_eq_of_lt (by have := (entry f (keys f)[i]).isLt; omega)

/-- The frequencies of the keys sum to the sum of the table, the others being zero. -/
theorem sum_keys (f : Vector Count 256) :
    ((keys f).map fun sy => (entry f sy).toNat).sum = freqSum f := by
  rw [freqSum_eq_sum, keys_eq_filter]
  induction symbols with
  | nil => rfl
  | cons sy l ih =>
    rw [List.filter_cons]
    split
    · rw [List.map_cons, List.sum_cons, ih, List.map_cons, List.sum_cons]
    · rename_i h
      have : (entry f sy).toNat = 0 := by simpa using h
      rw [ih, List.map_cons, List.sum_cons, this, Nat.zero_add]

/-- The sum of a table fits a weight (rule R49). -/
theorem freqSum_lt (f : Vector Count 256) : freqSum f < 2 ^ 40 := by
  have h : ∀ l : List Count, (l.map BitVec.toNat).sum ≤ l.length * (2 ^ 32 - 1) := by
    intro l
    induction l with
    | nil => simp
    | cons v l ih =>
      have := v.isLt
      simp only [List.map_cons, List.sum_cons, List.length_cons]
      omega
  have := h f.toList
  rw [Vector.length_toList] at this
  unfold freqSum
  omega

/-- The Leaves meet what holds before each round. -/
theorem leafArena_mergeInv (f : Vector Count 256) :
    MergeInv (leafArena f) (List.range (keys f).length) (keys f).length := by
  have hk := keys_length_le f
  have hno : ∀ j < (keys f).length, ∀ c, ¬ IsChild (leafArena f) j c := by
    rintro j hj c ⟨nd, hnd, hi, -⟩
    rw [leafArena_getElem? f j (by omega), dif_pos hj] at hnd
    have : leafNode f (keys f)[j] = nd := by simpa using hnd
    rw [← this] at hi
    cases hi
  refine ⟨List.nodup_range, by simp, ?_, fun j hj c hc => absurd hc (hno j hj c)⟩
  intro c hc
  simp only [List.mem_range, hc, true_iff]
  exact fun j hj => hno j hj c

end Sys2Proof.Machine
end

