-- ==== Sys2Proof/Laws/Container.lean ====
section
/-! SUPPORT. What the container codec computes: the lengths and places of the fields. -/

namespace Sys2Proof.Machine

@[simp] theorem entryBytes_length (f : Vector Count 256) (s : Byte) : (entryBytes f s).length = 5 := by
  simp [entryBytes]

/-- Fixed-width pieces laid one after another: the total length. -/
theorem flatMap_length_const {α β : Type} (g : α → List β) (w : Nat) (hg : ∀ x, (g x).length = w)
    (l : List α) : (l.flatMap g).length = w * l.length := by
  induction l with
  | nil => simp
  | cons x l ih => rw [List.flatMap_cons, List.length_append, hg, ih, List.length_cons]; ring

/-- Fixed-width pieces laid one after another: element `j` of piece `k`. -/
theorem flatMap_getElem?_const {α β : Type} (g : α → List β) (w : Nat) (hg : ∀ x, (g x).length = w)
    (l : List α) (k j : Nat) (hk : k < l.length) (hj : j < w) :
    (l.flatMap g)[w * k + j]? = (g l[k])[j]? := by
  induction l generalizing k with
  | nil => simp at hk
  | cons x l ih =>
    rw [List.flatMap_cons]
    cases k with
    | zero => rw [List.getElem?_append_left (by rw [hg]; omega)]; simp
    | succ k =>
      have h : w * (k + 1) + j = w + (w * k + j) := by ring
      rw [List.getElem?_append_right (by rw [hg, h]; omega), hg, h, Nat.add_sub_cancel_left]
      simpa using ih k (by simpa using hk)

/-- The container is `3 + 5n + m` bytes long (rule R88). -/
theorem containerBytes_length (f : Vector Count 256) (n pad : Nat) (payload : List Byte) :
    (containerBytes f n pad payload).length = 3 + 5 * (keys f).length + payload.length := by
  simp only [containerBytes, List.length_append, leBytes_length, List.length_cons,
    flatMap_length_const (entryBytes f) 5 (entryBytes_length f)]
  omega

/-- Byte `j` of entry `k`: index `2 + 5k + j` (rule R88). -/
theorem containerBytes_entry (f : Vector Count 256) (n pad : Nat) (payload : List Byte) (k j : Nat)
    (hk : k < (keys f).length) (hj : j < 5) :
    (containerBytes f n pad payload)[2 + 5 * k + j]? = (entryBytes f (keys f)[k])[j]? := by
  have h : 2 + 5 * k + j = 2 + (5 * k + j) := by ring
  rw [containerBytes, List.getElem?_append_right (by simp; omega), leBytes_length, h,
    Nat.add_sub_cancel_left, List.getElem?_append_left,
    flatMap_getElem?_const (entryBytes f) 5 (entryBytes_length f) _ k j hk hj]
  rw [flatMap_length_const (entryBytes f) 5 (entryBytes_length f)]
  omega

/-- The two bytes of `symbolCount` come first. -/
theorem containerBytes_count (f : Vector Count 256) (n pad : Nat) (payload : List Byte) :
    (containerBytes f n pad payload).take 2 = leBytes 2 n := by
  rw [containerBytes, List.take_append_of_le_length (by simp), List.take_of_length_le (by simp)]

/-- The padding-length byte is at index `2 + 5n`, the payload follows it (rule R88). -/
theorem containerBytes_tail (f : Vector Count 256) (n pad : Nat) (payload : List Byte) :
    (containerBytes f n pad payload).drop (2 + 5 * (keys f).length) =
      BitVec.ofNat 8 pad :: payload := by
  have h : 2 + 5 * (keys f).length =
      (leBytes 2 n ++ (keys f).flatMap (entryBytes f)).length := by
    rw [List.length_append, leBytes_length, flatMap_length_const (entryBytes f) 5 (entryBytes_length f)]
  rw [containerBytes, ← List.append_assoc, h, List.drop_left]

/-! ## Reading a frequency -/

/-- A frequency field is refused exactly when it is zero or has bit 31 set (rule R172). -/
theorem sint32_nonpos_iff {v : Nat} (h : v < 2 ^ 32) : sint32 v ≤ 0 ↔ v = 0 ∨ 2 ^ 31 ≤ v := by
  unfold sint32
  split <;> omega

theorem sint32_toNat {v : Nat} (h : v < 2 ^ 31) : (sint32 v).toNat = v := by
  unfold sint32
  split <;> omega

theorem memRead_lt (s : State) (sp : Space) (a n : Nat) : s.memRead sp a n < 256 ^ n := by
  have := leValue_lt ((List.range n).map fun k => s.byteAt sp (a + k))
  simpa [State.memRead] using this

/-! ## The loop of `PAR` -/

/-- The symbol of entry `k` of the container in `IN` (rule R88). -/
abbrev State.entrySym (s : State) (k : Nat) : Byte := s.byteAt .inp (2 + 5 * k)

/-- The frequency field of entry `k` (rule R88). -/
abbrev State.entryFreq (s : State) (k : Nat) : Nat := s.memRead .inp (3 + 5 * k) 4

theorem entryFreq_lt (s : State) (k : Nat) : s.entryFreq k < 2 ^ 32 := by
  simpa [State.entryFreq] using memRead_lt s .inp (3 + 5 * k) 4

/-- What the loop over the entries leaves when it completes: every entry was good and new, the table
holds the entries, and nothing else of it changed (rules R170 to R172). -/
theorem parseEntries_ok {s : State} {todo k : Nat} {F F' : Vector Count 256}
    (h : parseEntries s todo k F = .ok F') :
    (∀ j, k ≤ j → j < k + todo → 1 ≤ s.entryFreq j ∧ s.entryFreq j < 2 ^ 31) ∧
    (∀ j, k ≤ j → j < k + todo → entry F (s.entrySym j) = 0#32) ∧
    (∀ i j, k ≤ i → i < j → j < k + todo → s.entrySym i ≠ s.entrySym j) ∧
    (∀ j, k ≤ j → j < k + todo → (entry F' (s.entrySym j)).toNat = s.entryFreq j) ∧
    ∀ sy, (∀ j, k ≤ j → j < k + todo → s.entrySym j ≠ sy) → entry F' sy = entry F sy := by
  induction todo generalizing k F with
  | zero =>
    simp only [parseEntries, Except.ok.injEq] at h
    subst h
    refine ⟨?_, ?_, ?_, ?_, fun _ _ => rfl⟩ <;> intros <;> omega
  | succ todo ih =>
    have hlt := entryFreq_lt s k
    simp only [parseEntries] at h
    split at h
    · cases h
    · rename_i hf
      split at h
      · cases h
      · rename_i hd
        change ¬ sint32 (s.entryFreq k) ≤ 0 at hf
        rw [sint32_nonpos_iff hlt] at hf
        have hf1 : 1 ≤ s.entryFreq k := by omega
        have hf2 : s.entryFreq k < 2 ^ 31 := by omega
        change parseEntries s todo (k + 1)
          (setEntry F (s.entrySym k) (BitVec.ofNat 32 (sint32 (s.entryFreq k)).toNat)) = .ok F' at h
        rw [sint32_toNat hf2] at h
        have hd0 : entry F (s.entrySym k) = 0#32 := by
          have : (entry F (s.entrySym k)).toNat = 0 := Decidable.not_not.1 hd
          exact BitVec.eq_of_toNat_eq (by simpa using this)
        have hv : (BitVec.ofNat 32 (s.entryFreq k)).toNat = s.entryFreq k := by
          rw [BitVec.toNat_ofNat]; exact Nat.mod_eq_of_lt hlt
        have hne0 : BitVec.ofNat 32 (s.entryFreq k) ≠ 0#32 := by
          intro e
          rw [e] at hv
          simp at hv
          omega
        obtain ⟨i1, i2, i3, i4, i5⟩ := ih h
        have hnew : ∀ j, k + 1 ≤ j → j < k + 1 + todo → s.entrySym k ≠ s.entrySym j := by
          intro j h1 h2 e
          have := i2 j h1 h2
          rw [← e, entry_setEntry_self] at this
          exact hne0 this
        refine ⟨?_, ?_, ?_, ?_, ?_⟩
        · intro j h1 h2
          rcases Nat.eq_or_lt_of_le h1 with rfl | h1
          · exact ⟨hf1, hf2⟩
          · exact i1 j h1 (by omega)
        · intro j h1 h2
          rcases Nat.eq_or_lt_of_le h1 with rfl | h1
          · exact hd0
          · have := i2 j h1 (by omega)
            rwa [entry_setEntry, if_neg (hnew j h1 (by omega)).symm] at this
        · intro i j h1 h2 h3
          rcases Nat.eq_or_lt_of_le h1 with rfl | h1
          · exact hnew j h2 (by omega)
          · exact i3 i j h1 h2 (by omega)
        · intro j h1 h2
          rcases Nat.eq_or_lt_of_le h1 with rfl | h1
          · rw [i5 _ fun j h3 h4 => (hnew j h3 h4).symm, entry_setEntry_self, hv]
          · exact i4 j h1 (by omega)
        · intro sy hsy
          rw [i5 sy fun j h3 h4 => hsy j (by omega) (by omega), entry_setEntry,
            if_neg (hsy k (by omega) (by omega)).symm]

/-- The loop runs over entries that are good and new, and goes on with the rest. -/
theorem parseEntries_append {s : State} {a b k : Nat} {F : Vector Count 256}
    (hf : ∀ j, k ≤ j → j < k + a → 1 ≤ s.entryFreq j ∧ s.entryFreq j < 2 ^ 31)
    (hF : ∀ j, k ≤ j → j < k + a → entry F (s.entrySym j) = 0#32)
    (hs : ∀ i j, k ≤ i → i < j → j < k + a → s.entrySym i ≠ s.entrySym j) :
    ∃ F', parseEntries s a k F = .ok F' ∧
      parseEntries s (a + b) k F = parseEntries s b (k + a) F' := by
  induction a generalizing k F with
  | zero => exact ⟨F, rfl, by simp⟩
  | succ a ih =>
    have hlt := entryFreq_lt s k
    obtain ⟨f1, f2⟩ := hf k (by omega) (by omega)
    have h0 := hF k (by omega) (by omega)
    have hpos : ¬ sint32 (s.entryFreq k) ≤ 0 := by rw [sint32_nonpos_iff hlt]; omega
    have step : ∀ c, parseEntries s (c + 1) k F = parseEntries s c (k + 1)
        (setEntry F (s.entrySym k) (BitVec.ofNat 32 (s.entryFreq k))) := by
      intro c
      have h1 : ¬ (sint32 (s.memRead .inp (3 + 5 * k) 4) ≤ 0) := hpos
      have h2 : ¬ ((entry F (s.byteAt .inp (2 + 5 * k))).toNat ≠ 0) := by
        change ¬ ((entry F (s.entrySym k)).toNat ≠ 0)
        simp [h0]
      simp only [parseEntries, if_neg h1, if_neg h2]
      change parseEntries s c (k + 1) (setEntry F (s.entrySym k)
        (BitVec.ofNat 32 (sint32 (s.entryFreq k)).toNat)) = _
      rw [sint32_toNat f2]
    obtain ⟨F', e1, e2⟩ := ih (k := k + 1)
      (F := setEntry F (s.entrySym k) (BitVec.ofNat 32 (s.entryFreq k)))
      (fun j h1 h2 => hf j (by omega) (by omega))
      (fun j h1 h2 => by
        rw [entry_setEntry, if_neg (hs k j (by omega) (by omega) (by omega)).symm]
        exact hF j (by omega) (by omega))
      (fun i j h1 h2 h3 => hs i j (by omega) h2 (by omega))
    refine ⟨F', by rw [step, e1], ?_⟩
    rw [show a + 1 + b = (a + b) + 1 by omega, step, e2, show k + 1 + a = k + (a + 1) by omega]

end Sys2Proof.Machine
end

