-- ==== Sys2Proof/Laws/Counter.lean ====
section
/-! SUPPORT. What the frequency counter computes. -/

namespace Sys2Proof.Machine

/-- A count fits its register when the input has fewer than `2^32` bytes (rule R112). -/
theorem entry_countTable {l : List Byte} (h : l.length < 2 ^ 32) (sy : Byte) :
    (entry (countTable l) sy).toNat = l.count sy := by
  rw [countTable, entry_tabulate, BitVec.toNat_ofNat]
  exact Nat.mod_eq_of_lt (Nat.lt_of_le_of_lt List.count_le_length h)

/-- The keys of the counts are the bytes that occur. -/
theorem mem_keys_countTable {l : List Byte} (h : l.length < 2 ^ 32) {sy : Byte} :
    sy ∈ keys (countTable l) ↔ sy ∈ l := by
  rw [mem_keys, entry_countTable h, List.count_pos_iff]

/-- There are as many keys as distinct bytes. -/
theorem keys_countTable_length {l : List Byte} (h : l.length < 2 ^ 32) :
    (keys (countTable l)).length = l.dedup.length := by
  refine List.Perm.length_eq ((List.perm_ext_iff_of_nodup (keys_nodup _) l.nodup_dedup).2 ?_)
  intro sy
  rw [mem_keys_countTable h, List.mem_dedup]

/-- The count of one more byte raises one entry of a table of counts by one. -/
theorem sum_count_cons (b : Byte) (l syms : List Byte) :
    (syms.map fun sy => (b :: l).count sy).sum = (syms.map fun sy => l.count sy).sum + syms.count b := by
  induction syms with
  | nil => simp
  | cons sy syms ih =>
    rw [List.map_cons, List.sum_cons, ih, List.map_cons, List.sum_cons, List.count_cons,
      List.count_cons]
    by_cases h : b = sy
    · simp only [h, BEq.rfl, if_true]
      omega
    · have h1 : (b == sy) = false := by simpa using h
      have h2 : (sy == b) = false := by simpa using fun e : sy = b => h e.symm
      simp only [h1, h2, Bool.false_eq_true, if_false]
      omega

theorem symbols_nodup : symbols.Nodup :=
  symbols_pairwise.imp fun h e => by simp [e] at h

/-- The counts sum to the number of bytes (rule R111). -/
theorem sum_count_symbols (l : List Byte) : (symbols.map fun sy => l.count sy).sum = l.length := by
  induction l with
  | nil => exact List.sum_eq_zero fun n hn => by simpa using (List.mem_map.1 hn).choose_spec.2.symm
  | cons b l ih =>
    rw [sum_count_cons, ih, List.count_eq_one_of_mem symbols_nodup (mem_symbols b), List.length_cons]

theorem freqSum_countTable {l : List Byte} (h : l.length < 2 ^ 32) :
    freqSum (countTable l) = l.length := by
  rw [freqSum_eq_sum, ← sum_count_symbols l]
  exact congrArg List.sum (List.map_congr_left fun sy _ => entry_countTable h sy)

/-- The body of `CNT` always completes; what it leaves. -/
theorem cntBody_ok (s : State) : ∃ t, cntBody s = .ok t ∧
    t.freq = countTable s.input ∧ t.symcnt = BitVec.ofNat 9 (keys t.freq).length ∧
    (s.inLen ≠ 0#40 → t = { s with freq := t.freq, symcnt := t.symcnt, phase := .counted }) ∧
    (s.inLen = 0#40 → t = { s with
      freq := t.freq, symcnt := t.symcnt, padLen := 8#4, payLen := 0#40, phase := .encoded }) := by
  by_cases h : s.inLen = 0#40 <;> simp [cntBody, h]

end Sys2Proof.Machine
end

