-- ==== Sys2Proof/Laws/Engine.lean ====
section
/-! SUPPORT. What the decode walk does along a path of the tree. -/

namespace Sys2Proof.Machine

/-- The walk goes on below an Internal record it has reached. -/
theorem walkBits_inside {arena : Vector Node 511} {root : NodeIx} {cap : Nat} {p rest : List Bit}
    {i j : NodeIx} {d : Nat} (h : follow arena i p = some j)
    (hj : ∃ nd, arena[j.toNat]? = some nd ∧ nd.kind = .internal) :
    walkBits arena root cap (p ++ rest) i d = walkBits arena root cap rest j d := by
  induction p generalizing i with
  | nil =>
    injection h with h
    rw [h, List.nil_append]
  | cons b p ih =>
    rw [follow] at h
    split at h
    · cases h
    · rename_i nd hnd
      split at h
      · split at h
        · cases h
        · rename_i hk hn
          obtain ⟨nd', hnd'⟩ := recordAt_of_ne_nil arena hn
          have hkind : nd'.kind = .internal := by
            have hg := recordAt_ok.1 hnd'
            cases p with
            | nil =>
              injection h with h
              obtain ⟨nd'', h1, h2⟩ := hj
              rw [← h, hg] at h1
              injection h1 with h1
              rwa [h1]
            | cons c p =>
              rw [follow, hg] at h
              by_contra hne
              simp [hne] at h
          rw [List.cons_append, walkBits, recordAt_ok.2 hnd]
          simp only [hn, if_false, hnd', hkind]
          exact ih h
      · cases h

/-- A whole code from the root: its symbol is emitted if it fits, and the walk is at the root again
(rule R185). -/
theorem walkBits_code {arena : Vector Node 511} {root : NodeIx} {cap : Nat} {p rest : List Bit}
    {i : NodeIx} {d : Nat} {sy : Byte} (hp : p ≠ []) (h : IsCode arena i p sy) :
    walkBits arena root cap (p ++ rest) i d =
      if d = cap then capacityError .capOut
      else match walkBits arena root cap rest root (d + 1) with
        | .error e => .error e
        | .ok (fin, more) => .ok (fin, sy :: more) := by
  obtain ⟨j, hf, nl, hl, hk, hs⟩ := h
  induction p generalizing i with
  | nil => exact absurd rfl hp
  | cons b p ih =>
    rw [Option.mem_def, follow] at hf
    split at hf
    · cases hf
    · rename_i nd hnd
      split at hf
      · split at hf
        · cases hf
        · rename_i hki hn
          obtain ⟨nd', hnd'⟩ := recordAt_of_ne_nil arena hn
          have hg := recordAt_ok.1 hnd'
          rw [List.cons_append, walkBits, recordAt_ok.2 hnd]
          simp only [hn, if_false, hnd']
          cases p with
          | nil =>
            injection hf with hf
            rw [← hf, Option.mem_def, hg] at hl
            injection hl with hl
            subst hl
            simp only [hk, List.nil_append]
            split
            · rfl
            · split <;> simp_all
          | cons c p =>
            have hint : nd'.kind = .internal := by
              rw [follow, hg] at hf
              by_contra hne
              simp [hne] at hf
            simp only [hint]
            exact ih (by simp) hf
      · cases hf

/-- The walk over whole codes of the symbols `ds`, which fit: they are emitted in order, and the walk
goes on at the root (rule R186). -/
theorem walkBits_codes {arena : Vector Node 511} {root : NodeIx} {cap : Nat}
    {code : Byte → List Bit} {ds : List Byte} {rest : List Bit} {d : Nat}
    (hc : ∀ x ∈ ds, code x ≠ [] ∧ IsCode arena root (code x) x) (hd : d + ds.length ≤ cap) :
    walkBits arena root cap (ds.flatMap code ++ rest) root d =
      match walkBits arena root cap rest root (d + ds.length) with
      | .error e => .error e
      | .ok (fin, more) => .ok (fin, ds ++ more) := by
  induction ds generalizing d with
  | nil =>
    simp only [List.flatMap_nil, List.nil_append, List.length_nil, Nat.add_zero]
    split <;> simp_all
  | cons x ds ih =>
    rw [List.length_cons] at hd
    have hx := hc x (by simp)
    have hne : d ≠ cap := by omega
    rw [List.flatMap_cons, List.append_assoc, walkBits_code hx.1 hx.2, if_neg hne,
      ih (fun y hy => hc y (by simp [hy])) (by omega), List.length_cons,
      show d + 1 + ds.length = d + (ds.length + 1) by omega]
    split <;> split <;> simp_all

/-- A completed walk emitted at most as many bytes as there are cells. -/
theorem walkBits_length {arena : Vector Node 511} {root : NodeIx} {cap : Nat} {bs : List Bit}
    {cur fin : NodeIx} {d : Nat} {out : List Byte} (hd : d ≤ cap)
    (h : walkBits arena root cap bs cur d = .ok (fin, out)) : d + out.length ≤ cap := by
  induction bs generalizing cur fin d out with
  | nil =>
    injection h with h
    injection h with _ h
    subst h
    simpa using hd
  | cons b bs ih =>
    rw [walkBits] at h
    split at h
    · cases h
    · split at h
      · cases h
      · split at h
        · cases h
        · split at h
          · exact ih hd h
          · split at h
            · cases h
            · split at h
              · cases h
              · rename_i hne _ _ _ hw
                injection h with h
                injection h with _ h
                subst h
                have := ih (by omega) hw
                rw [List.length_cons]
                omega

end Sys2Proof.Machine
end

