-- ==== Sys2Proof/Laws/Bodies.lean ====
section
/-! SUPPORT. One inversion lemma per command body: the guards that held and the state it leaves when
it completes. Each gives the frame of its command at once. -/

namespace Sys2Proof.Machine

theorem bldBody_next {s t : State} (h : bldBody s = .ok t) :
    s.symcnt.toNat ≠ 0 ∧ (keys s.freq).length = s.symcnt.toNat ∧
    t = { s with
      node := (buildTree s.freq s.symcnt.toNat).node,
      nnodes := (buildTree s.freq s.symcnt.toNat).nnodes,
      root := (buildTree s.freq s.symcnt.toNat).root,
      phase := if s.phase = .counted then .treeBuilt else .treeRebuilt } := by
  unfold bldBody at h
  simp only at h
  split at h
  · cases h
  · split at h
    · cases h
    · injection h with h
      exact ⟨by assumption, by simpa using ‹¬ (keys s.freq).length ≠ _›, h.symm⟩

theorem genBody_next {s t : State} (h : genBody s = .ok t) :
    ∃ tbl, visit s.node (clenMax + 1) s.root [] CodeTable.empty = .ok tbl ∧
      t = { s with clen := tbl.clen, cbits := tbl.cbits, ctv := true } := by
  unfold genBody at h
  split at h
  · cases h
  · injection h with h
    exact ⟨_, by assumption, h.symm⟩

theorem encBody_next {s t : State} (h : encBody s = .ok t) :
    (∀ b ∈ s.input, s.code b ≠ []) ∧ (s.input.flatMap s.code).length ≤ s.config.bitsCap ∧
    t = { s with
      bits := s.bits.store 0 (s.input.flatMap s.code),
      bitLen := BitVec.ofNat 40 (s.input.flatMap s.code).length, bsv := true } := by
  unfold encBody at h
  split at h
  · cases h
  · rename_i bs hbs
    injection h with h
    obtain ⟨h1, h2, h3⟩ := encodeBits_inv (Nat.zero_le _) hbs
    subst h1
    exact ⟨h2, by omega, h.symm⟩

theorem pckBody_next {s t : State} (h : pckBody s = .ok t) :
    (packBits s.bitSeq).length ≤ s.config.payCap ∧
    t = { s with
      pay := s.pay.store 0 (packBits s.bitSeq),
      padLen := BitVec.ofNat 4 (padding s.bitSeq.length),
      payLen := BitVec.ofNat 40 (packBits s.bitSeq).length, phase := .encoded } := by
  unfold pckBody at h
  simp only at h
  split at h
  · cases h
  · injection h with h
    exact ⟨by omega, h.symm⟩

theorem upkBody_next {s t : State} (h : upkBody s = .ok t) :
    s.padLen.toNat ≤ 8 * s.payLen.toNat ∧
    8 * s.payLen.toNat - s.padLen.toNat ≤ s.config.bitsCap ∧
    t = { s with
      bits := s.bits.store 0 (unpackBits s.payload (8 * s.payLen.toNat - s.padLen.toNat)),
      bitLen := BitVec.ofNat 40 (8 * s.payLen.toNat - s.padLen.toNat), bsv := true } := by
  unfold upkBody at h
  simp only [unpackBits_length] at h
  split at h
  · cases h
  · split at h
    · cases h
    · rename_i hs
      injection h with h
      obtain ⟨h1, rfl⟩ := storeWithin_ok hs
      exact ⟨by omega, by simpa using h1, h.symm⟩

theorem serBody_next {s t : State} (h : serBody s = .ok t) :
    3 + 5 * s.symcnt.toNat + s.payLen.toNat ≤ s.config.outCap ∧
    (keys s.freq).length = s.symcnt.toNat ∧
    t = { s with
      out := s.out.store 0 (containerBytes s.freq s.symcnt.toNat s.padLen.toNat s.payload),
      outLen := BitVec.ofNat 40 (3 + 5 * s.symcnt.toNat + s.payLen.toNat), phase := .written } := by
  unfold serBody at h
  simp only at h
  split at h
  · cases h
  · split at h
    · cases h
    · injection h with h
      exact ⟨by omega, by simpa using ‹¬ (keys s.freq).length ≠ _›, h.symm⟩

theorem wlkBody_next {s t : State} (h : wlkBody s = .ok t) :
    ∃ bytes, walkBits s.node s.root s.config.outCap s.bitSeq s.root 0 = .ok (s.root, bytes) ∧
      bytes.length = freqSum s.freq ∧ bytes.length ≤ s.config.outCap ∧
      t = { s with
        dbuf := s.dbuf.store 0 bytes, dLen := BitVec.ofNat 40 bytes.length, phase := .decoded } := by
  unfold wlkBody at h
  split at h
  · cases h
  · rename_i cur bytes hw
    split at h
    · cases h
    · split at h
      · cases h
      · rename_i hc hl
        injection h with h
        have hc : cur = s.root := by simpa using hc
        subst hc
        have := walkBits_length (Nat.zero_le _) hw
        exact ⟨bytes, hw, by simpa using hl, by omega, h.symm⟩

theorem emtBody_next {s t : State} (h : emtBody s = .ok t) :
    s.dLen.toNat ≤ s.config.outCap ∧
    t = { s with out := s.out.store 0 s.decodedBytes, outLen := s.dLen, phase := .written } := by
  unfold emtBody at h
  split at h
  · cases h
  · rename_i hs
    injection h with h
    obtain ⟨h1, rfl⟩ := storeWithin_ok hs
    exact ⟨by simpa using h1, h.symm⟩

/-- What `PAR` leaves when every check passes (rule R170). -/
theorem parBody_next {s t : State} (h : parBody s = .ok t) :
    ∃ F n, n = s.memRead .inp 0 2 ∧ n ≤ 256 ∧ 3 + 5 * n ≤ s.inLen.toNat ∧
      parseEntries s n 0 (Vector.replicate 256 0#32) = .ok F ∧
      1 ≤ (s.byteAt .inp (2 + 5 * n)).toNat ∧ (s.byteAt .inp (2 + 5 * n)).toNat ≤ 8 ∧
      (n = 0 → s.inLen.toNat = 3) ∧ s.inLen.toNat - (3 + 5 * n) ≤ s.config.payCap ∧
      t = { s with
        freq := F, symcnt := BitVec.ofNat 9 n,
        padLen := BitVec.ofNat 4 (s.byteAt .inp (2 + 5 * n)).toNat,
        pay := s.pay.store 0 ((List.range (s.inLen.toNat - (3 + 5 * n))).map fun i =>
          s.byteAt .inp (3 + 5 * n + i)),
        payLen := BitVec.ofNat 40 (s.inLen.toNat - (3 + 5 * n)),
        dLen := if n = 0 then 0#40 else s.dLen,
        phase := if n = 0 then .decoded else .parsed } := by
  unfold parBody at h
  simp only at h
  split at h
  · cases h
  split at h
  · cases h
  split at h
  · cases h
  split at h
  · cases h
  rename_i F hF
  split at h
  · cases h
  split at h
  · cases h
  split at h
  · cases h
  refine ⟨F, _, rfl, by omega, by omega, hF, by omega, by omega, by omega, by omega, ?_⟩
  split at h <;> injection h with h <;> rw [← h]
  · rename_i hn
    have : s.memRead .inp 0 2 ≠ 0 := by omega
    simp [this]
  · rename_i hn
    have : s.memRead .inp 0 2 = 0 := by omega
    simp [this]

end Sys2Proof.Machine
end

