-- ==== Sys2Proof/Laws/CodeGenerator.lean ====
section
/-! SUPPORT. Lemmas about `GEN`: which paths are codes, what the tree walk leaves in the code table,
when it completes, and how the paths of a tree with the invariant of rule R48 lie. -/

namespace Sys2Proof.Machine

variable {arena : Vector Node 511}

/-! ## Codes by the kind of the record they start from -/

/-- From a Leaf only the empty path leads to a Leaf, to itself. -/
theorem isCode_leaf {i : NodeIx} {nd : Node} (h : arena[i.toNat]? = some nd) (hk : nd.kind = .leaf)
    (q : List Bit) (sy : Byte) : IsCode arena i q sy ↔ q = [] ∧ sy = nd.sym := by
  constructor
  · rintro ⟨j, hj, nd', hnd', -, hs⟩
    obtain rfl := follow_leaf h hk hj
    simp only [follow_nil, Option.mem_def, Option.some.injEq] at hj
    subst hj
    have : nd = nd' := by simpa [h] using hnd'
    exact ⟨rfl, by rw [this]; exact hs.symm⟩
  · rintro ⟨rfl, rfl⟩
    exact ⟨i, rfl, nd, h, hk, rfl⟩

/-- From an Internal record a code is a bit and then a code of the child it leads to. -/
theorem isCode_internal {i : NodeIx} {nd : Node} (h : arena[i.toNat]? = some nd)
    (hk : nd.kind = .internal) (q : List Bit) (sy : Byte) :
    IsCode arena i q sy ↔
      ∃ b q', q = b :: q' ∧ nd.child b ≠ nilIx ∧ IsCode arena (nd.child b) q' sy := by
  constructor
  · rintro ⟨j, hj, nd', hnd', hl, hs⟩
    cases q with
    | nil =>
      simp only [follow_nil, Option.mem_def, Option.some.injEq] at hj
      subst hj
      have : nd = nd' := by simpa [h] using hnd'
      rw [this, hl] at hk
      cases hk
    | cons b q =>
      by_cases hc : nd.child b = nilIx
      · simp [follow, h, hk, hc] at hj
      · rw [follow_cons h hk b hc] at hj
        exact ⟨b, q, rfl, hc, j, hj, nd', hnd', hl, hs⟩
  · rintro ⟨b, q', rfl, hc, j, hj, rest⟩
    exact ⟨j, by rw [follow_cons h hk b hc]; exact hj, rest⟩

/-! ## The walk -/

/-- The entry of `sy` in `t'` is the path `p`. -/
def CodeTable.Holds (t : CodeTable) (sy : Byte) (p : List Bit) : Prop :=
  entry t.clen sy = BitVec.ofNat 8 p.length ∧ entry t.cbits sy = BitVec.ofNat 255 (pathValue p)

/-- The entries of `sy` in two tables are equal. -/
def CodeTable.SameAt (t u : CodeTable) (sy : Byte) : Prop :=
  entry t.clen sy = entry u.clen sy ∧ entry t.cbits sy = entry u.cbits sy

theorem CodeTable.set_holds (t : CodeTable) (sy : Byte) (p : List Bit) : (t.set sy p).Holds sy p := by
  simp [CodeTable.Holds, CodeTable.set]

theorem CodeTable.set_sameAt (t : CodeTable) {sy sy' : Byte} (p : List Bit) (h : sy' ≠ sy) :
    (t.set sy p).SameAt t sy' := by
  simp [CodeTable.SameAt, CodeTable.set, entry_setEntry, h]

theorem CodeTable.SameAt.holds {t u : CodeTable} {sy : Byte} {p : List Bit} (h : t.SameAt u sy)
    (hu : u.Holds sy p) : t.Holds sy p := ⟨h.1.trans hu.1, h.2.trans hu.2⟩

theorem CodeTable.SameAt.trans {t u v : CodeTable} {sy : Byte} (h : t.SameAt u sy)
    (g : u.SameAt v sy) : t.SameAt v sy := ⟨h.1.trans g.1, h.2.trans g.2⟩

/-- The walk from record `i` with the path `p` so far writes, for every symbol with a code `q` below
`i`, the path `p ++ q`, and leaves the entry of every other symbol (rules R136 and R137). -/
theorem visit_ok {fuel : Nat} {i : NodeIx} {p : List Bit} {t t' : CodeTable}
    (h : visit arena fuel i p t = .ok t')
    (huniq : ∀ q q' sy, IsCode arena i q sy → IsCode arena i q' sy → q = q') :
    (∀ q sy, IsCode arena i q sy → t'.Holds sy (p ++ q)) ∧
    ∀ sy, (∀ q, ¬ IsCode arena i q sy) → t'.SameAt t sy := by
  induction fuel generalizing i p t t' with
  | zero => simp [visit] at h
  | succ fuel ih =>
    unfold visit at h
    split at h
    · cases h
    · rename_i nd hnd
      rw [recordAt_ok] at hnd
      split at h
      · rename_i hk
        injection h with h
        subst h
        constructor
        · intro q sy hq
          obtain ⟨rfl, rfl⟩ := (isCode_leaf hnd hk q sy).1 hq
          simpa using CodeTable.set_holds t nd.sym p
        · intro sy hn
          refine CodeTable.set_sameAt t p fun e => hn [] ?_
          exact (isCode_leaf hnd hk [] sy).2 ⟨rfl, e⟩
      · rename_i hk
        have hsub : ∀ b, nd.child b ≠ nilIx → ∀ q q' sy, IsCode arena (nd.child b) q sy →
            IsCode arena (nd.child b) q' sy → q = q' := by
          intro b hb q q' sy h1 h2
          have := huniq (b :: q) (b :: q') sy ((isCode_internal hnd hk _ _).2 ⟨b, q, rfl, hb, h1⟩)
            ((isCode_internal hnd hk _ _).2 ⟨b, q', rfl, hb, h2⟩)
          simpa using this
        -- one child: what its part of the walk does
        have part : ∀ b (u u' : CodeTable),
            (if nd.child b ≠ nilIx then visit arena fuel (nd.child b) (p ++ [b]) u else .ok u) = .ok u' →
            (∀ q sy, nd.child b ≠ nilIx → IsCode arena (nd.child b) q sy →
              u'.Holds sy (p ++ b :: q)) ∧
            ∀ sy, (∀ q, nd.child b ≠ nilIx → ¬ IsCode arena (nd.child b) q sy) → u'.SameAt u sy := by
          intro b u u' hu
          split at hu
          · rename_i hb
            obtain ⟨h1, h2⟩ := ih hu (hsub b hb)
            exact ⟨fun q sy _ hq => by simpa using h1 q sy hq, fun sy hn => h2 sy fun q => hn q hb⟩
          · rename_i hb
            injection hu with hu
            subst hu
            exact ⟨fun q sy hb' => absurd hb' hb, fun sy _ => ⟨rfl, rfl⟩⟩
        split at h
        · cases h
        · rename_i u hu
          obtain ⟨l1, l2⟩ := part false t u hu
          obtain ⟨r1, r2⟩ := part true u t' h
          constructor
          · intro q sy hq
            obtain ⟨b, q', rfl, hb, hq'⟩ := (isCode_internal hnd hk _ _).1 hq
            cases b with
            | true => exact r1 q' sy hb hq'
            | false =>
              refine (r2 sy fun q'' hb'' hq'' => ?_).holds (l1 q' sy hb hq')
              have := huniq _ _ sy hq ((isCode_internal hnd hk _ _).2 ⟨true, q'', rfl, hb'', hq''⟩)
              simp at this
          · intro sy hn
            have none : ∀ b q', nd.child b ≠ nilIx → ¬ IsCode arena (nd.child b) q' sy :=
              fun b q' hb hq' => hn _ ((isCode_internal hnd hk _ _).2 ⟨b, q', rfl, hb, hq'⟩)
            exact (r2 sy (none true)).trans (l2 sy (none false))

/-- The walk completes if no path below the record is as long as the bound. -/
theorem visit_completes {fuel : Nat} {i : NodeIx} {p : List Bit} {t : CodeTable} (hi : i ≠ nilIx)
    (hb : ∀ q j, follow arena i q = some j → q.length < fuel) :
    ∃ t', visit arena fuel i p t = .ok t' := by
  induction fuel generalizing i p t with
  | zero => exact absurd (hb [] i rfl) (Nat.lt_irrefl 0)
  | succ fuel ih =>
    obtain ⟨nd, hnd⟩ := recordAt_of_ne_nil arena hi
    have hrec := recordAt_ok.1 hnd
    unfold visit
    rw [hnd]
    dsimp only
    cases hk : nd.kind with
    | leaf => exact ⟨_, rfl⟩
    | internal =>
      have part : ∀ b (u : CodeTable), ∃ u', (if nd.child b ≠ nilIx then
          visit arena fuel (nd.child b) (p ++ [b]) u else .ok u) = .ok u' := by
        intro b u
        split
        · rename_i hc
          refine ih hc fun q j hq => ?_
          have := hb (b :: q) j (by rw [follow_cons hrec hk b hc]; exact hq)
          simpa using this
        · exact ⟨u, rfl⟩
      obtain ⟨u, hu⟩ := part false t
      obtain ⟨v, hv⟩ := part true u
      refine ⟨v, ?_⟩
      have hu' : (if nd.left ≠ nilIx then visit arena fuel nd.left (p ++ [false]) t else .ok t) = .ok u := hu
      simp only [hu']
      exact hv

/-! ## The paths of a tree -/

/-- The number of keys is at most 256. -/
theorem State.TreeInvariant.count_le {s : State} (h : s.TreeInvariant) : s.symcnt.toNat ≤ 256 := by
  have := keys_length_le s.freq
  have := h.count.1
  omega

/-- Where the root stands. -/
theorem State.TreeInvariant.root_eq {s : State} (h : s.TreeInvariant) :
    s.root.toNat = if s.symcnt.toNat = 1 then 1 else 2 * s.symcnt.toNat - 2 := by
  split
  · rename_i h1
    rw [(h.single h1).2.1]
    rfl
  · rename_i h1
    exact (h.size (by have := h.count.2; omega)).2

/-- A record up to the root is the Leaf of its key, or Internal with children of smaller index. -/
theorem State.TreeInvariant.record {s : State} (h : s.TreeInvariant) {i : Nat} {nd : Node}
    (hi : i ≤ s.root.toNat) (hnd : s.node[i]? = some nd) :
    (i < s.symcnt.toNat ∧ ∃ sy, (keys s.freq)[i]? = some sy ∧
      nd.IsLeaf sy (entry s.freq sy).toNat) ∨
    (s.symcnt.toNat ≤ i ∧ nd.kind = .internal ∧ nd.left ≠ nd.right ∧
      ∀ b, nd.child b ≠ nilIx → (nd.child b).toNat < i) := by
  have hc := h.count
  have hr := h.root_eq
  by_cases hin : i < s.symcnt.toNat
  · left
    have hk : i < (keys s.freq).length := by omega
    obtain ⟨nd', hnd', hl⟩ := h.leaves i hk
    have : nd = nd' := by simpa [hnd] using hnd'
    subst this
    exact ⟨hin, (keys s.freq)[i], List.getElem?_eq_getElem hk, hl⟩
  · right
    refine ⟨by omega, ?_⟩
    by_cases h1 : s.symcnt.toNat = 1
    · rw [if_pos h1] at hr
      obtain rfl : i = 1 := by omega
      obtain ⟨nd', hnd', hk, -, -, hl, hrt⟩ := (h.single h1).2.2
      have : nd = nd' := Option.some.inj (hnd.symm.trans hnd')
      subst this
      have hn : nd.right = nilIx := BitVec.eq_of_toNat_eq hrt
      refine ⟨hk, ?_, ?_⟩
      · intro e
        rw [e, hrt] at hl
        omega
      · intro b hb
        cases b with
        | false => change nd.left.toNat < 1; omega
        | true => exact absurd hn hb
    · rw [if_neg h1] at hr
      obtain ⟨nd', hnd', hl, hrt, hne, hint⟩ := h.inner (by omega) i (by omega) (by omega)
      have : nd = nd' := by simpa [hnd] using hnd'
      subst this
      refine ⟨hint.1, hne, ?_⟩
      intro b _
      cases b with
      | false => exact hl
      | true => exact hrt

/-- A path goes down to smaller indices, and all its records but the last are Internal. -/
theorem State.TreeInvariant.path_bound {s : State} (h : s.TreeInvariant) {q : List Bit} {i j : NodeIx}
    (hi : i.toNat ≤ s.root.toNat) (hq : follow s.node i q = some j) :
    j.toNat + q.length ≤ i.toNat ∧ (q ≠ [] → s.symcnt.toNat + (q.length - 1) ≤ i.toNat) := by
  induction q generalizing i with
  | nil =>
    simp only [follow_nil, Option.some.injEq] at hq
    subst hq
    simp
  | cons b q ih =>
    simp only [follow] at hq
    split at hq
    · cases hq
    · rename_i nd hnd
      split at hq
      · rename_i hk
        split at hq
        · cases hq
        · rename_i hc
          rcases h.record hi hnd with ⟨-, sy, -, hl⟩ | ⟨hn, -, -, hlt⟩
          · rw [hl.1] at hk; cases hk
          · have hlt := hlt b hc
            obtain ⟨h1, h2⟩ := ih (by omega) hq
            refine ⟨by simp only [List.length_cons]; omega, fun _ => ?_⟩
            simp only [List.length_cons]
            cases q with
            | nil => simpa using hn
            | cons c q =>
              have := h2 (by simp)
              simp only [List.length_cons] at this ⊢
              omega
      · cases hq

/-- No path from the root is longer than `n - 1` bits, or 1 bit for a single key (rule R139). -/
theorem State.TreeInvariant.path_length {s : State} (h : s.TreeInvariant) {q : List Bit} {j : NodeIx}
    (hq : follow s.node s.root q = some j) : q.length ≤ max 1 (s.symcnt.toNat - 1) := by
  have hr := h.root_eq
  have hc := h.count
  cases q with
  | nil => simp
  | cons b q =>
    have := (h.path_bound (Nat.le_refl _) hq).2 (by simp)
    simp only [List.length_cons] at this ⊢
    split at hr <;> omega

/-- The last step of a path. -/
theorem follow_concat {arena : Vector Node 511} {i j : NodeIx} {p : List Bit} {b : Bit} :
    follow arena i (p ++ [b]) = some j ↔ ∃ k nd, follow arena i p = some k ∧
      arena[k.toNat]? = some nd ∧ nd.kind = .internal ∧ nd.child b = j ∧ j ≠ nilIx := by
  rw [follow_append]
  constructor
  · intro h
    rw [Option.bind_eq_some_iff] at h
    obtain ⟨k, hk, h⟩ := h
    simp only [follow] at h
    split at h
    · cases h
    · rename_i nd hnd
      split at h
      · rename_i hi
        split at h
        · cases h
        · rename_i hc
          injection h with h
          exact ⟨k, nd, hk, hnd, hi, h, h ▸ hc⟩
      · cases h
  · rintro ⟨k, nd, hk, hnd, hi, rfl, hc⟩
    simp [hk, follow, hnd, hi, hc]

/-- Two paths from the root to one record are equal. -/
theorem State.TreeInvariant.path_unique {s : State} (h : s.TreeInvariant) {q q' : List Bit} {j : NodeIx}
    (hq : follow s.node s.root q = some j) (hq' : follow s.node s.root q' = some j) : q = q' := by
  have hr := h.root_eq
  have hc := h.count
  induction q using List.reverseRecOn generalizing q' j with
  | nil =>
    simp only [follow_nil, Option.some.injEq] at hq
    subst hq
    have := (h.path_bound (Nat.le_refl _) hq').1
    exact (List.length_eq_zero_iff.1 (by omega)).symm
  | append_singleton p b ih =>
    obtain ⟨k, nd, hk, hnd, hint, hcb, hj⟩ := follow_concat.1 hq
    have hkr : k.toNat ≤ s.root.toNat := by
      have := (h.path_bound (Nat.le_refl _) hk).1
      omega
    cases q' using List.reverseRecOn with
    | nil =>
      simp only [follow_nil, Option.some.injEq] at hq'
      subst hq'
      have := (h.path_bound (Nat.le_refl _) hq).1
      simp at this
    | append_singleton p' b' =>
      obtain ⟨k', nd', hk', hnd', hint', hcb', -⟩ := follow_concat.1 hq'
      have hkr' : k'.toNat ≤ s.root.toNat := by
        have := (h.path_bound (Nat.le_refl _) hk').1
        omega
      have child_of : ∀ {m : NodeIx} {x : Node} {c : Bit}, s.node[m.toNat]? = some x →
          x.kind = .internal → x.child c = j → IsChild s.node m.toNat j.toNat := by
        intro m x c hx hxi hxc
        refine ⟨x, hx, hxi, ?_⟩
        cases c with
        | false => left; rw [← hxc]; rfl
        | true => right; rw [← hxc]; rfl
      have hkk : k = k' := by
        rcases h.record hkr hnd with ⟨-, sy, -, hl⟩ | ⟨hn, -, -, hlt⟩
        · rw [hl.1] at hint; cases hint
        rcases h.record hkr' hnd' with ⟨-, sy, -, hl⟩ | ⟨hn', -, -, hlt'⟩
        · rw [hl.1] at hint'; cases hint'
        refine BitVec.eq_of_toNat_eq ?_
        split at hr
        · omega
        · have hjk := hlt b (by rw [hcb]; exact hj)
          rw [hcb] at hjk
          obtain ⟨m, -, hm⟩ := h.owned (by omega) j.toNat (by omega)
          rw [hm k.toNat ⟨by omega, child_of hnd hint hcb⟩,
            hm k'.toNat ⟨by omega, child_of hnd' hint' hcb'⟩]
      subst hkk
      have hnn : nd = nd' := by simpa [hnd] using hnd'
      subst hnn
      obtain rfl := ih hk hk'
      have hbb : b = b' := by
        rcases h.record hkr hnd with ⟨-, sy, -, hl⟩ | ⟨-, -, hne, -⟩
        · rw [hl.1] at hint; cases hint
        · cases b <;> cases b' <;> first
            | rfl
            | exact absurd (hcb.trans hcb'.symm) hne
            | exact absurd (hcb'.trans hcb.symm) hne
      rw [hbb]

/-- Every record up to the root is reached by a path. -/
theorem State.TreeInvariant.path_exists {s : State} (h : s.TreeInvariant) (c : NodeIx)
    (hc : c.toNat ≤ s.root.toNat) : ∃ q, follow s.node s.root q = some c := by
  have hr := h.root_eq
  have hcnt := h.count
  have hle := h.count_le
  generalize hm : s.root.toNat - c.toNat = m
  induction m using Nat.strongRecOn generalizing c with
  | _ m ih =>
    by_cases e : c = s.root
    · exact ⟨[], by rw [e]; rfl⟩
    · have hlt : c.toNat < s.root.toNat := by
        have : c.toNat ≠ s.root.toNat := fun e' => e (BitVec.eq_of_toNat_eq e')
        omega
      have hnil : c ≠ nilIx := by
        intro e'
        rw [e'] at hlt
        have : nilIx.toNat = 511 := rfl
        split at hr <;> omega
      obtain ⟨i, nd, hi, hnd, hint, hch⟩ : ∃ i nd, i ≤ s.root.toNat ∧ s.node[i]? = some nd ∧
          nd.kind = .internal ∧ (nd.left.toNat = c.toNat ∨ nd.right.toNat = c.toNat) := by
        by_cases h1 : s.symcnt.toNat = 1
        · rw [if_pos h1] at hr
          obtain ⟨nd, hnd, hk, -, -, hl, -⟩ := (h.single h1).2.2
          exact ⟨1, nd, by omega, hnd, hk, .inl (by omega)⟩
        · rw [if_neg h1] at hr
          obtain ⟨i, ⟨hi, nd, hnd, hk, hch⟩, -⟩ := h.owned (by omega) c.toNat (by omega)
          exact ⟨i, nd, by omega, hnd, hk, hch⟩
      obtain ⟨b, hb⟩ : ∃ b, nd.child b = c := by
        rcases hch with e | e
        · exact ⟨false, BitVec.eq_of_toNat_eq e⟩
        · exact ⟨true, BitVec.eq_of_toNat_eq e⟩
      rcases h.record hi hnd with ⟨-, sy, -, hl⟩ | ⟨-, -, -, hlt'⟩
      · rw [hl.1] at hint; cases hint
      have hci := hlt' b (by rw [hb]; exact hnil)
      rw [hb] at hci
      have hi512 : i < 512 := by split at hr <;> omega
      have hin : (BitVec.ofNat 9 i).toNat = i := by
        rw [BitVec.toNat_ofNat]; exact Nat.mod_eq_of_lt hi512
      obtain ⟨q, hq⟩ := ih (s.root.toNat - i) (by omega) (BitVec.ofNat 9 i) (by omega) (by omega)
      exact ⟨q ++ [b], follow_concat.2 ⟨_, nd, hq, by rw [hin]; exact hnd, hint, hb, hnil⟩⟩

/-- A code leads to the Leaf of a key, at the key's place in ascending order. -/
theorem State.TreeInvariant.code_key {s : State} (h : s.TreeInvariant) {q : List Bit} {sy : Byte}
    (hq : IsCode s.node s.root q sy) :
    ∃ j, follow s.node s.root q = some j ∧ (keys s.freq)[j.toNat]? = some sy := by
  obtain ⟨j, hj, nd, hnd, hk, hs⟩ := hq
  have hjr : j.toNat ≤ s.root.toNat := by
    have := (h.path_bound (Nat.le_refl _) hj).1
    omega
  rcases h.record hjr hnd with ⟨-, sy', hsy', hl⟩ | ⟨-, hint, -, -⟩
  · exact ⟨j, hj, by rw [hsy', ← hl.2.1, hs]⟩
  · rw [hk] at hint; cases hint

/-- A symbol has at most one code. -/
theorem State.TreeInvariant.code_unique {s : State} (h : s.TreeInvariant) {q q' : List Bit} {sy : Byte}
    (hq : IsCode s.node s.root q sy) (hq' : IsCode s.node s.root q' sy) : q = q' := by
  obtain ⟨j, hj, hk⟩ := h.code_key hq
  obtain ⟨j', hj', hk'⟩ := h.code_key hq'
  have hlt : j.toNat < (keys s.freq).length := (List.getElem?_eq_some_iff.1 hk).1
  have : j.toNat = j'.toNat := (List.getElem?_inj hlt (keys_nodup s.freq)).1 (hk.trans hk'.symm)
  obtain rfl : j = j' := BitVec.eq_of_toNat_eq this
  exact h.path_unique hj hj'

/-- Every key has a code of at least one bit. -/
theorem State.TreeInvariant.code_exists {s : State} (h : s.TreeInvariant) {sy : Byte}
    (hsy : sy ∈ keys s.freq) : ∃ q, q ≠ [] ∧ IsCode s.node s.root q sy := by
  obtain ⟨k, hk, rfl⟩ := List.getElem_of_mem hsy
  have hc := h.count
  have hle := h.count_le
  have hr := h.root_eq
  have hk9 : (BitVec.ofNat 9 k).toNat = k := by
    rw [BitVec.toNat_ofNat]; exact Nat.mod_eq_of_lt (by omega)
  have hkr : k < s.root.toNat := by split at hr <;> omega
  obtain ⟨q, hq⟩ := h.path_exists (BitVec.ofNat 9 k) (by omega)
  obtain ⟨nd, hnd, hl⟩ := h.leaves k hk
  refine ⟨q, ?_, _, hq, nd, by rw [hk9]; exact hnd, hl.1, hl.2.1⟩
  rintro rfl
  simp only [follow_nil, Option.some.injEq] at hq
  rw [hq] at hkr
  omega

end Sys2Proof.Machine
end

