-- ==== Sys2Proof/Laws/HostPort.lean ====
section
/-! SUPPORT. What each action of the host but a command can do, one lemma per function. -/

namespace Sys2Proof.Machine

/-- A write to `IN_LEN` stores the length or does nothing (rules R34, R55 and R65). -/
theorem inLenWrite_cases (n : Len) (s : State) :
    (s.phase = .idle ∧ n.toNat ≤ s.config.inCap ∧ inLenWrite n s = { s with inLen := n }) ∨
    (¬ (s.phase = .idle ∧ n.toNat ≤ s.config.inCap) ∧ inLenWrite n s = s) := by
  unfold inLenWrite
  split
  · rename_i h; exact .inl ⟨h.1, h.2, rfl⟩
  · rename_i h; exact .inr ⟨h, rfl⟩

/-- A write to `IN_LEN` changes no byte cell (rule R65). -/
@[simp] theorem inLenWrite_byteAt (n : Len) (s : State) (sp : Space) (a : Nat) :
    (inLenWrite n s).byteAt sp a = s.byteAt sp a := by
  rcases inLenWrite_cases n s with ⟨-, -, h⟩ | ⟨-, h⟩ <;> rw [h]
  cases sp <;> rfl

/-- A write to `IN_LEN` changes no bit cell (rule R65). -/
@[simp] theorem inLenWrite_bitAt (n : Len) (s : State) (a : Nat) :
    (inLenWrite n s).bitAt a = s.bitAt a := by
  rcases inLenWrite_cases n s with ⟨-, -, h⟩ | ⟨-, h⟩ <;> rw [h]
  rfl

/-- A write to `IN[a]` stores the byte or does nothing (rule R55). -/
theorem inputWrite_cases (a : Nat) (v : Byte) (s : State) :
    (s.phase = .idle ∧ a < s.config.inCap ∧
      inputWrite a v s = { s with inBuf := s.inBuf.write a v }) ∨
    (¬ (s.phase = .idle ∧ a < s.config.inCap) ∧ inputWrite a v s = s) := by
  unfold inputWrite
  split
  · rename_i h; exact .inl ⟨h.1, h.2, rfl⟩
  · rename_i h; exact .inr ⟨h, rfl⟩

/-- The cells of `IN` after an accepted write (rule R55). -/
theorem inputWrite_byteAt {a : Nat} {v : Byte} {s : State}
    (h : s.phase = .idle ∧ a < s.config.inCap) (b : Nat) :
    (inputWrite a v s).byteAt .inp b = if b = a then v else s.byteAt .inp b := by
  rw [inputWrite, if_pos h]
  change ((s.inBuf.write a v).read? b).getD _ = _
  rw [Memory.read?_write]
  split <;> rfl

/-- A host read changes what the model keeps of the host's reads alone (rule R65). -/
theorem readBy_frame (l : Loc) (s : State) :
    readBy l s = { s with lastRead := (readBy l s).lastRead, draws := (readBy l s).draws } := by
  unfold readBy
  split <;> rfl

/-- A host read of a location with a specified value returns it (rule R30). -/
theorem readBy_of_some {l : Loc} {s : State} {v : Nat} (h : hostRead l s = some v) :
    readBy l s = { s with lastRead := some v } := by
  simp [readBy, h]

end Sys2Proof.Machine
end

