-- ==== Sys2Proof/Laws/PerInstr.lean ====
section
/-! SUPPORT. The family `Encoding`: what holds of every command as syntax. -/

namespace Sys2Proof.Laws.Encoding

/-- A command is well formed, its code is below `0x0D`, and the decoder reads it back (rules R81, R82
and R84). -/
def Statement (i : Instr) : Prop :=
  i.wf = true ∧ (encode i).toNat < 0x0D ∧ decode (encode i) = .ok i

theorem clr : Statement .clr := ⟨rfl, by decide, rfl⟩
theorem cnt : Statement .cnt := ⟨rfl, by decide, rfl⟩
theorem bld : Statement .bld := ⟨rfl, by decide, rfl⟩
theorem gen : Statement .gen := ⟨rfl, by decide, rfl⟩
theorem enc : Statement .enc := ⟨rfl, by decide, rfl⟩
theorem pck : Statement .pck := ⟨rfl, by decide, rfl⟩
theorem ser : Statement .ser := ⟨rfl, by decide, rfl⟩
theorem par : Statement .par := ⟨rfl, by decide, rfl⟩
theorem upk : Statement .upk := ⟨rfl, by decide, rfl⟩
theorem wlk : Statement .wlk := ⟨rfl, by decide, rfl⟩
theorem emt : Statement .emt := ⟨rfl, by decide, rfl⟩
theorem cmp : Statement .cmp := ⟨rfl, by decide, rfl⟩
theorem dcm : Statement .dcm := ⟨rfl, by decide, rfl⟩

end Sys2Proof.Laws.Encoding
end

