-- ==== Sys2Proof/Tests/Slice0.lean ====
section
/-! SUPPORT. The model's own tests. The expected values are those of spec/95_test_vectors.md (the
vector is named in each docstring), never the model's answers. After the tests stand the witnesses:
for each statement with hypotheses a state and operands that meet all of them. -/

namespace Sys2Proof.Tests
open Sys2Proof.Machine

set_option Elab.async false

/-! ## Building small states -/

/-- Large capacities, as the vectors assume. -/
def caps : Config := { inCap := 2048, outCap := 2048, payCap := 2048 }

/-- Idle after reset, the host having loaded `bs` (`LOAD`, rule R87). -/
def ready (c : Config) (bs : List Byte) : State :=
  { State.reset with
    config := c, inBuf := Memory.run 0 bs, inLen := BitVec.ofNat 40 bs.length }

/-- The outcome is a next state that passes the check. -/
def ends (o : StepResult) (p : State → Bool) : Bool :=
  match o with
  | .next t => p t
  | .fault _ => false
  | .refused _ => false

theorem exists_of_ends {o : StepResult} {p : State → Bool} (h : ends o p = true) :
    ∃ t, o = .next t ∧ p t = true := by
  cases o with
  | next t => exact ⟨t, rfl, h⟩
  | fault f => cases h
  | refused r => cases h

/-- A register file that is `zero` but for the listed entries. -/
def table {α : Type} (zero : α) (es : List (Byte × α)) : Vector α 256 :=
  es.foldl (fun t e => setEntry t e.1 e.2) (Vector.replicate 256 zero)

/-- An arena whose first records are `ns`, the others zero. -/
def arena (ns : List Node) : Vector Node 511 :=
  ns.zipIdx.foldl (fun t e => t.setIfInBounds e.2 e.1) (Vector.replicate 511 Node.zero)

/-- `Leaf(s, w)` of spec/95_test_vectors.md. -/
def leaf (s : Byte) (w : Weight) : Node := ⟨.leaf, s, w, 511#9, 511#9⟩

/-- `Int(w, l, r)` of spec/95_test_vectors.md. -/
def int (w : Weight) (l r : NodeIx) : Node := ⟨.internal, 0#8, w, l, r⟩

/-! ### The one-key input `41` (V21) -/

def freqA : Vector Count 256 := table 0 [(0x41, 1)]
def arenaA : Vector Node 511 := arena [leaf 0x41 1, int 1 0 511]
def boxA : List Byte := [0x01, 0x00, 0x41, 0x01, 0x00, 0x00, 0x00, 0x07, 0x00]

def countedA : State := { ready caps [0x41] with phase := .counted, freq := freqA, symcnt := 1 }
def builtA : State := { countedA with phase := .treeBuilt, node := arenaA, nnodes := 2, root := 1 }
def codedA : State := { builtA with ctv := true, clen := table 0 [(0x41, 1)] }
def bitsA : State := { codedA with bsv := true, bits := [(0, false)], bitLen := 1 }
def encodedA : State := { bitsA with phase := .encoded, padLen := 7, pay := [(0, 0x00)], payLen := 1 }
def writtenA : State := { encodedA with phase := .written, out := Memory.run 0 boxA, outLen := 9 }
def parsedA : State :=
  { ready caps boxA with
    phase := .parsed, freq := freqA, symcnt := 1, padLen := 7, pay := [(0, 0x00)], payLen := 1 }
def rebuiltA : State := { parsedA with phase := .treeRebuilt, node := arenaA, nnodes := 2, root := 1 }
def unpackedA : State := { rebuiltA with bsv := true, bits := [(0, false)], bitLen := 1 }
def decodedA : State := { unpackedA with phase := .decoded, dbuf := [(0, 0x41)], dLen := 1 }

/-! ### The two-key input "aaab" (V1, V6, V16, P1, P2) -/

def freqAB : Vector Count 256 := table 0 [(0x61, 3), (0x62, 1)]
def arenaAB : Vector Node 511 := arena [leaf 0x61 3, leaf 0x62 1, int 4 1 0]
def aaab : List Byte := [0x61, 0x61, 0x61, 0x62]
def boxAB : List Byte := [0x02, 0x00, 0x61, 0x03, 0x00, 0x00, 0x00, 0x62, 0x01, 0x00, 0x00, 0x00, 0x04, 0xe0]

def countedAB : State := { ready caps aaab with phase := .counted, freq := freqAB, symcnt := 2 }
def builtAB : State :=
  { countedAB with phase := .treeBuilt, node := arenaAB, nnodes := 3, root := 2 }
def codedAB : State :=
  { builtAB with ctv := true, clen := table 0 [(0x61, 1), (0x62, 1)], cbits := table 0 [(0x61, 1)] }
def bitsAB : State :=
  { codedAB with bsv := true, bits := Memory.run 0 [true, true, true, false], bitLen := 4 }
def encodedAB : State :=
  { bitsAB with phase := .encoded, padLen := 4, pay := [(0, 0xe0)], payLen := 1 }
def rebuiltAB : State :=
  { ready caps boxAB with
    phase := .treeRebuilt, freq := freqAB, symcnt := 2, node := arenaAB, nnodes := 3, root := 2,
    padLen := 4, pay := [(0, 0xe0)], payLen := 1 }
def unpackedAB : State :=
  { rebuiltAB with bsv := true, bits := Memory.run 0 [true, true, true, false], bitLen := 4 }
def decodedAB : State := { unpackedAB with phase := .decoded, dbuf := Memory.run 0 aaab, dLen := 4 }

/-! ### The three-key table of "aaabc" (V5) and the five-key table of "abracadabra" (V8) -/

def freqABC : Vector Count 256 := table 0 [(0x61, 3), (0x62, 1), (0x63, 1)]
def arenaABC : Vector Node 511 :=
  arena [leaf 0x61 3, leaf 0x62 1, leaf 0x63 1, int 2 1 2, int 5 3 0]

/-- `BITS = "111000"` of V29, row 3. -/
def unpackedABC : State :=
  { rebuiltAB with
    freq := freqABC, symcnt := 3, node := arenaABC, nnodes := 5, root := 4, bsv := true,
    bits := Memory.run 0 [true, true, true, false, false, false], bitLen := 6 }

def freqAbra : Vector Count 256 := table 0 [(0x61, 5), (0x62, 2), (0x63, 1), (0x64, 1), (0x72, 2)]
def nodesAbra : List Node :=
  [leaf 0x61 5, leaf 0x62 2, leaf 0x63 1, leaf 0x64 1, leaf 0x72 2,
   int 2 2 3, int 4 1 4, int 6 5 6, int 11 0 7]
def countedAbra : State := { ready caps [] with phase := .counted, freq := freqAbra, symcnt := 5 }
def builtAbra : State :=
  { countedAbra with phase := .treeBuilt, node := arena nodesAbra, nnodes := 9, root := 8 }

/-! ## Well-formedness: each check refuses an ill-formed term -/

/-- Rule R8: `1 <= IN_CAP <= 2^31 - 1`. -/
theorem test_wf_inCap :
    Config.legal { caps with inCap := 0 } = false ∧
    Config.legal { caps with inCap := 2 ^ 31 } = false ∧
    Config.legal { caps with inCap := 1 } = true ∧
    Config.legal { caps with inCap := 2 ^ 31 - 1 } = true := by decide

/-- Rule R8: `3 <= OUT_CAP < 2^40`. -/
theorem test_wf_outCap :
    Config.legal { caps with outCap := 2 } = false ∧
    Config.legal { caps with outCap := 2 ^ 40 } = false ∧
    Config.legal { caps with outCap := 3 } = true ∧
    Config.legal { caps with outCap := 2 ^ 40 - 1 } = true := by decide

/-- Rule R8: `1 <= PAY_CAP < 2^37`. -/
theorem test_wf_payCap :
    Config.legal { caps with payCap := 0 } = false ∧
    Config.legal { caps with payCap := 2 ^ 37 } = false ∧
    Config.legal { caps with payCap := 1 } = true ∧
    Config.legal Config.largest = true := by decide

/-- Rule R55: `CMD`, `IN_LEN` and `IN[a]` are the locations a host writes. -/
theorem test_wf_readOnly :
    HostAction.wf (.writeReadOnly .cmd 0) = false ∧
    HostAction.wf (.writeReadOnly .inLen 0) = false ∧
    HostAction.wf (.writeReadOnly (.cell .inp 0) 0) = false ∧
    HostAction.wf (.writeReadOnly (.cell .out 0) 0) = true ∧
    HostAction.wf (.writeReadOnly .padLen 0) = true := by decide

/-- Rules R80 and R81: a command has no operand, so there is no ill-formed one. -/
theorem test_wf_instr : [Instr.clr, .cnt, .bld, .gen, .enc, .pck, .ser, .par, .upk, .wlk, .emt, .cmp,
    .dcm].all Instr.wf = true := by decide

/-- Canonical form: indices that do not rise are refused. -/
theorem test_wf_memory :
    Memory.wf [(1, 0x00#8), (0, 0x00#8)] = false ∧ Memory.wf [(0, 0x00#8), (0, 0x01#8)] = false ∧
    Memory.wf [(0, 0x00#8), (1, 0x00#8)] = true := by decide

/-! ## Decoding: the words of rule R82, bit by bit -/

theorem test_decode_system_and_macros :
    decode 0b00000000#8 = .ok .clr ∧ decode 0b00001011#8 = .ok .cmp ∧
    decode 0b00001100#8 = .ok .dcm := by decide

theorem test_decode_compression :
    decode 0b00000001#8 = .ok .cnt ∧ decode 0b00000010#8 = .ok .bld ∧
    decode 0b00000011#8 = .ok .gen ∧ decode 0b00000100#8 = .ok .enc ∧
    decode 0b00000101#8 = .ok .pck ∧ decode 0b00000110#8 = .ok .ser := by decide

theorem test_decode_decompression :
    decode 0b00000111#8 = .ok .par ∧ decode 0b00001000#8 = .ok .upk ∧
    decode 0b00001001#8 = .ok .wlk ∧ decode 0b00001010#8 = .ok .emt := by decide

/-- V35: reserved codes, each with one bit more or less than a command's. -/
theorem test_decode_reserved :
    [0x0D#8, 0x10#8, 0x7F#8, 0x80#8, 0x8C#8, 0xFF#8].all
      (fun w => decode w = .error (.reserved w)) = true := by decide

/-- No two rows of the table select one word. -/
theorem test_rows_disjoint :
    opTable.Pairwise fun r q => r.code &&& q.mask ≠ q.code &&& r.mask := by decide

theorem test_decodeTableWord :
    decodeTableWord 8 0x0C = some .dcm ∧ decodeTableWord 8 0x0D = none ∧
    decodeTableWord 16 0x0C = none ∧ decodeTableWord 8 0x10C = none := by decide

/-! ## One host action -/

/-- The first step after a program word is placed runs that command: `CNT` of nothing (V2). -/
theorem test_step_runs_the_word : ends (step (State.reset.withFetchWord 8 0x01)) (fun t =>
    t.phase = .encoded && t.padLen = 8 && t.symcnt = 0 && t.host = []) = true := by decide +kernel

/-- V35: `UsageError` in Failed too. -/
theorem test_step_reserved :
    ends (step { State.reset with phase := .failed, host := [.command 0xFF] }) (fun t =>
      t.result = .usageError && t.cause = .none && t.es && t.phase = .failed) = true := by
  decide +kernel

/-- V36: host writes in Idle and out of it. -/
theorem test_host_writes :
    ends (step { ready caps [] with host := [.writeIn 5 0x41] }) (fun t => t.byteAt .inp 5 = 0x41) = true ∧
    ends (step { ready caps [] with host := [.writeInLen 2049] }) (fun t => t.inLen = 0) = true ∧
    ends (step { countedAB with host := [.writeInLen 1] }) (fun t => t.inLen = 4) = true ∧
    ends (step { countedAB with host := [.writeIn 0 0x55] }) (fun t => t.input = aaab) = true := by
  decide +kernel

/-- Rule R65: a write to `IN_LEN` only stores, so an input cell that nothing has written and that is
valid before and after it keeps its value. -/
theorem test_inLen_write_keeps_cells :
    let s : State := { ready caps [] with inLen := 2 }
    ∀ t, step { s with host := [.writeInLen 3] } = .next t →
      t.inLen = 3 ∧ t.byteAt .inp 1 = s.byteAt .inp 1 := by
  rintro s t h
  cases h
  exact ⟨by decide, rfl⟩

/-- Rules R24, R27 and R44: `PHASE`, `FLAGS` and `CBITS` as the host reads them (V17 and P1). -/
theorem test_host_reads :
    hostRead .phase bitsAB = some 2 ∧ hostRead .flags bitsAB = some 3 ∧
    hostRead (.cbits 0x61) bitsAB = some 1 ∧ hostRead .root bitsAB = some 2 ∧
    hostRead (.cell .out 0) bitsAB = none := by decide +kernel

/-- V34, the acceptance matrix: the commands accepted besides `CLR`, by state. -/
theorem test_acceptance :
    let all : List Instr := [.cnt, .bld, .gen, .enc, .pck, .ser, .par, .upk, .wlk, .emt, .cmp, .dcm]
    let row := fun (ph : Phase) (ctv bsv : Bool) =>
      all.filter (accepts · { State.reset with phase := ph, ctv := ctv, bsv := bsv })
    row .idle false false = [.cnt, .par, .cmp, .dcm] ∧ row .counted false false = [.bld] ∧
    row .treeBuilt false false = [.gen] ∧ row .treeBuilt true false = [.enc] ∧
    row .treeBuilt true true = [.pck] ∧ row .encoded true true = [.ser] ∧
    row .written true true = [] ∧ row .parsed false false = [.bld] ∧
    row .treeRebuilt false false = [.upk] ∧ row .treeRebuilt false true = [.wlk] ∧
    row .decoded false true = [.emt] ∧ row .failed true true = [] := by decide +kernel

/-! ## The commands -/

/-- V4 (a): extreme byte values. -/
theorem test_cnt : ends (exec .cnt (ready caps [0x00, 0xff, 0x00, 0xff, 0x07])) (fun t =>
    keys t.freq = [0x00, 0x07, 0xff] && entry t.freq 0x00 = 2 && entry t.freq 0x07 = 1 &&
    t.symcnt = 3 && t.phase = .counted) = true := by decide +kernel

/-- V4 (c): `CNT` in Counted is refused, and `BLD` in Idle (V15). -/
theorem test_out_of_place :
    ends (exec .cnt countedAB) (fun t =>
      t.result = .sequenceError && t.cause = .none && t.es && t.phase = .counted) = true ∧
    ends (exec .bld (ready caps [])) (fun t => t.result = .sequenceError && t.phase = .idle) = true := by
  decide +kernel

/-- V8: ties between a Leaf and an Internal record. -/
theorem test_bld : ends (exec .bld countedAbra) (fun t =>
    t.node.toList.take 9 = nodesAbra && t.nnodes = 9 && t.root = 8 && t.phase = .treeBuilt) = true := by
  decide +kernel

/-- V14: a weight beyond 32 bits, and the phase after Parsed. -/
theorem test_bld_wide :
    ends (exec .bld { parsedA with freq := table 0 [(0, 0x7fffffff), (1, 0x7fffffff)], symcnt := 2 })
      (fun t => t.node[2] = int 4294967294 0 1 && t.root = 2 && t.phase = .treeRebuilt) = true := by
  decide +kernel

/-- V17: path bit `i` stands at register bit `i`. -/
theorem test_gen : ends (exec .gen builtAbra) (fun t =>
    entry t.cbits 0x62 = 3 && entry t.cbits 0x63 = 1 && entry t.cbits 0x64 = 5 &&
    entry t.cbits 0x72 = 7 && entry t.clen 0x61 = 1 && entry t.clen 0x64 = 3 && entry t.clen 0x65 = 0 &&
    t.ctv && t.phase = .treeBuilt) = true := by decide +kernel

/-- P1: `ENC` of "aaab". -/
theorem test_enc : ends (exec .enc codedAB) (fun t =>
    t.bitSeq = [true, true, true, false] && t.bitLen = 4 && t.bsv && t.phase = .treeBuilt) = true := by
  decide +kernel

/-- V22: nine bits, most significant bit first. -/
theorem test_pck : ends (exec .pck { bitsAB with
      bits := Memory.run 0 [true, false, true, false, true, false, true, false, true], bitLen := 9 })
    (fun t => t.payload = [0xaa, 0x80] && t.padLen = 7 && t.phase = .encoded) = true := by
  decide +kernel

/-- V24 (a) and S6: a whole number of bytes needs one byte more. -/
theorem test_pck_full : ends (exec .pck { bitsAB with
      config := { caps with payCap := 1 },
      bits := Memory.run 0 [false, true, false, true, false, true, false, true], bitLen := 8 })
    (fun t => t.result = .capacityError && t.cause = .capPay && t.padLen = 0 && t.payLen = 0 &&
      t.phase = .failed && t.es) = true := by decide +kernel

/-- V25: the container of "aaab". -/
theorem test_ser : ends (exec .ser encodedAB) (fun t =>
    t.output = boxAB && t.outLen = 14 && t.phase = .written) = true := by decide +kernel

/-- V26 (b): entries in another order. -/
theorem test_par : ends (exec .par (ready caps
      [0x02, 0x00, 0x62, 0x01, 0x00, 0x00, 0x00, 0x61, 0x03, 0x00, 0x00, 0x00, 0x04, 0xe0])) (fun t =>
    keys t.freq = [0x61, 0x62] && entry t.freq 0x61 = 3 && t.symcnt = 2 && t.padLen = 4 &&
    t.payload = [0xe0] && t.phase = .parsed) = true := by decide +kernel

/-- V27: the first check that fails decides the cause. -/
theorem test_par_refuses :
    ends (exec .par (ready caps [0x01, 0x01, 0x61])) (fun t => t.cause = .symCountRange) = true ∧
    ends (exec .par (ready caps
      [0x02, 0x00, 0x61, 0x00, 0x00, 0x00, 0x00, 0x61, 0x01, 0x00, 0x00, 0x00, 0x00]))
      (fun t => t.cause = .badFrequency && t.phase = .failed) = true ∧
    ends (exec .par (ready caps [0x00, 0x00, 0x08, 0x00])) (fun t => t.cause = .extraPayload) = true := by
  decide +kernel

/-- V23 (d): the filler bit's value is not looked at. -/
theorem test_upk : ends (exec .upk { rebuiltAB with
      pay := Memory.run 0 [0x6e, 0x8a, 0xdd], payLen := 3, padLen := 1 }) (fun t =>
    t.bitSeq = "01101110100010101101110".toList.map (fun c => c == '1') && t.bsv && t.phase = .treeRebuilt) = true := by
  decide +kernel

/-- V23 (e): fewer bits than the padding. -/
theorem test_upk_short : ends (exec .upk { rebuiltAB with payLen := 0 }) (fun t =>
    t.result = .invalidInput && t.cause = .payloadShort && !t.bsv && t.phase = .failed) = true := by
  decide +kernel

/-- V28: the walk over "1110". -/
theorem test_wlk : ends (exec .wlk unpackedAB) (fun t =>
    t.decodedBytes = aaab && t.dLen = 4 && t.phase = .decoded) = true := by decide +kernel

/-- V29, row 3: the bits end inside a code. -/
theorem test_wlk_midCode : ends (exec .wlk unpackedABC) (fun t =>
    t.result = .invalidInput && t.cause = .midCode && t.dLen = 0 && t.phase = .failed) = true := by
  decide +kernel

/-- V28: `EMT`. -/
theorem test_emt : ends (exec .emt decodedAB) (fun t =>
    t.output = aaab && t.outLen = 4 && t.phase = .written) = true := by decide +kernel

/-- V31: `CLR` after a failure. -/
theorem test_clr : ends (exec .clr { unpackedABC with
      phase := .failed, result := .invalidInput, cause := .nullChild, es := true }) (fun t =>
    t.phase = .idle && t.result = .ok && t.cause = .none && t.flags = 0 && t.inLen = 0 &&
    t.symcnt = 0 && t.root = 511 && keys t.freq = [] && t.bitLen = 0) = true := by decide +kernel

/-- V32: `CMP` of "aaab" ends as P1 does. -/
theorem test_cmp : ends (exec .cmp (ready caps aaab)) (fun t =>
    t.output = boxAB && t.flags = 3 && t.symcnt = 2 && t.nnodes = 3 && t.root = 2 && t.bitLen = 4 &&
    t.padLen = 4 && t.payLen = 1 && t.dLen = 0 && t.phase = .written && t.result = .ok) = true := by
  decide +kernel

/-- P7: the capacity failure of a stage ends the macro, its earlier stages kept. -/
theorem test_cmp_full : ends (exec .cmp (ready { caps with payCap := 1 }
      [0x61, 0x62, 0x61, 0x62, 0x61, 0x62, 0x61, 0x62])) (fun t =>
    t.result = .capacityError && t.cause = .capPay && t.flags = 7 && t.outLen = 0 && t.bitLen = 8 &&
    t.padLen = 0 && t.nnodes = 3 && t.phase = .failed) = true := by decide +kernel

/-- V33: `DCM` gives the input back. -/
theorem test_dcm : ends (exec .dcm (ready caps boxAB)) (fun t =>
    t.output = aaab && t.flags = 2 && t.dLen = 4 && t.phase = .written && t.result = .ok) = true := by
  decide +kernel

/-- P4: `NullChild`, what the stages before wrote being kept. -/
theorem test_dcm_nullChild : ends (exec .dcm (ready caps
      [0x01, 0x00, 0x41, 0x03, 0x00, 0x00, 0x00, 0x05, 0x20])) (fun t =>
    t.result = .invalidInput && t.cause = .nullChild && t.flags = 6 && t.symcnt = 1 && t.bitLen = 3 &&
    t.padLen = 5 && t.dLen = 0 && t.outLen = 0 && t.phase = .failed) = true := by decide +kernel

/-! ## States that meet the invariant -/

theorem keys_freqA : keys freqA = [0x41] := by decide +kernel
theorem keys_freqAB : keys freqAB = [0x61, 0x62] := by decide +kernel
theorem keys_freqABC : keys freqABC = [0x61, 0x62, 0x63] := by decide +kernel
theorem freqSum_freqA : freqSum freqA = 1 := by decide +kernel
theorem freqSum_freqAB : freqSum freqAB = 4 := by decide +kernel

/-- The tree of V21 has the tree invariant. -/
theorem tree_A {s : State} (hf : s.freq = freqA) (ha : s.node = arenaA) (hn : s.symcnt = 1)
    (hs : s.nnodes = 2) (hr : s.root = 1) : s.TreeInvariant where
  count := by simp [hf, hn, keys_freqA]
  leaves := by
    rw [hf, ha]; unfold LeavesFirst; rw [keys_freqA]; unfold Node.IsLeaf; decide +kernel
  single := by
    intro _
    refine ⟨by simp [hs], by simp [hr], ?_⟩
    rw [hf, ha, freqSum_freqA]; unfold Node.IsInternal; decide +kernel
  size := by simp [hn]
  inner := by simp [hn]
  owned := by simp [hn]
  rest := by rw [ha, hs]; decide +kernel

/-- The tree of V6 has the tree invariant. -/
theorem tree_AB {s : State} (hf : s.freq = freqAB) (ha : s.node = arenaAB) (hn : s.symcnt = 2)
    (hs : s.nnodes = 3) (hr : s.root = 2) : s.TreeInvariant := by
  refine treeInvariant_of_many (ks := [0x61, 0x62]) (by rw [hf, keys_freqAB]) (by simp [hn]) (by simp)
    (by simp [hs]) (by simp [hr]) ?_ ?_ ?_ ?_
  · rw [hf, ha]; unfold Node.IsLeaf; decide +kernel
  · rw [ha]; unfold Node.IsInternal; decide +kernel
  · rw [ha]; unfold IsChild; decide +kernel
  · rw [ha, hs]; decide +kernel

/-- The tree of V5 has the tree invariant. -/
theorem tree_ABC {s : State} (hf : s.freq = freqABC) (ha : s.node = arenaABC) (hn : s.symcnt = 3)
    (hs : s.nnodes = 5) (hr : s.root = 4) : s.TreeInvariant := by
  refine treeInvariant_of_many (ks := [0x61, 0x62, 0x63]) (by rw [hf, keys_freqABC]) (by simp [hn])
    (by simp) (by simp [hs]) (by simp [hr]) ?_ ?_ ?_ ?_
  · rw [hf, ha]; unfold Node.IsLeaf; decide +kernel
  · rw [ha]; unfold Node.IsInternal; decide +kernel
  · rw [ha]; unfold IsChild; decide +kernel
  · rw [ha, hs]; decide +kernel

/-- The codes of V21 are those of its tree. -/
theorem codes_A {s : State} (hf : s.freq = freqA) (ha : s.node = arenaA) (hr : s.root = 1)
    (hl : s.clen = table 0 [(0x41, 1)]) (hb : s.cbits = Vector.replicate 256 0) : s.CodesOfTree := by
  intro sy
  rw [hf, keys_freqA, hl, hb, ha, hr]
  refine ⟨?_, ?_, ?_⟩
  · intro h
    obtain rfl : sy = 0x41 := by simpa using h
    refine ⟨by decide +kernel, 0#9, ?_, ?_⟩
    · simp only [State.code, hl, hb]; decide +kernel
    · decide +kernel
  · intro h
    have : sy ≠ 65#8 := by simpa using h
    simp [table, entry_setEntry, this]
  · intro i _; simp

/-- Idle, whatever the host has loaded. -/
theorem inv_ready (c : Config) (bs : List Byte) (hc : c.legal = true) (hl : bs.length ≤ c.inCap) :
    (ready c bs).Inv := by
  have hc' := hc
  simp only [Config.legal, Bool.and_eq_true, decide_eq_true_eq] at hc'
  have hn : (ready c bs).inLen.toNat = bs.length := by
    simp only [ready, BitVec.toNat_ofNat]; exact Nat.mod_eq_of_lt (by omega)
  constructor
  case legal => exact hc
  case canonical =>
    simp [State.memoryWf, ready, State.reset, Memory.wf_iff, Memory.run_pairwise]
  case within =>
    refine ⟨?_, ?_⟩
    · intro x hx
      have := Memory.mem_run hx
      simp only [ready]; omega
    · simp [ready, State.reset, Memory.within]
  case covered => simp [ready, State.reset, Memory.covers]
  case lengths =>
    refine ⟨by rw [hn]; exact hl, ?_⟩
    simp [ready, State.reset]
  case frequencies => intro sy; simp [ready, State.reset]
  case count => simp [ready, State.reset]
  case results => simp [ready, State.reset]
  case output => simp [ready, State.reset]
  case idle => intro _; rfl
  all_goals simp [ready, State.reset]

/-- What is left of the invariant of a busy state once its tables, tree and codes are known: its cells, -/
abbrev PlainCells (s : State) : Prop :=
  s.memoryWf = true ∧
  ((∀ c ∈ s.inBuf, c.1 < s.config.inCap) ∧ (∀ c ∈ s.out, c.1 < s.config.outCap) ∧
    (∀ c ∈ s.pay, c.1 < s.config.payCap) ∧ (∀ c ∈ s.bits, c.1 < s.config.bitsCap) ∧
    ∀ c ∈ s.dbuf, c.1 < s.config.outCap) ∧
  (∀ a < s.outLen.toNat, (s.out.read? a).isSome) ∧ (∀ a < s.payLen.toNat, (s.pay.read? a).isSome) ∧
  (∀ a < s.bitLen.toNat, (s.bits.read? a).isSome) ∧
  ∀ a < s.dLen.toNat, (s.dbuf.read? a).isSome

/-- its registers, -/
abbrev PlainRegisters (s : State) : Prop :=
  (s.config.legal = true ∧ s.phase ≠ .idle) ∧
  (s.inLen.toNat ≤ s.config.inCap ∧ s.outLen.toNat ≤ s.config.outCap ∧
    s.payLen.toNat ≤ s.config.payCap ∧ s.bitLen.toNat ≤ s.config.bitsCap ∧
    s.dLen.toNat ≤ s.config.outCap) ∧
  (s.result ≠ .ioError ∧ (s.cause = .none ↔ s.result ≠ .invalidInput ∧ s.result ≠ .capacityError)) ∧
  (s.phase ≠ .written → s.outLen = 0#40) ∧
  (s.phase = .counted ∨ s.phase = .parsed → s.nnodes = 0#10 ∧ s.root = nilIx)

/-- and what depends on its phase. -/
abbrev PlainPhase (s : State) : Prop :=
  (s.ctv = true → s.phase = .treeBuilt ∨ s.phase = .encoded ∨ s.phase = .written ∨
    s.phase = .failed) ∧
  (s.phase = .encoded → (1 ≤ s.padLen.toNat ∧ s.padLen.toNat ≤ 8) ∧
    s.payLen.toNat = s.bitLen.toNat / 8 + 1) ∧
  (s.phase = .parsed ∨ s.phase = .treeRebuilt ∨ s.phase = .decoded →
    1 ≤ s.padLen.toNat ∧ s.padLen.toNat ≤ 8) ∧
  (s.phase = .failed → s.es = true) ∧
  (s.phase = .counted ∨ s.phase = .treeBuilt → s.input = [0x41]) ∧
  (s.bsv = true → (s.phase = .treeBuilt ∧ s.ctv = true) ∨ s.phase = .encoded ∨
    s.phase = .written ∨ s.phase = .treeRebuilt ∨ s.phase = .decoded ∨ s.phase = .failed)

/-- A busy state with the table of V21 meets the invariant. -/
theorem inv_A {s : State} (hf : s.freq = freqA) (hn : s.symcnt = 1)
    (hm : PlainCells s) (hg : PlainRegisters s) (hp : PlainPhase s)
    (ht : s.phase = .treeBuilt ∨ s.phase = .treeRebuilt →
      s.node = arenaA ∧ s.nnodes = 2 ∧ s.root = 1)
    (hk : s.ctv = true → s.node = arenaA ∧ s.root = 1 ∧
      s.clen = table 0 [(0x41, 1)] ∧ s.cbits = Vector.replicate 256 0) : s.Inv := by
  obtain ⟨h2, ⟨h4, h5, h6, h7, h8⟩, h9, h10, h11, h12⟩ := hm
  obtain ⟨⟨h1, h3⟩, hlen, hres, hout, htab⟩ := hg
  obtain ⟨hctv, henc, hpad, hfail, hcnt, hbsv⟩ := hp
  refine
    { legal := h1, canonical := h2, within := ⟨h4, h5, h6, h7, h8⟩, covered := ⟨h9, h10, h11, h12⟩,
      lengths := hlen, frequencies := ?_, count := by rw [hf, keys_freqA, hn]; rfl, results := hres,
      output := hout, tabled := fun hp => ⟨by rw [hn]; decide, htab hp⟩, tree := ?_, codes := ?_,
      encoded := fun hp => ⟨(henc hp).1, .inl ⟨by rw [hn]; decide, (henc hp).2⟩⟩, padded := hpad,
      idle := fun hp => absurd hp h3, failedSeen := hfail, counts := ?_, bitsValid := hbsv }
  · rw [hf]
    exact forall_entry_of_all (P := fun _ (v : Count) => v.toNat ≤ freqMax) (by decide +kernel)
  · intro hp
    obtain ⟨ha, hs, hr⟩ := ht hp
    exact tree_A hf ha hn hs hr
  · intro hc
    obtain ⟨ha, hr, hl, hb⟩ := hk hc
    exact ⟨hctv hc, codes_A hf ha hr hl hb⟩
  · intro hp
    rw [hf, hcnt hp]
    exact forall_entry_of_all (P := fun sy (v : Count) => v.toNat = [(0x41 : Byte)].count sy) (by decide +kernel)

theorem inv_countedA : countedA.Inv :=
  inv_A rfl rfl (by decide +kernel) (by decide +kernel) (by decide +kernel) (by simp [countedA]) (by simp [countedA, ready, State.reset])
theorem inv_builtA : builtA.Inv :=
  inv_A rfl rfl (by decide +kernel) (by decide +kernel) (by decide +kernel) (fun _ => ⟨rfl, rfl, rfl⟩)
    (by simp [builtA, countedA, ready, State.reset])
theorem inv_codedA : codedA.Inv :=
  inv_A rfl rfl (by decide +kernel) (by decide +kernel) (by decide +kernel) (fun _ => ⟨rfl, rfl, rfl⟩) (fun _ => ⟨rfl, rfl, rfl, rfl⟩)
theorem inv_bitsA : bitsA.Inv :=
  inv_A rfl rfl (by decide +kernel) (by decide +kernel) (by decide +kernel) (fun _ => ⟨rfl, rfl, rfl⟩) (fun _ => ⟨rfl, rfl, rfl, rfl⟩)
theorem inv_encodedA : encodedA.Inv :=
  inv_A rfl rfl (by decide +kernel) (by decide +kernel) (by decide +kernel) (fun _ => ⟨rfl, rfl, rfl⟩) (fun _ => ⟨rfl, rfl, rfl, rfl⟩)
theorem inv_writtenA : writtenA.Inv :=
  inv_A rfl rfl (by decide +kernel) (by decide +kernel) (by decide +kernel) (fun _ => ⟨rfl, rfl, rfl⟩) (fun _ => ⟨rfl, rfl, rfl, rfl⟩)
theorem inv_parsedA : parsedA.Inv :=
  inv_A rfl rfl (by decide +kernel) (by decide +kernel) (by decide +kernel) (by simp [parsedA]) (by simp [parsedA, ready, State.reset])
theorem inv_rebuiltA : rebuiltA.Inv :=
  inv_A rfl rfl (by decide +kernel) (by decide +kernel) (by decide +kernel) (fun _ => ⟨rfl, rfl, rfl⟩)
    (by simp [rebuiltA, parsedA, ready, State.reset])
theorem inv_unpackedA : unpackedA.Inv :=
  inv_A rfl rfl (by decide +kernel) (by decide +kernel) (by decide +kernel) (fun _ => ⟨rfl, rfl, rfl⟩)
    (by simp [unpackedA, rebuiltA, parsedA, ready, State.reset])
theorem inv_decodedA : decodedA.Inv :=
  inv_A rfl rfl (by decide +kernel) (by decide +kernel) (by decide +kernel) (fun _ => ⟨rfl, rfl, rfl⟩)
    (by simp [decodedA, unpackedA, rebuiltA, parsedA, ready, State.reset])

/-! ## Witnesses: states and operands that meet the hypotheses of each statement -/

theorem witness_CommandWordsDecode : 0x0D ≤ (0x0D#8).toNat ∧ 0x0D ≤ (0xFF#8).toNat := by decide

theorem witness_StepRunsTheDecodedCommand :
    ({ countedA with host := [.command 0x0C] } : State).host = .command 0x0C :: [] ∧
    decode 0x0C = .ok .dcm ∧ countedA.host = [] := ⟨rfl, rfl, rfl⟩

theorem witness_ReservedCodeIsUsageError :
    ({ writtenA with host := [.command 0x0D] } : State).host = .command 0x0D :: [] ∧
    0x0D ≤ (0x0D#8).toNat := ⟨rfl, by decide⟩

/-- The last cell of `IN`, and the first index beyond it; a length of `IN_CAP`, and one more. -/
theorem witness_HostWritesAreAcceptedOrRefused :
    (∃ s : State, s.host = .writeIn 2047 0x41 :: [] ∧ s.phase = .idle ∧ 2047 < s.config.inCap) ∧
    (∃ s : State, s.host = .writeIn 2048 0x41 :: [] ∧ ¬ (s.phase = .idle ∧ 2048 < s.config.inCap)) ∧
    (∃ s : State, s.host = .writeInLen 2048 :: [] ∧ s.phase = .idle ∧
      (2048#40).toNat ≤ s.config.inCap) ∧
    (∃ s : State, s.host = .writeInLen 2049 :: [] ∧
      ¬ (s.phase = .idle ∧ (2049#40).toNat ≤ s.config.inCap)) ∧
    ∃ s : State, s.host = .writeReadOnly .padLen 1 :: [] :=
  ⟨⟨{ ready caps [] with host := [.writeIn 2047 0x41] }, rfl, rfl, by decide⟩,
   ⟨{ ready caps [] with host := [.writeIn 2048 0x41] }, rfl, by decide⟩,
   ⟨{ ready caps [] with host := [.writeInLen 2048] }, rfl, rfl, by decide⟩,
   ⟨{ ready caps [] with host := [.writeInLen 2049] }, rfl, by decide⟩,
   ⟨{ ready caps [] with host := [.writeReadOnly .padLen 1] }, rfl⟩⟩

/-- Registers, entries and record fields, with the values of V21 and P2, and the last valid cell of
each space. -/
theorem witness_HostReadsHaveNoSideEffect :
    (∀ l, ({ writtenA with host := [.read l] } : State).host = .read l :: []) ∧
    hostRead .phase writtenA = some 4 ∧ hostRead .inLen writtenA = some 1 ∧
    hostRead .symcnt writtenA = some 1 ∧ hostRead .root writtenA = some 1 ∧
    hostRead .nnodes writtenA = some 2 ∧ hostRead .bitLen writtenA = some 1 ∧
    hostRead .padLen writtenA = some 7 ∧ hostRead .payLen writtenA = some 1 ∧
    hostRead .dLen decodedA = some 1 ∧ hostRead (.freq 0x41) writtenA = some 1 ∧
    hostRead (.clen 0x41) writtenA = some 1 ∧ hostRead (.nodeKind 0) writtenA = some 0 ∧
    hostRead (.nodeKind 1) writtenA = some 1 ∧ hostRead (.nodeSym 0) writtenA = some 0x41 ∧
    hostRead (.nodeWeight 1) writtenA = some 1 ∧ hostRead (.nodeLeft 1) writtenA = some 0 ∧
    hostRead (.nodeRight 1) writtenA = some 511 ∧
    (8 < decodedA.inLen.toNat ∧ hostRead (.cell .inp 8) decodedA = some 0) ∧
    (8 < writtenA.outLen.toNat ∧ hostRead (.cell .out 8) writtenA = some 0) ∧
    (0 < decodedA.payLen.toNat ∧ hostRead (.cell .pay 0) decodedA = some 0) ∧
    (0 < decodedA.dLen.toNat ∧ hostRead (.cell .dbuf 0) decodedA = some 0x41) ∧
    0 < writtenA.bitLen.toNat ∧ hostRead (.bit 0) writtenA = some 0 :=
  ⟨fun _ => rfl, by decide +kernel⟩

theorem witness_ClearAndResetReachTheClearedState :
    ({ writtenA with host := [.reset] } : State).host = .reset :: [] := rfl

theorem witness_RejectionChangesOnlyTheOutcome :
    ¬ Accepted .bld (ready caps []) ∧ decode 0xFF = .error (.reserved 0xFF) := by
  refine ⟨?_, rfl⟩
  rw [← accepts_iff]; decide

theorem witness_ExactlyOneCommandRunsInAnOperation :
    countedA.Inv ∧ countedA.phase ≠ .idle ∧ countedA.phase ≠ .written ∧ countedA.phase ≠ .failed :=
  ⟨inv_countedA, by decide, by decide, by decide⟩

/-- For every command a state with the invariant in which it is accepted and ends with `OK`. -/
theorem witness_AcceptedCommandsEndAsTabulated :
    ∀ i : Instr, ∃ s t, s.Inv ∧ Accepted i s ∧ exec i s = .next t ∧ (t.result == .ok) = true := by
  have key : ∀ (i : Instr) (s : State), s.Inv → accepts i s = true →
      ends (exec i s) (fun t => t.result == .ok) = true →
      ∃ s t, s.Inv ∧ Accepted i s ∧ exec i s = .next t ∧ (t.result == .ok) = true := by
    intro i s hs ha he
    obtain ⟨t, ht, hr⟩ := exists_of_ends he
    exact ⟨s, t, hs, (accepts_iff i s).1 ha, ht, hr⟩
  intro i
  cases i
  · exact key _ writtenA inv_writtenA (by decide) (by decide +kernel)
  · exact key _ (ready caps [0x41]) (inv_ready _ _ (by decide) (by decide)) (by decide) (by decide +kernel)
  · exact key _ countedA inv_countedA (by decide) (by decide +kernel)
  · exact key _ builtA inv_builtA (by decide) (by decide +kernel)
  · exact key _ codedA inv_codedA (by decide) (by decide +kernel)
  · exact key _ bitsA inv_bitsA (by decide) (by decide +kernel)
  · exact key _ encodedA inv_encodedA (by decide) (by decide +kernel)
  · exact key _ (ready caps boxA) (inv_ready _ _ (by decide) (by decide)) (by decide) (by decide +kernel)
  · exact key _ rebuiltA inv_rebuiltA (by decide) (by decide +kernel)
  · exact key _ unpackedA inv_unpackedA (by decide) (by decide +kernel)
  · exact key _ decodedA inv_decodedA (by decide) (by decide +kernel)
  · exact key _ (ready caps [0x41]) (inv_ready _ _ (by decide) (by decide)) (by decide) (by decide +kernel)
  · exact key _ (ready caps boxA) (inv_ready _ _ (by decide) (by decide)) (by decide) (by decide +kernel)

/-- `PAR` of one byte, in Idle. -/
theorem witness_FailureChangesNothingElse : ∃ s t : State, Accepted .par s ∧ exec .par s = .next t ∧
    (t.result == .invalidInput) = true := by
  obtain ⟨t, h⟩ := exists_of_ends (o := exec .par (ready caps [0x00]))
    (p := fun t => t.result == .invalidInput) (by decide +kernel)
  exact ⟨_, t, (accepts_iff .par _).1 (by decide), h⟩

/-- The second clause has witness_AcceptedCommandsEndAsTabulated; this is the first. -/
theorem witness_TransitionsFollowTheTable : ∃ s t : State, Accepted .par s ∧ exec .par s = .next t ∧
    (t.result == .invalidInput) = true := witness_FailureChangesNothingElse

/-- `ENC`, which writes only `BITS`, `BITLEN` and `BSV`, and `SER`, which writes only `OUT`,
`OUT_LEN` and `PHASE`, stand in every clause that the other leaves out. -/
theorem witness_OnlyTheListedCommandsWrite :
    (∃ t, exec .enc codedA = .next t) ∧ ∃ t, exec .ser encodedA = .next t := by
  obtain ⟨t, h, -⟩ := exists_of_ends (o := exec .enc codedA) (p := fun _ => true) (by decide +kernel)
  obtain ⟨u, g, -⟩ := exists_of_ends (o := exec .ser encodedA) (p := fun _ => true) (by decide +kernel)
  exact ⟨⟨t, h⟩, ⟨u, g⟩⟩

theorem witness_FailedUntilCleared :
    let s : State := { parsedA with
      phase := .failed, es := true, host := [.command 0x0A, .writeIn 0 0x55, .read .phase] }
    s.phase = .failed ∧ s.es = true ∧ neverClears s.host := by
  refine ⟨rfl, rfl, ?_⟩
  unfold neverClears; decide

theorem witness_CountCountsTheInput :
    ∀ bs ∈ [[], aaab], (ready caps bs).phase = .idle ∧ (ready caps bs).config.legal = true ∧
      (ready caps bs).inLen.toNat ≤ (ready caps bs).config.inCap := by decide

theorem witness_EmptyInputGivesTheEmptyContainer :
    (ready caps []).Inv ∧ (ready caps []).phase = .idle ∧ (ready caps []).inLen = 0#40 :=
  ⟨inv_ready _ _ (by decide) (by decide), rfl, rfl⟩

theorem witness_BuildOfOneKey :
    (countedA.phase = .counted ∨ countedA.phase = .parsed) ∧ countedA.symcnt = 1#9 ∧
    keys countedA.freq = [0x41] := ⟨.inl rfl, rfl, keys_freqA⟩

theorem witness_BuildJoinsTheTwoLowest :
    (countedAB.phase = .counted ∨ countedAB.phase = .parsed) ∧ 2 ≤ countedAB.symcnt.toNat ∧
    (keys countedAB.freq).length = countedAB.symcnt.toNat :=
  ⟨.inl rfl, by decide, by simp [countedAB, keys_freqAB]⟩

theorem witness_BuildLeavesTheTreeInvariant :
    (countedA.phase = .counted ∨ countedA.phase = .parsed) ∧ 1 ≤ countedA.symcnt.toNat ∧
    (keys countedA.freq).length = countedA.symcnt.toNat :=
  ⟨.inl rfl, by decide, by simp [countedA, keys_freqA]⟩

theorem witness_BuildOfNoKeyFails :
    let s : State := { ready caps [] with phase := .parsed }
    (s.phase = .counted ∨ s.phase = .parsed) ∧ s.symcnt = 0#9 := ⟨.inr rfl, rfl⟩

theorem witness_GenerateAssignsThePaths :
    builtA.phase = .treeBuilt ∧ builtA.ctv = false ∧ builtA.TreeInvariant ∧ keys builtA.freq = [0x41] ∧
    builtAB.phase = .treeBuilt ∧ builtAB.ctv = false ∧ builtAB.TreeInvariant :=
  ⟨rfl, rfl, tree_A rfl rfl rfl rfl rfl, keys_freqA, rfl, rfl, tree_AB rfl rfl rfl rfl rfl⟩

theorem witness_CodesArePrefixFree : ∃ t : State, builtAB.phase = .treeBuilt ∧ builtAB.TreeInvariant ∧
    exec .gen builtAB = .next t ∧ t.result = .ok ∧ keys t.freq = [0x61, 0x62] := by
  obtain ⟨t, h, g⟩ := exists_of_ends (o := exec .gen builtAB)
    (p := fun t => decide (t.result = .ok ∧ keys t.freq = [0x61, 0x62])) (by decide +kernel)
  exact ⟨t, rfl, tree_AB rfl rfl rfl rfl rfl, h, of_decide_eq_true g⟩

theorem witness_EncodeConcatenatesTheCodes :
    codedAB.phase = .treeBuilt ∧ codedAB.ctv = true ∧ codedAB.bsv = false ∧
    codedAB.config.legal = true ∧ (codedAB.input.all fun b => codedAB.code b ≠ []) = true ∧
    (codedAB.input.flatMap codedAB.code).length ≤ codedAB.config.bitsCap := by decide +kernel

/-- A byte with no code; and "ababababa" with `PAY_CAP = 1`, the ninth byte not fitting (V24 (b)). -/
theorem witness_EncodeStopsAtTheFirstBadByte :
    (∃ s : State, s.phase = .treeBuilt ∧ s.ctv = true ∧ s.bsv = false ∧ s.input = [] ++ 0x63 :: [] ∧
      s.code 0x63 = []) ∧
    ∃ s : State, s.phase = .treeBuilt ∧ s.ctv = true ∧ s.bsv = false ∧
      s.input = [0x61, 0x62, 0x61, 0x62, 0x61, 0x62, 0x61, 0x62] ++ 0x61 :: [] ∧
      ([0x61, 0x62].all fun x => s.code x ≠ []) = true ∧ s.config.bitsCap = 8 ∧
      ([0x61, 0x62, 0x61, 0x62, 0x61, 0x62, 0x61, 0x62].flatMap s.code).length = 8 ∧
      (s.code 0x61).length = 1 :=
  ⟨⟨{ codedAB with inBuf := [(0, 0x63)], inLen := 1 }, by decide +kernel⟩,
   ⟨{ codedAB with
      config := { caps with payCap := 1 },
      inBuf := Memory.run 0 [0x61, 0x62, 0x61, 0x62, 0x61, 0x62, 0x61, 0x62, 0x61], inLen := 9 },
    by decide +kernel⟩⟩

/-- Seven bits, the most that fit a buffer of one byte. -/
theorem witness_PackPlacesTheBits :
    let s : State := { bitsAB with
      config := { caps with payCap := 1 }, bits := Memory.run 0 (List.replicate 7 true), bitLen := 7 }
    s.phase = .treeBuilt ∧ s.bsv = true ∧ s.config.legal = true ∧
    s.bitLen.toNat < 8 * s.config.payCap := by decide

/-- Eight bits in a buffer of one byte, and seven. -/
theorem witness_PackFailsExactlyWhenFull : ∀ n ∈ [7, 8],
    let s : State := { bitsAB with config := { caps with payCap := 1 }, bitLen := BitVec.ofNat 40 n }
    s.phase = .treeBuilt ∧ s.bsv = true ∧ s.bitLen.toNat ≤ 8 * s.config.payCap := by decide

/-- No byte and a padding length of 1; one byte and a padding length of 8. -/
theorem witness_UnpackDropsThePadding :
    let s : State := { rebuiltAB with payLen := 0, padLen := 1 }
    let u : State := { rebuiltAB with payLen := 1, padLen := 8 }
    (s.phase = .treeRebuilt ∧ s.bsv = false ∧ s.config.legal = true ∧
      s.payLen.toNat ≤ s.config.payCap ∧ 8 * s.payLen.toNat < s.padLen.toNat) ∧
    u.phase = .treeRebuilt ∧ u.bsv = false ∧ u.config.legal = true ∧
      u.payLen.toNat ≤ u.config.payCap ∧ u.padLen.toNat ≤ 8 * u.payLen.toNat := by decide

theorem witness_UnpackInvertsPack :
    bitsAB.phase = .treeBuilt ∧ bitsAB.bsv = true ∧ bitsAB.bitLen.toNat < 8 * bitsAB.config.payCap ∧
    bitsAB.config.legal = true ∧ rebuiltAB.config = bitsAB.config ∧ rebuiltAB.phase = .treeRebuilt ∧
    rebuiltAB.bsv = false ∧ ∃ t, exec .pck bitsAB = .next t ∧ rebuiltAB.padLen = t.padLen ∧
      rebuiltAB.payload = t.payload := by
  obtain ⟨t, h, g⟩ := exists_of_ends (o := exec .pck bitsAB)
    (p := fun t => decide (rebuiltAB.padLen = t.padLen ∧ rebuiltAB.payload = t.payload))
    (by decide +kernel)
  exact ⟨rfl, rfl, by decide, by decide, rfl, rfl, rfl, t, h, of_decide_eq_true g⟩

/-- A container that fills `OUT`. -/
theorem witness_SerializeLaysOutTheContainer :
    let s : State := { encodedAB with config := { caps with outCap := 14 } }
    s.phase = .encoded ∧ s.config.legal = true ∧ s.symcnt.toNat = (keys s.freq).length ∧
    3 + 5 * s.symcnt.toNat + s.payLen.toNat ≤ s.config.outCap :=
  ⟨rfl, by decide, by simp [encodedAB, bitsAB, codedAB, builtAB, countedAB, keys_freqAB], by decide⟩

theorem witness_SerializeFailsWhenTooLong :
    let s : State := { encodedAB with config := { caps with outCap := 13 } }
    s.phase = .encoded ∧ s.config.outCap < 3 + 5 * s.symcnt.toNat + s.payLen.toNat := by decide

/-- One input for each of the eight refusals (V27), and `PAY_CAP = 1` with two payload bytes. -/
theorem witness_ParseRefusesInOrder :
    let n := fun bs => (ready caps bs).memRead .inp 0 2
    let len := fun bs => (ready caps bs).inLen.toNat
    let fr := fun bs k => (ready caps bs).memRead .inp (3 + 5 * k) 4
    let byte := fun bs a => (ready caps bs).byteAt .inp a
    len [0x00] = 1 ∧
    (len [0x01, 0x01] = 2 ∧ n [0x01, 0x01] = 257) ∧
    (len (boxAB.take 12) = 12 ∧ n (boxAB.take 12) = 2) ∧
    (let z := boxA.set 3 0x00; n z = 1 ∧ 3 + 5 * n z ≤ len z ∧ fr z 0 = 0) ∧
    (let z := boxA.set 6 0x80; n z = 1 ∧ 3 + 5 * n z ≤ len z ∧ 2 ^ 31 ≤ fr z 0) ∧
    (let z := boxAB.set 7 0x61; n z = 2 ∧ 3 + 5 * n z ≤ len z ∧ 1 ≤ fr z 0 ∧ fr z 0 < 2 ^ 31 ∧
      1 ≤ fr z 1 ∧ fr z 1 < 2 ^ 31 ∧ byte z 2 = byte z 7) ∧
    (n [0x00, 0x00, 0x00] = 0 ∧ byte [0x00, 0x00, 0x00] 2 = 0 ∧ byte [0x00, 0x00, 0x09] 2 = 9) ∧
    (n [0x00, 0x00, 0x08, 0x00] = 0 ∧ len [0x00, 0x00, 0x08, 0x00] = 4) ∧
    let z := boxA ++ [0x00]
    n z = 1 ∧ byte z 7 = 7 ∧ fr z 0 = 1 ∧ 1 < len z - (3 + 5 * n z) := by decide +kernel

/-- The container of V21 with `PAY_CAP = 1`, and the empty container. -/
theorem witness_ParseRecoversTheParts :
    (let s := ready { caps with payCap := 1 } boxA
     s.phase = .idle ∧ s.config.legal = true ∧ 1 = s.memRead .inp 0 2 ∧ 7 = (s.byteAt .inp 7).toNat ∧
      3 + 5 * 1 ≤ s.inLen.toNat ∧ s.memRead .inp 3 4 = 1 ∧
      s.inLen.toNat - (3 + 5 * 1) ≤ s.config.payCap) ∧
    let s := ready caps [0x00, 0x00, 0x08]
    s.phase = .idle ∧ s.config.legal = true ∧ 0 = s.memRead .inp 0 2 ∧ 8 = (s.byteAt .inp 2).toNat ∧
      s.inLen.toNat = 3 := by decide +kernel

theorem witness_ParseInvertsSerialize : ∃ t, encodedA.Inv ∧ encodedA.phase = .encoded ∧
    exec .ser encodedA = .next t ∧ t.result = .ok ∧ (ready caps boxA).phase = .idle ∧
    (ready caps boxA).config.legal = true ∧ (ready caps boxA).input = t.output ∧
    encodedA.payLen.toNat ≤ (ready caps boxA).config.payCap := by
  obtain ⟨t, h, g⟩ := exists_of_ends (o := exec .ser encodedA)
    (p := fun t => decide (t.result = .ok ∧ (ready caps boxA).input = t.output)) (by decide +kernel)
  have g := of_decide_eq_true g
  exact ⟨t, inv_encodedA, rfl, h, g.1, rfl, by decide, g.2, by decide⟩

/-- V26 (a) and (b). -/
theorem witness_EntryOrderDoesNotMatter :
    let boxBA : List Byte :=
      [0x02, 0x00, 0x62, 0x01, 0x00, 0x00, 0x00, 0x61, 0x03, 0x00, 0x00, 0x00, 0x04, 0xe0]
    let es : List (Byte × Byte × Byte × Byte × Byte) :=
      [(0x61, 0x03, 0x00, 0x00, 0x00), (0x62, 0x01, 0x00, 0x00, 0x00)]
    ∃ t, leValue [0x02, 0x00] = es.length ∧ es.Perm es.reverse ∧
      (ready caps boxAB).input =
        [0x02, 0x00] ++ es.flatMap (fun e => [e.1, e.2.1, e.2.2.1, e.2.2.2.1, e.2.2.2.2]) ++ [0x04, 0xe0] ∧
      (ready caps boxBA).input = [0x02, 0x00] ++
        es.reverse.flatMap (fun e => [e.1, e.2.1, e.2.2.1, e.2.2.2.1, e.2.2.2.2]) ++ [0x04, 0xe0] ∧
      exec .par (ready caps boxAB) = .next t ∧ (t.result == .ok) = true := by
  intro boxBA es
  obtain ⟨t, h⟩ := exists_of_ends (o := exec .par (ready caps boxAB)) (p := fun t => t.result == .ok)
    (by decide +kernel)
  exact ⟨t, by decide, (List.reverse_perm es).symm, by decide +kernel, by decide +kernel, h⟩

/-- The code of V6. -/
def codeAB (d : Byte) : List Bit := [decide (d = 0x61)]

theorem isCode_AB : ∀ d ∈ [0x61, 0x62], IsCode arenaAB 2 (codeAB d) d := by
  unfold IsCode; decide +kernel

/-- Four symbols into four cells of `DBUF`. -/
theorem witness_WalkDecodesTheCodes :
    let s : State := { unpackedAB with config := { caps with outCap := 4 } }
    s.phase = .treeRebuilt ∧ s.bsv = true ∧ s.config.legal = true ∧ s.TreeInvariant ∧
    (∀ d ∈ aaab, IsCode s.node s.root (codeAB d) d) ∧ s.bitSeq = aaab.flatMap codeAB ∧
    aaab.length = freqSum s.freq ∧ aaab.length ≤ s.config.outCap :=
  ⟨rfl, rfl, by decide, tree_AB rfl rfl rfl rfl rfl,
    fun d hd => isCode_AB d (by revert d; decide), by decide +kernel, freqSum_freqAB.symm, by decide⟩

/-- V29: a fourth symbol for three cells (row 10); "111000" ending inside a code (row 3); three
symbols where the table sums to four (row 5). -/
theorem witness_WalkChecksTheEnd :
    (let s : State := { unpackedAB with config := { caps with outCap := 3 } }
     s.TreeInvariant ∧ s.bitSeq = [0x61, 0x61, 0x61].flatMap codeAB ++ [false] ∧
      IsCode s.node s.root [false] 0x62 ∧ s.config.outCap = 3) ∧
    (unpackedABC.TreeInvariant ∧
      (∀ d ∈ [0x61, 0x62], IsCode unpackedABC.node unpackedABC.root
        (if d = 0x61 then [true] else [false, false]) d) ∧
      unpackedABC.bitSeq = aaab.flatMap (fun d => if d = 0x61 then [true] else [false, false]) ++ [false] ∧
      EndsInside unpackedABC.node unpackedABC.root [false]) ∧
    let s : State := { unpackedAB with bits := Memory.run 0 [true, true, true], bitLen := 3 }
    s.TreeInvariant ∧ s.bitSeq = [0x61, 0x61, 0x61].flatMap codeAB ++ [] ∧ freqSum s.freq = 4 := by
  refine ⟨⟨tree_AB rfl rfl rfl rfl rfl, by decide +kernel, isCode_AB 0x62 (by decide), rfl⟩,
    ⟨tree_ABC rfl rfl rfl rfl rfl, ?_, by decide +kernel, ?_⟩,
    tree_AB rfl rfl rfl rfl rfl, by decide +kernel, freqSum_freqAB⟩
  · unfold IsCode; decide +kernel
  · unfold EndsInside; decide +kernel

/-- `BITS = "001"` with the one-key tree (V29, row 1), the third bit reaching `NIL`. -/
theorem witness_NullChildOnlyInTheSingleTree :
    let s : State := { unpackedA with bits := Memory.run 0 [false, false, true], bitLen := 3 }
    s.phase = .treeRebuilt ∧ s.bsv = true ∧ s.TreeInvariant ∧ s.symcnt = 1#9 ∧ 2 ≤ s.config.outCap ∧
    s.bitSeq = List.replicate 2 false ++ true :: [] ∧
    ∃ t, exec .wlk s = .next t ∧ (t.cause == .nullChild) = true :=
  ⟨rfl, rfl, tree_A rfl rfl rfl rfl rfl, rfl, by decide, by decide +kernel,
    exists_of_ends (p := fun t => t.cause == .nullChild) (by decide +kernel)⟩

/-- Four bytes into four cells of `OUT`. -/
theorem witness_EmitCopiesTheDecodedBytes :
    let s : State := { decodedAB with config := { caps with outCap := 4 } }
    s.phase = .decoded ∧ s.dLen.toNat ≤ s.config.outCap := by decide

theorem witness_CompressIsItsStages : ∃ t, (ready caps aaab).phase = .idle ∧
    (ready caps aaab).host = [] ∧ exec .cmp (ready caps aaab) = .next t :=
  have ⟨t, h, _⟩ := exists_of_ends test_cmp
  ⟨t, rfl, rfl, h⟩

theorem witness_DecompressIsItsStages : ∃ t, (ready caps boxAB).phase = .idle ∧
    (ready caps boxAB).host = [] ∧ exec .dcm (ready caps boxAB) = .next t :=
  have ⟨t, h, _⟩ := exists_of_ends test_dcm
  ⟨t, rfl, rfl, h⟩

/-- The smallest capacities the statement allows for one byte. -/
theorem witness_CompressCompletes :
    let s := ready { inCap := 1, outCap := 1315, payCap := 32 } [0x41]
    s.Inv ∧ s.phase = .idle ∧ s.inLen ≠ 0#40 ∧ 255 * s.inLen.toNat < 8 * s.config.payCap ∧
    1284 + 255 * s.inLen.toNat / 8 ≤ s.config.outCap :=
  ⟨inv_ready _ _ (by decide) (by decide), rfl, by decide, by decide, by decide⟩

/-- `S = 41` (V21) with capacities that just fit, and the empty container. -/
theorem witness_DecompressCompletes :
    (let s := ready { inCap := 9, outCap := 3, payCap := 1 } boxA
     let tree := buildTree (countTable [0x41]) (keys (countTable [0x41])).length
     s.Inv ∧ s.phase = .idle ∧ [0x41].length ≤ s.config.outCap ∧
      (∀ d ∈ [0x41], IsCode tree.node tree.root [false] d) ∧
      ([0x41].flatMap fun _ : Byte => [false]).length < 8 * s.config.payCap ∧
      s.input = containerBytes (countTable [0x41]) (keys (countTable [0x41])).length
        (8 - ([0x41].flatMap fun _ : Byte => [false]).length % 8)
        (packBits ([0x41].flatMap fun _ : Byte => [false]))) ∧
    (ready caps [0x00, 0x00, 0x08]).Inv ∧ (ready caps [0x00, 0x00, 0x08]).phase = .idle ∧
    (ready caps [0x00, 0x00, 0x08]).input = [0x00, 0x00, 0x08] := by
  refine ⟨⟨inv_ready _ _ (by decide) (by decide), rfl, by decide, ?_, by decide, by decide +kernel⟩,
    inv_ready _ _ (by decide) (by decide), rfl, by decide +kernel⟩
  unfold IsCode; decide +kernel

theorem witness_DecompressInvertsCompress : ∃ t, (ready caps aaab).Inv ∧
    exec .cmp (ready caps aaab) = .next t ∧ t.result = .ok ∧ (ready caps boxAB).Inv ∧
    (ready caps boxAB).phase = .idle ∧ (ready caps boxAB).config = (ready caps aaab).config ∧
    (ready caps boxAB).input = t.output ∧
    (ready caps aaab).inLen.toNat ≤ (ready caps aaab).config.outCap := by
  obtain ⟨t, h, g⟩ := exists_of_ends test_cmp
  simp only [Bool.and_eq_true, decide_eq_true_eq] at g
  refine ⟨t, inv_ready _ _ (by decide) (by decide), h, g.2, inv_ready _ _ (by decide) (by decide),
    rfl, rfl, ?_, by decide⟩
  rw [g.1.1.1.1.1.1.1.1.1.1]; decide +kernel

/-- The last byte of the container of "aaab" is missing. -/
theorem witness_TruncatedPayloadIsDetected : ∃ t, (ready caps aaab).Inv ∧
    (ready caps aaab).inLen ≠ 0#40 ∧ exec .cmp (ready caps aaab) = .next t ∧ t.result = .ok ∧
    (ready caps aaab).inLen.toNat ≤ (ready caps aaab).config.outCap ∧
    (ready caps (boxAB.take 13)).Inv ∧ (ready caps (boxAB.take 13)).phase = .idle ∧
    1 ≤ t.payLen.toNat ∧
    (ready caps (boxAB.take 13)).input = t.output.take (t.outLen.toNat - 1) := by
  obtain ⟨t, h, g⟩ := exists_of_ends (o := exec .cmp (ready caps aaab))
    (p := fun t => decide (t.result = .ok ∧ 1 ≤ t.payLen.toNat ∧
      (ready caps (boxAB.take 13)).input = t.output.take (t.outLen.toNat - 1))) (by decide +kernel)
  have g := of_decide_eq_true g
  exact ⟨t, inv_ready _ _ (by decide) (by decide), by decide, h, g.1, by decide,
    inv_ready _ _ (by decide) (by decide), rfl, g.2⟩

theorem witness_StepKeepsTheInvariant : ∃ t, (ready caps aaab).Inv ∧ step (ready caps aaab) = .next t :=
  ⟨_, inv_ready _ _ (by decide) (by decide), rfl⟩

theorem witness_InvariantStatesNeverStop : bitsA.Inv := inv_bitsA

theorem witness_StepKeepsMemoryCanonical : ∃ t, writtenA.memoryWf = true ∧ step writtenA = .next t :=
  ⟨_, by decide +kernel, rfl⟩

/-- Two Idle states that hold different bytes beyond `IN_LEN` and in `OUT`. -/
theorem witness_UnspecifiedCellsNeverMatter :
    let s : State := { ready caps [0x41, 0x42] with inLen := 1, epoch := 7 }
    s.Agrees { ready caps [0x41] with out := [(0, 0x55)] } := by
  refine ⟨rfl, ?_, ?_⟩
  · intro sp a ha
    cases sp
    · obtain rfl : a = 0 := by
        have : a < 1 := ha
        omega
      rfl
    all_goals exact absurd ha (Nat.not_lt_zero a)
  · intro a ha
    exact absurd ha (Nat.not_lt_zero a)

end Sys2Proof.Tests
end

/-! The tree builder leaves the tree invariant (spec/41_tree_builder.md, rules R48 and R49): O18. -/

namespace Sys2Proof.Machine

/-- `BLD` completes on a table with keys, `SYMCNT` being their number (rule R121). -/
theorem bldBody_of_keys {s : State} (h1 : 1 ≤ s.symcnt.toNat)
    (hk : (keys s.freq).length = s.symcnt.toNat) :
    bldBody s = .ok { s with
      node := (buildTree s.freq s.symcnt.toNat).node,
      nnodes := (buildTree s.freq s.symcnt.toNat).nnodes,
      root := (buildTree s.freq s.symcnt.toNat).root,
      phase := if s.phase = .counted then .treeBuilt else .treeRebuilt } := by
  have h0 : s.symcnt.toNat ≠ 0 := by omega
  simp [bldBody, h0, hk]

/-- The Leaf of a symbol is a Leaf: a frequency fits a weight (rule R122). -/
theorem leafNode_isLeaf (f : Vector Count 256) (sy : Byte) :
    (leafNode f sy).IsLeaf sy (entry f sy).toNat := by
  refine ⟨rfl, rfl, ?_, rfl, rfl⟩
  have := (entry f sy).isLt
  exact (BitVec.toNat_ofNat ..).trans (Nat.mod_eq_of_lt (by omega))

/-- An arena that is the arena of the Leaves below the number of keys has the Leaves first. -/
theorem leavesFirst_of_keeps {f : Vector Count 256} {arena : Vector Node 511}
    (h : ∀ k < (keys f).length, arena[k]? = (leafArena f)[k]?) : LeavesFirst f arena := by
  intro k hk
  have := keys_length_le f
  refine ⟨leafNode f (keys f)[k], ?_, leafNode_isLeaf f _⟩
  rw [Option.mem_def, h k hk, leafArena_getElem? f k (by omega), dif_pos hk]

/-- An arena that is the arena of the Leaves from `m` on, no key having an index so high, is zero
there (rule R131). -/
theorem zero_of_keeps {f : Vector Count 256} {arena : Vector Node 511} {m : Nat}
    (hm : (keys f).length ≤ m) (h : ∀ k, m ≤ k → arena[k]? = (leafArena f)[k]?) :
    ∀ nd ∈ arena.toList.drop m, nd = Node.zero := by
  intro nd hnd
  obtain ⟨k, hk, rfl⟩ := List.getElem_of_mem hnd
  have hlt : m + k < 511 := by simpa [Nat.lt_sub_iff_add_lt'] using hk
  have hz := h (m + k) (by omega)
  rw [leafArena_getElem? f _ hlt, dif_neg (by omega), Vector.getElem?_eq_getElem hlt] at hz
  simpa using Option.some.inj hz

/-- One root left over and children below their parents: every other record is a child. -/
theorem MergeInv.has_parent {arena : Vector Node 511} {z m c : Nat} (h : MergeInv arena [z] m)
    (hc : c < m) (hz : c ≠ z) : ∃ i < m, IsChild arena i c := by
  by_contra hno
  exact hz (List.mem_singleton.1 ((h.free c hc).2 fun j hj hch => hno ⟨j, hj, hch⟩))

/-- A record that is the child of an Internal record with the children `a` and `b` is `a` or `b`. -/
theorem IsChild.eq_or {arena : Vector Node 511} {i a b w c : Nat} (h : IsChild arena i c)
    (hi : ∃ nd ∈ arena[i]?, nd.IsInternal a b w) : c = a ∨ c = b := by
  obtain ⟨nd, hnd, -, hch⟩ := h
  obtain ⟨nd', hnd', -, -, -, hl, hr⟩ := hi
  obtain rfl : nd = nd' := Option.some.inj (hnd.symm.trans hnd')
  omega

/-- A Leaf has no children. -/
theorem LeavesFirst.not_isChild {f : Vector Count 256} {arena : Vector Node 511}
    (h : LeavesFirst f arena) {i c : Nat} (hi : i < (keys f).length) : ¬ IsChild arena i c := by
  rintro ⟨nd, hnd, hint, -⟩
  obtain ⟨nd', hnd', hleaf, -⟩ := h i hi
  obtain rfl : nd = nd' := Option.some.inj (hnd.symm.trans hnd')
  rw [hleaf] at hint
  cases hint

/-- What the merge loop leaves of a table `f` with `n >= 2` keys: the Leaves, then one record for each
round, the last one the only record that is nobody's child (rules R48, R122, R123 and R127). -/
structure MergedArena (f : Vector Count 256) (n : Nat) (arena : Vector Node 511) : Prop where
  leaves : LeavesFirst f arena
  rest : ∀ nd ∈ arena.toList.drop (2 * n - 1), nd = Node.zero
  oneRoot : MergeInv arena [2 * n - 2] (2 * n - 1)
  weight : weightAt arena (2 * n - 2) = freqSum f
  joins : ∀ i, n ≤ i → i < 2 * n - 1 → ∃ a b,
    (∃ nd ∈ arena[i]?, nd.IsInternal a b (weightAt arena a + weightAt arena b)) ∧ a < i ∧ b < i ∧
    (∀ j < i, ¬ IsChild arena j a ∧ ¬ IsChild arena j b) ∧ before arena a b = true ∧
    ∀ c < i, (∀ j < i, ¬ IsChild arena j c) → c ≠ a → c ≠ b → before arena b c = true

/-- The merge loop of `BLD` leaves such an arena (rule R123). -/
theorem mergedTree_merged {f : Vector Count 256} {n : Nat} (h2 : 2 ≤ n) (hk : (keys f).length = n) :
    MergedArena f n (mergedTree f n).node := by
  have hle := keys_length_le f
  have hsum : ((List.range n).map (weightAt (leafArena f))).sum = freqSum f := by
    rw [← hk, leafArena_weights, sum_keys]
  obtain ⟨⟨z, hz, hzw, hzi⟩, hround⟩ := mergeRounds_spec (r := n - 1) (hk ▸ leafArena_mergeInv f)
    (by rw [List.length_range]; omega) (by omega) (by rw [hsum]; exact freqSum_lt f)
  obtain rfl : z = 2 * n - 2 := by have := hzi (by omega); omega
  have hkeep : ∀ i, i < n ∨ 2 * n - 1 ≤ i → (mergedTree f n).node[i]? = (leafArena f)[i]? :=
    fun i hi => mergeRounds_keeps _ _ _ _ _ (by omega)
  exact {
    leaves := leavesFirst_of_keeps fun k hk' => hkeep k (.inl (by omega))
    rest := zero_of_keeps (by omega) fun k hk' => hkeep k (.inr hk')
    oneRoot := by rwa [show n + (n - 1) = 2 * n - 1 by omega] at hz
    weight := hzw.trans hsum
    joins := fun i h1 h3 => hround i h1 (by omega) }

namespace MergedArena

variable {f : Vector Count 256} {n : Nat} {arena : Vector Node 511}

/-- Each record after the Leaves joins two different records before it (rules R47 and R48). -/
theorem inner (h : MergedArena f n arena) {i : Nat} (hni : n ≤ i) (hi : i < 2 * n - 1) :
    ∃ nd ∈ arena[i]?, nd.left.toNat < i ∧ nd.right.toNat < i ∧ nd.left ≠ nd.right ∧
      nd.IsInternal nd.left.toNat nd.right.toNat
        (weightAt arena nd.left.toNat + weightAt arena nd.right.toNat) := by
  obtain ⟨a, b, ⟨nd, hnd, hint⟩, hai, hbi, -, hab, -⟩ := h.joins i hni hi
  obtain ⟨-, -, -, hl, hr⟩ := id hint
  rw [before_iff] at hab
  refine ⟨nd, hnd, by omega, by omega, fun e => ?_, by rwa [hl, hr]⟩
  obtain rfl : a = b := by rw [← hl, ← hr, e]
  omega

/-- A record is joined once: no record made before its parent is its parent too. -/
theorem first_parent (h : MergedArena f n arena) (hk : (keys f).length = n) {i c : Nat}
    (hi : i < 2 * n - 1) (hc : IsChild arena i c) : ∀ j < i, ¬ IsChild arena j c := by
  intro j hj
  have hni : n ≤ i := by
    by_contra hlt
    exact h.leaves.not_isChild (by omega) hc
  obtain ⟨a, b, hint, -, -, hfree, -⟩ := h.joins i hni hi
  rcases hc.eq_or hint with rfl | rfl
  · exact (hfree j hj).1
  · exact (hfree j hj).2

/-- Every record but the last has exactly one parent (rule R48). -/
theorem owned (h : MergedArena f n arena) (hk : (keys f).length = n) {c : Nat} (hc : c < 2 * n - 2) :
    ∃ i < 2 * n - 1, IsChild arena i c ∧ ∀ j < 2 * n - 1, IsChild arena j c → j = i := by
  obtain ⟨i, hi, hic⟩ := h.oneRoot.has_parent (c := c) (by omega) (by omega)
  refine ⟨i, hi, hic, fun j hj hjc => ?_⟩
  rcases Nat.lt_trichotomy j i with hlt | rfl | hlt
  · exact absurd hjc (h.first_parent hk hi hic j hlt)
  · rfl
  · exact absurd hic (h.first_parent hk hj hjc i hlt)

end MergedArena

/-- What `BLD` leaves for two keys or more has the tree invariant (rules R48 and R49). -/
theorem treeInvariant_of_mergedTree {t : State} {n : Nat} (h2 : 2 ≤ n)
    (hk : (keys t.freq).length = n) (hn : t.symcnt.toNat = n)
    (hnode : t.node = (mergedTree t.freq n).node)
    (hnn : t.nnodes = (mergedTree t.freq n).nnodes) (hroot : t.root = (mergedTree t.freq n).root) :
    t.TreeInvariant ∧ weightAt t.node t.root.toNat = freqSum t.freq := by
  have hle := keys_length_le t.freq
  have hsz : t.nnodes.toNat = 2 * n - 1 := by
    rw [hnn]; exact (BitVec.toNat_ofNat ..).trans (Nat.mod_eq_of_lt (by omega))
  have hrt : t.root.toNat = 2 * n - 2 := by
    rw [hroot]; exact (BitVec.toNat_ofNat ..).trans (Nat.mod_eq_of_lt (by omega))
  have hm : MergedArena t.freq n t.node := hnode ▸ mergedTree_merged h2 hk
  subst hk
  exact ⟨treeInvariant_of_many rfl hn h2 hsz hrt hm.leaves (fun _ hi hni => hm.inner hni hi)
    (fun _ hc => hm.owned rfl hc) (hsz ▸ hm.rest), by rw [hrt, hm.weight]⟩

/-- What `BLD` leaves for a single key has the tree invariant (rules R48, R49 and R125). -/
theorem treeInvariant_of_singleTree {t : State} (hk : (keys t.freq).length = 1)
    (hn : t.symcnt.toNat = 1) (hnode : t.node = (singleTree t.freq).node)
    (hnn : t.nnodes = 2#10) (hroot : t.root = 1#9) :
    t.TreeInvariant ∧ weightAt t.node t.root.toNat = freqSum t.freq := by
  have hkeep : ∀ i, i ≠ 1 → t.node[i]? = (leafArena t.freq)[i]? := by
    intro i hi
    rw [hnode]
    exact Vector.getElem?_set_ne (by omega) (fun e => hi e.symm)
  have hweight : (leafArena t.freq)[0].weight.toNat = freqSum t.freq := by
    have h := leafArena_weights t.freq
    rw [hk] at h
    have hsum := congrArg List.sum h
    rw [sum_keys] at hsum
    simpa [weightAt] using hsum
  have hrec : t.node[1]? = some (Node.mk .internal 0#8 (leafArena t.freq)[0].weight 0#9 nilIx) := by
    rw [hnode]
    exact Vector.getElem?_set_self (by omega)
  refine ⟨⟨by omega, leavesFirst_of_keeps fun k hk' => hkeep k (by omega),
    fun _ => ⟨hnn, hroot, _, hrec, rfl, rfl, hweight, rfl, rfl⟩, by omega, by omega, by omega, ?_⟩, ?_⟩
  · rw [hnn]
    exact zero_of_keeps (by rw [hk]; decide) fun k hk' => hkeep k (by
      have : (2#10).toNat = 2 := rfl
      omega)
  · rw [hroot]
    change weightAt t.node 1 = _
    rw [← hweight]
    simp only [weightAt, hrec]

/-- A `BLD` whose body completes leaves the tree invariant (rules R48 and R49). -/
theorem bldBody_treeInvariant {s t : State} (h : bldBody s = .ok t) :
    t.TreeInvariant ∧ weightAt t.node t.root.toNat = freqSum t.freq := by
  obtain ⟨h0, hk, rfl⟩ := bldBody_next h
  by_cases h1 : s.symcnt.toNat = 1
  · refine treeInvariant_of_singleTree (hk.trans h1) h1 ?_ ?_ ?_ <;> simp only [buildTree, if_pos h1] <;> rfl
  · refine treeInvariant_of_mergedTree (n := s.symcnt.toNat) (by omega) hk rfl ?_ ?_ ?_ <;>
      simp only [buildTree, if_neg h1]

/-- The tree invariant speaks of `FREQ`, `SYMCNT` and the arena alone. -/
theorem State.TreeInvariant.congr {s t : State} (h : s.TreeInvariant) (hf : t.freq = s.freq)
    (hc : t.symcnt = s.symcnt) (hn : t.node = s.node) (hm : t.nnodes = s.nnodes)
    (hr : t.root = s.root) : t.TreeInvariant := by
  obtain ⟨h1, h2, h3, h4, h5, h6, h7⟩ := h
  constructor <;> simp only [hf, hc, hn, hm, hr] <;> assumption

/-- Settles O18: the keys make the body complete, and what it then leaves has the invariant. -/
theorem buildLeavesTheTreeInvariant : Obligations.BuildLeavesTheTreeInvariant := by
  intro s hp h1 hk
  have hok := bldBody_of_keys h1 hk
  obtain ⟨hinv, hw⟩ := bldBody_treeInvariant hok
  refine ⟨_, command_of_ok ((accepts_iff .bld s).2 hp) hok, rfl,
    hinv.congr rfl rfl rfl rfl rfl, hw⟩

end Sys2Proof.Machine

/-! No step stops in a state with the invariant (spec/45_engine.md rule R184, spec/20_memory.md rule
R67): O46. A command can stop only by reading a record or writing a cell that does not exist, or by
finding `SYMCNT` wrong; the few clauses of the invariant that rule this out are kept by every command,
so they also carry `CMP` and `DCM` through their stages. -/

namespace Sys2Proof.Machine

/-! ## Bodies that are never stuck -/

/-- The computation has a meaning: it completes or raises (rule R11). -/
def NotStuck {α : Type} (r : Except Stop α) : Prop := ∀ f, r ≠ .error (.stuck f)

theorem notStuck_ok {α : Type} (x : α) : NotStuck (.ok x : Except Stop α) := fun _ => nofun

theorem notStuck_invalidInput {α : Type} (c : Cause) :
    NotStuck (invalidInput c : Except Stop α) := fun _ => nofun

theorem notStuck_capacityError {α : Type} (c : Cause) :
    NotStuck (capacityError c : Except Stop α) := fun _ => nofun

/-- An error of a computation with a meaning is a `raise`, whatever is computed around it. -/
theorem NotStuck.error {α β : Type} {r : Except Stop α} {e : Stop} (h : NotStuck r)
    (he : r = .error e) : NotStuck (.error e : Except Stop β) := by
  rintro f hf
  injection hf with hf
  exact h f (hf ▸ he)

theorem encodeBits_notStuck (code : Byte → List Bit) (cap : Nat) (l : List Byte) (len : Nat) :
    NotStuck (encodeBits code cap l len) := by
  induction l generalizing len with
  | nil => exact notStuck_ok _
  | cons b l ih =>
    rw [encodeBits]
    split
    · exact notStuck_invalidInput _
    split
    · exact notStuck_capacityError _
    split
    · exact (ih _).error (by assumption)
    · exact notStuck_ok _

theorem parseEntries_notStuck (s : State) (todo k : Nat) (F : Vector Count 256) :
    NotStuck (parseEntries s todo k F) := by
  induction todo generalizing k F with
  | zero => exact notStuck_ok _
  | succ todo ih =>
    rw [parseEntries]
    split
    · exact notStuck_invalidInput _
    split
    · exact notStuck_invalidInput _
    · exact ih _ _

/-- The walk goes from record to record: a `NIL` child raises before it is read (rule R187). -/
theorem walkBits_notStuck {arena : Vector Node 511} {root cur : NodeIx} (hr : root ≠ nilIx)
    (hc : cur ≠ nilIx) (cap : Nat) (bs : List Bit) (d : Nat) :
    NotStuck (walkBits arena root cap bs cur d) := by
  induction bs generalizing cur d with
  | nil => exact notStuck_ok _
  | cons b bs ih =>
    obtain ⟨nd, hnd⟩ := recordAt_of_ne_nil arena hc
    rw [walkBits, hnd]
    dsimp only
    split
    · exact notStuck_invalidInput _
    · rename_i hn
      obtain ⟨nd', hnd'⟩ := recordAt_of_ne_nil arena hn
      rw [hnd']
      dsimp only
      split
      · exact ih hn d
      split
      · exact notStuck_capacityError _
      split
      · exact (ih hr (d + 1)).error (by assumption)
      · exact notStuck_ok _

theorem cntBody_notStuck (s : State) : NotStuck (cntBody s) := by
  obtain ⟨t, ht, -⟩ := cntBody_ok s
  rw [ht]
  exact notStuck_ok t

theorem encBody_notStuck (s : State) : NotStuck (encBody s) := by
  unfold encBody
  split
  · exact (encodeBits_notStuck _ _ _ _).error (by assumption)
  · exact notStuck_ok _

theorem pckBody_notStuck (s : State) : NotStuck (pckBody s) := by
  unfold pckBody
  dsimp only
  split
  · exact notStuck_capacityError _
  · exact notStuck_ok _

theorem parBody_notStuck (s : State) : NotStuck (parBody s) := by
  unfold parBody
  dsimp only
  split
  · exact notStuck_invalidInput _
  split
  · exact notStuck_invalidInput _
  split
  · exact notStuck_invalidInput _
  split
  · exact (parseEntries_notStuck _ _ _ _).error (by assumption)
  split
  · exact notStuck_invalidInput _
  split
  · exact notStuck_invalidInput _
  split
  · exact notStuck_capacityError _
  split <;> exact notStuck_ok _

theorem bldBody_notStuck {s : State} (hk : s.symcnt.toNat = (keys s.freq).length) :
    NotStuck (bldBody s) := by
  unfold bldBody
  dsimp only
  split
  · exact notStuck_invalidInput _
  · rw [if_neg (not_not.2 hk.symm)]
    exact notStuck_ok _

theorem serBody_notStuck {s : State} (hk : s.symcnt.toNat = (keys s.freq).length) :
    NotStuck (serBody s) := by
  unfold serBody
  dsimp only
  split
  · exact notStuck_capacityError _
  · rw [if_neg (not_not.2 hk.symm)]
    exact notStuck_ok _

/-- The bits of a payload that fits `PAY` fit `BITS` (rule R8). -/
theorem upkBody_notStuck {s : State} (hp : s.payLen.toNat ≤ s.config.payCap) :
    NotStuck (upkBody s) := by
  unfold upkBody
  dsimp only
  split
  · exact notStuck_invalidInput _
  · rw [storeWithin_of_le (by rw [unpackBits_length, Config.bitsCap]; omega)]
    exact notStuck_ok _

theorem emtBody_notStuck {s : State} (hd : s.dLen.toNat ≤ s.config.outCap) :
    NotStuck (emtBody s) := by
  unfold emtBody
  rw [storeWithin_of_le (by rwa [State.decodedBytes_length])]
  exact notStuck_ok _

/-- The root of a tree is a record (rules R37 and R46). -/
theorem State.TreeInvariant.root_ne_nil {s : State} (h : s.TreeInvariant) : s.root ≠ nilIx := by
  intro e
  have hr := h.root_eq
  have hle := h.count_le
  rw [e] at hr
  change 511 = _ at hr
  split at hr <;> omega

/-- No path of a tree is longer than the walk of `GEN` goes (rule R139). -/
theorem genBody_notStuck {s : State} (h : s.TreeInvariant) : NotStuck (genBody s) := by
  obtain ⟨t, ht⟩ := visit_completes (fuel := clenMax + 1) (p := []) (t := CodeTable.empty)
    h.root_ne_nil fun q j hq => by
      have := h.path_length hq
      have := h.count_le
      change _ < 256
      omega
  rw [genBody, ht]
  exact notStuck_ok _

theorem wlkBody_notStuck {s : State} (h : s.TreeInvariant) : NotStuck (wlkBody s) := by
  unfold wlkBody
  split
  · exact (walkBits_notStuck h.root_ne_nil h.root_ne_nil _ _ _).error (by assumption)
  split
  · exact notStuck_invalidInput _
  split
  · exact notStuck_invalidInput _
  · exact notStuck_ok _

/-! ## What keeps a command from stopping -/

/-- The clauses of the invariant that keep every command from stopping. -/
structure State.Runnable (s : State) : Prop where
  payload : s.payLen.toNat ≤ s.config.payCap
  decoded : s.dLen.toNat ≤ s.config.outCap
  count : s.symcnt.toNat = (keys s.freq).length
  tree : s.phase = .treeBuilt ∨ s.phase = .treeRebuilt → s.TreeInvariant

theorem State.Inv.runnable {s : State} (h : s.Inv) : s.Runnable :=
  ⟨h.lengths.2.2.1, h.lengths.2.2.2.2, h.count, h.tree⟩

/-- From a runnable state the command reaches a next state, which is runnable. -/
def Runs (c : State → StepResult) : Prop :=
  ∀ s : State, s.Runnable → ∃ t, c s = .next t ∧ t.Runnable

theorem State.Runnable.reject {s : State} (h : s.Runnable) (r : Result) : (s.reject r).Runnable :=
  ⟨h.payload, h.decoded, h.count, fun hp => (h.tree hp).congr rfl rfl rfl rfl rfl⟩

theorem State.Runnable.failWith {s : State} (h : s.Runnable) (r : Result) (c : Cause) :
    (s.failWith r c).Runnable :=
  ⟨h.payload, h.decoded, h.count, nofun⟩

theorem State.Runnable.succeed {s : State} (h : s.Runnable) : s.succeed.Runnable :=
  ⟨h.payload, h.decoded, h.count, fun hp => (h.tree hp).congr rfl rfl rfl rfl rfl⟩

theorem State.cleared_runnable (s : State) : s.cleared.Runnable :=
  ⟨Nat.zero_le _, Nat.zero_le _, by simp, nofun⟩

/-- A command runs if its body is not stuck where it is accepted, and leaves a runnable state where it
completes. -/
theorem runs_command {acc : State → Bool} {body : State → Except Stop State}
    (hb : ∀ s, s.Runnable → acc s = true → NotStuck (body s))
    (hok : ∀ s t, s.Runnable → body s = .ok t → t.Runnable) :
    Runs fun s => command (acc s) body s := by
  intro s hs
  rcases command_cases (acc s) body s with ⟨-, h⟩ | ⟨-, t, ht, h⟩ | ⟨-, r, c, -, h⟩ | ⟨ha, f, hf, -⟩
  · exact ⟨_, h, hs.reject _⟩
  · exact ⟨_, h, (hok s t hs ht).succeed⟩
  · exact ⟨_, h, hs.failWith r c⟩
  · exact absurd hf (hb s hs ha f)

theorem Runs.andThen {c : State → StepResult} {g : State → State → StepResult} (hc : Runs c)
    (hg : ∀ t, Runs (g t)) : Runs fun s => andThen (c s) fun t => g t t := by
  intro s hs
  obtain ⟨t, ht, hrun⟩ := hc s hs
  dsimp only
  rw [ht]
  by_cases hr : t.result = .ok
  · rw [andThen_ok hr]
    exact hg t t hrun
  · rw [andThen_not_ok hr]
    exact ⟨t, rfl, hrun⟩

theorem runs_stages {cs : List (State → StepResult)} (h : ∀ c ∈ cs, Runs c) : Runs (stages cs) := by
  induction cs with
  | nil => exact fun s hs => ⟨s, rfl, hs⟩
  | cons c cs ih =>
    exact (h c (by simp)).andThen (g := fun _ => stages cs) fun _ => ih fun d hd => h d (by simp [hd])

/-! ## Every command runs -/

theorem toNat_ofNat_le (w n : Nat) : (BitVec.ofNat w n).toNat ≤ n :=
  (BitVec.toNat_ofNat ..).trans_le (Nat.mod_le _ _)

theorem symcnt_of_keys (f : Vector Count 256) :
    (BitVec.ofNat 9 (keys f).length).toNat = (keys f).length := by
  have := keys_length_le f
  exact (BitVec.toNat_ofNat ..).trans (Nat.mod_eq_of_lt (by omega))

/-- The entries `PAR` has read are the keys of its table: one key for each entry (rules R21, R170). -/
theorem keys_length_of_parseEntries {s : State} {n : Nat} {F : Vector Count 256}
    (h : parseEntries s n 0 (Vector.replicate 256 0#32) = .ok F) : (keys F).length = n := by
  obtain ⟨hpos, -, hne, hval, hrest⟩ := parseEntries_ok h
  have hnodup : ((List.range n).map s.entrySym).Nodup := by
    rw [List.nodup_iff_pairwise_ne, List.pairwise_map]
    refine List.pairwise_lt_range.imp_of_mem fun {i j} _ hj hij => hne i j (Nat.zero_le i) hij ?_
    simpa using hj
  have hmem : ∀ sy, sy ∈ keys F ↔ sy ∈ (List.range n).map s.entrySym := by
    intro sy
    rw [mem_keys, List.mem_map]
    constructor
    · intro hsy
      by_contra hno
      rw [hrest sy fun j _ hj e => hno ⟨j, by simpa using hj, e⟩, entry_replicate] at hsy
      exact absurd hsy (by decide)
    · rintro ⟨j, hj, rfl⟩
      have hj : j < 0 + n := by simpa using hj
      rw [hval j (Nat.zero_le j) hj]
      exact (hpos j (Nat.zero_le j) hj).1
  rw [((List.perm_ext_iff_of_nodup (keys_nodup F) hnodup).2 hmem).length_eq]
  simp

theorem runs_cnt : Runs execCnt := by
  refine runs_command (fun s _ _ => cntBody_notStuck s) fun s t hs h => ?_
  unfold cntBody at h
  dsimp only at h
  split at h <;> injection h with h <;> subst h
  · exact ⟨Nat.zero_le _, hs.decoded, symcnt_of_keys _, nofun⟩
  · exact ⟨hs.payload, hs.decoded, symcnt_of_keys _, nofun⟩

theorem runs_bld : Runs execBld := by
  refine runs_command (fun s hs _ => bldBody_notStuck hs.count) fun s t hs h => ?_
  have ht := (bldBody_treeInvariant h).1
  obtain ⟨-, -, rfl⟩ := bldBody_next h
  exact ⟨hs.payload, hs.decoded, hs.count, fun _ => ht⟩

theorem runs_gen : Runs execGen := by
  refine runs_command (fun s hs ha => genBody_notStuck (hs.tree (.inl ?_))) fun s t hs h => ?_
  · exact ((accepts_iff .gen s).1 ha).1
  · obtain ⟨tbl, -, rfl⟩ := genBody_next h
    exact ⟨hs.payload, hs.decoded, hs.count, fun hp => (hs.tree hp).congr rfl rfl rfl rfl rfl⟩

theorem runs_enc : Runs execEnc := by
  refine runs_command (fun s _ _ => encBody_notStuck s) fun s t hs h => ?_
  obtain ⟨-, -, rfl⟩ := encBody_next h
  exact ⟨hs.payload, hs.decoded, hs.count, fun hp => (hs.tree hp).congr rfl rfl rfl rfl rfl⟩

theorem runs_pck : Runs execPck := by
  refine runs_command (fun s _ _ => pckBody_notStuck s) fun s t hs h => ?_
  obtain ⟨hcap, rfl⟩ := pckBody_next h
  exact ⟨(toNat_ofNat_le 40 _).trans hcap, hs.decoded, hs.count, nofun⟩

theorem runs_ser : Runs execSer := by
  refine runs_command (fun s hs _ => serBody_notStuck hs.count) fun s t hs h => ?_
  obtain ⟨-, -, rfl⟩ := serBody_next h
  exact ⟨hs.payload, hs.decoded, hs.count, nofun⟩

theorem runs_par : Runs execPar := by
  refine runs_command (fun s _ _ => parBody_notStuck s) fun s t hs h => ?_
  obtain ⟨F, n, -, hn, -, hF, -, -, -, hcap, rfl⟩ := parBody_next h
  refine ⟨(toNat_ofNat_le 40 _).trans hcap, ?_, ?_, ?_⟩
  · dsimp only
    split
    · exact Nat.zero_le _
    · exact hs.decoded
  · obtain rfl := keys_length_of_parseEntries hF
    exact symcnt_of_keys F
  · dsimp only
    split <;> nofun

theorem runs_upk : Runs execUpk := by
  refine runs_command (fun s hs _ => upkBody_notStuck hs.payload) fun s t hs h => ?_
  obtain ⟨-, -, rfl⟩ := upkBody_next h
  exact ⟨hs.payload, hs.decoded, hs.count, fun hp => (hs.tree hp).congr rfl rfl rfl rfl rfl⟩

theorem runs_wlk : Runs execWlk := by
  refine runs_command (fun s hs ha => wlkBody_notStuck (hs.tree (.inr ?_))) fun s t hs h => ?_
  · exact ((accepts_iff .wlk s).1 ha).1
  · obtain ⟨bytes, -, -, hcap, rfl⟩ := wlkBody_next h
    exact ⟨hs.payload, (toNat_ofNat_le 40 _).trans hcap, hs.count, nofun⟩

theorem runs_emt : Runs execEmt := by
  refine runs_command (fun s hs _ => emtBody_notStuck hs.decoded) fun s t hs h => ?_
  obtain ⟨-, rfl⟩ := emtBody_next h
  exact ⟨hs.payload, hs.decoded, hs.count, nofun⟩

/-- What holds of every stage `CMP` can run holds of the stages it runs (rule R192). -/
theorem forall_cmpStages {P : (State → StepResult) → Prop} (hcnt : P execCnt) (hbld : P execBld)
    (hgen : P execGen) (henc : P execEnc) (hpck : P execPck) (hser : P execSer) (s : State) :
    ∀ c ∈ cmpStages s, P c := by
  unfold cmpStages
  split <;> simp [hcnt, hbld, hgen, henc, hpck, hser]

/-- What holds of every stage `DCM` can run after `PAR` holds of the stages it runs (rule R193). -/
theorem forall_dcmStages {P : (State → StepResult) → Prop} (hbld : P execBld) (hupk : P execUpk)
    (hwlk : P execWlk) (hemt : P execEmt) (s : State) : ∀ c ∈ dcmStages s, P c := by
  unfold dcmStages
  split <;> simp [hbld, hupk, hwlk, hemt]

theorem runs_cmp : Runs execCmp := by
  intro s hs
  unfold execCmp
  split
  · exact runs_stages
      (forall_cmpStages runs_cnt runs_bld runs_gen runs_enc runs_pck runs_ser s) s hs
  · exact ⟨_, rfl, hs.reject _⟩

theorem runs_dcm : Runs execDcm := by
  intro s hs
  unfold execDcm
  split
  · exact runs_par.andThen (g := fun t => stages (dcmStages t))
      (fun t => runs_stages (forall_dcmStages runs_bld runs_upk runs_wlk runs_emt t)) s hs
  · exact ⟨_, rfl, hs.reject _⟩

/-- Every command reaches a next state from a runnable one. -/
theorem runs_exec (i : Instr) : Runs (exec i) :=
  match i with
  | .clr => fun s _ => ⟨_, rfl, s.cleared_runnable⟩
  | .cnt => runs_cnt
  | .bld => runs_bld
  | .gen => runs_gen
  | .enc => runs_enc
  | .pck => runs_pck
  | .ser => runs_ser
  | .par => runs_par
  | .upk => runs_upk
  | .wlk => runs_wlk
  | .emt => runs_emt
  | .cmp => runs_cmp
  | .dcm => runs_dcm

/-- A write to `CMD` reaches a next state: a reserved code is rejected (rule R84). -/
theorem runs_commandWrite (w : Byte) : Runs (commandWrite w) := by
  intro s hs
  unfold commandWrite
  split
  · exact runs_exec _ s hs
  · exact ⟨_, rfl, hs.reject _⟩

/-- An action of the host stops the machine only if it runs a command that stops. -/
theorem hostStep_next (a : HostAction) {s : State} (hs : s.Runnable) : ∃ t, hostStep a s = .next t := by
  cases a with
  | command w => exact (runs_commandWrite w s hs).imp fun _ h => h.1
  | _ => exact ⟨_, rfl⟩

/-- Settles O46: the invariant makes the state runnable, and then whatever the host does next answers
a next state. -/
theorem invariantStatesNeverStop : Obligations.InvariantStatesNeverStop := by
  intro s hs
  unfold step nextAction
  split
  · exact ⟨s, rfl⟩
  · rename_i a rest _
    have hr := hs.runnable
    exact hostStep_next a ⟨hr.payload, hr.decoded, hr.count,
      fun hp => (hr.tree hp).congr rfl rfl rfl rfl rfl⟩

end Sys2Proof.Machine

/-! What an unspecified cell holds never matters to a command (spec/10_state.md rule R56): O48. Two
states that agree differ in what a command cannot see, so each body computes the same of both: its
guards read registers and valid cells, and what it makes valid it has written. -/

namespace Sys2Proof.Machine

/-! ## Agreement -/

/-- The fields in which two states in agreement can differ. -/
structure Hidden where
  inBuf : Memory Byte
  out : Memory Byte
  pay : Memory Byte
  bits : Memory Bit
  dbuf : Memory Byte
  host : List HostAction
  epoch : Nat
  draws : Nat
  lastRead : Option Nat

/-- The state with the same registers and other hidden fields. -/
def State.withHidden (u : State) (c : Hidden) : State :=
  { u with
    inBuf := c.inBuf, out := c.out, pay := c.pay, bits := c.bits, dbuf := c.dbuf,
    host := c.host, epoch := c.epoch, draws := c.draws, lastRead := c.lastRead }

@[simp] theorem State.withHidden_config (u : State) (c : Hidden) :
    (u.withHidden c).config = u.config := rfl
@[simp] theorem State.withHidden_inLen (u : State) (c : Hidden) : (u.withHidden c).inLen = u.inLen := rfl
@[simp] theorem State.withHidden_payLen (u : State) (c : Hidden) :
    (u.withHidden c).payLen = u.payLen := rfl
@[simp] theorem State.withHidden_padLen (u : State) (c : Hidden) :
    (u.withHidden c).padLen = u.padLen := rfl
@[simp] theorem State.withHidden_node (u : State) (c : Hidden) : (u.withHidden c).node = u.node := rfl
@[simp] theorem State.withHidden_root (u : State) (c : Hidden) : (u.withHidden c).root = u.root := rfl
@[simp] theorem State.withHidden_code (u : State) (c : Hidden) : (u.withHidden c).code = u.code := rfl

theorem State.Agrees.eq_withHidden {s u : State} (h : s.Agrees u) : ∃ c, s = u.withHidden c :=
  ⟨⟨s.inBuf, s.out, s.pay, s.bits, s.dbuf, s.host, s.epoch, s.draws, s.lastRead⟩, h.registers⟩

/-- The valid cells of a byte space read equal. -/
def CellsAgree (s u : State) (sp : Space) : Prop :=
  ∀ a < s.validLen sp, s.byteAt sp a = u.byteAt sp a

theorem State.Agrees.cells {s u : State} (h : s.Agrees u) (sp : Space) : CellsAgree s u sp :=
  h.bytes sp

/-- Agreement, space by space. -/
theorem agrees_of_cells {s u : State} (hr : ∃ c, s = u.withHidden c) (hi : CellsAgree s u .inp)
    (ho : CellsAgree s u .out) (hp : CellsAgree s u .pay) (hd : CellsAgree s u .dbuf)
    (hb : ∀ a < s.bitLen.toNat, s.bitAt a = u.bitAt a) : s.Agrees u := by
  refine ⟨?_, fun sp => ?_, hb⟩
  · obtain ⟨c, rfl⟩ := hr
    rfl
  · cases sp <;> assumption

/-- Cells that both states have written alike read equal, whatever was there before. -/
theorem cellsAgree_store {s u : State} {sp : Space} {m m' : Memory Byte} {vs : List Byte}
    (hs : s.space sp = m.store 0 vs) (hu : u.space sp = m'.store 0 vs)
    (hl : s.validLen sp ≤ vs.length) : CellsAgree s u sp := by
  intro a ha
  have hv : vs[a]? = some vs[a] := List.getElem?_eq_getElem (by omega)
  rw [State.byteAt_of_written (v := vs[a]) (by rw [hs, Memory.read?_store_zero, if_pos (by omega), hv]),
    State.byteAt_of_written (v := vs[a]) (by rw [hu, Memory.read?_store_zero, if_pos (by omega), hv])]

theorem bitsAgree_store {s u : State} {m m' : Memory Bit} {vs : List Bit}
    (hs : s.bits = m.store 0 vs) (hu : u.bits = m'.store 0 vs) (hl : s.bitLen.toNat ≤ vs.length) :
    ∀ a < s.bitLen.toNat, s.bitAt a = u.bitAt a := by
  intro a ha
  have hv : vs[a]? = some vs[a] := List.getElem?_eq_getElem (by omega)
  rw [State.bitAt_of_written (v := vs[a]) (by rw [hs, Memory.read?_store_zero, if_pos (by omega), hv]),
    State.bitAt_of_written (v := vs[a]) (by rw [hu, Memory.read?_store_zero, if_pos (by omega), hv])]

/-- The valid cells as a list. -/
theorem CellsAgree.bytes_eq {s u : State} {sp : Space} (h : CellsAgree s u sp) {n : Nat}
    (hn : n ≤ s.validLen sp) : s.bytes sp n = u.bytes sp n :=
  List.map_congr_left fun a ha => h a (by have := List.mem_range.1 ha; omega)

theorem CellsAgree.memRead_eq {s u : State} {sp : Space} (h : CellsAgree s u sp) {a n : Nat}
    (hn : a + n ≤ s.validLen sp) : s.memRead sp a n = u.memRead sp a n :=
  congrArg leValue (List.map_congr_left fun k hk => h (a + k) (by
    have := List.mem_range.1 hk
    omega))

section
variable {u : State} {c : Hidden} (h : (u.withHidden c).Agrees u)
include h

theorem State.Agrees.input_eq : (u.withHidden c).input = u.input :=
  (h.cells .inp).bytes_eq (Nat.le_refl _)

theorem State.Agrees.payload_eq : (u.withHidden c).payload = u.payload :=
  (h.cells .pay).bytes_eq (Nat.le_refl _)

theorem State.Agrees.decodedBytes_eq : (u.withHidden c).decodedBytes = u.decodedBytes :=
  (h.cells .dbuf).bytes_eq (Nat.le_refl _)

theorem State.Agrees.bitSeq_eq : (u.withHidden c).bitSeq = u.bitSeq :=
  List.map_congr_left fun a ha => h.bits a (List.mem_range.1 ha)

end

/-! ## The end of a command -/

theorem State.Agrees.succeed {s u : State} (h : s.Agrees u) : s.succeed.Agrees u.succeed := by
  obtain ⟨c, rfl⟩ := h.eq_withHidden
  exact ⟨rfl, h.bytes, h.bits⟩

theorem State.Agrees.failWith {s u : State} (h : s.Agrees u) (r : Result) (e : Cause) :
    (s.failWith r e).Agrees (u.failWith r e) := by
  obtain ⟨c, rfl⟩ := h.eq_withHidden
  exact ⟨rfl, h.bytes, h.bits⟩

theorem State.Agrees.reject {s u : State} (h : s.Agrees u) (r : Result) :
    (s.reject r).Agrees (u.reject r) := by
  obtain ⟨c, rfl⟩ := h.eq_withHidden
  exact ⟨rfl, h.bytes, h.bits⟩

/-- After `CLR` no cell is valid. -/
theorem State.Agrees.cleared {s u : State} (h : s.Agrees u) : s.cleared.Agrees u.cleared := by
  obtain ⟨c, rfl⟩ := h.eq_withHidden
  refine ⟨rfl, fun sp a ha => ?_, fun a ha => absurd ha (Nat.not_lt_zero a)⟩
  cases sp <;> exact absurd ha (Nat.not_lt_zero a)

/-- Two bodies end alike: both complete, in agreement, or both stop for the same reason. -/
def BodiesAgree : Except Stop State → Except Stop State → Prop
  | .ok t, .ok v => t.Agrees v
  | .error e, .error f => e = f
  | _, _ => False

theorem bodiesAgree_ite {p : Prop} [Decidable p] {a b a' b' : Except Stop State}
    (h : p → BodiesAgree a a') (h' : ¬ p → BodiesAgree b b') :
    BodiesAgree (if p then a else b) (if p then a' else b') := by
  split
  · exact h ‹_›
  · exact h' ‹_›

theorem conclude_agrees {s u : State} (h : s.Agrees u) {r r' : Except Stop State}
    (hb : BodiesAgree r r') : OutcomesAgree (conclude s r) (conclude u r') := by
  match r, r' with
  | .ok t, .ok v => exact State.Agrees.succeed hb
  | .error e, .error f =>
    obtain rfl : e = f := hb
    cases e with
    | raise r c => exact h.failWith r c
    | stuck f => exact (rfl : f = f)
  | .ok _, .error _ => exact hb.elim
  | .error _, .ok _ => exact hb.elim

/-- The command ends alike in two states that agree. -/
def Respects (c : State → StepResult) : Prop :=
  ∀ s u : State, s.Agrees u → OutcomesAgree (c s) (c u)

/-- The sequencer reads registers alone. -/
theorem accepts_withHidden (i : Instr) (u : State) (c : Hidden) :
    accepts i (u.withHidden c) = accepts i u := by
  cases i <;> rfl

theorem respects_command {i : Instr} {body : State → Except Stop State}
    (hb : ∀ u c, (u.withHidden c).Agrees u → BodiesAgree (body (u.withHidden c)) (body u)) :
    Respects fun s => command (accepts i s) body s := by
  intro s u h
  obtain ⟨c, rfl⟩ := h.eq_withHidden
  simp only [command, accepts_withHidden]
  split
  · exact conclude_agrees h (hb u c h)
  · exact h.reject _

theorem andThen_agrees {o o' : StepResult} {g g' : State → StepResult} (ho : OutcomesAgree o o')
    (hg : ∀ t v, t.Agrees v → OutcomesAgree (g t) (g' v)) :
    OutcomesAgree (andThen o g) (andThen o' g') := by
  match o, o' with
  | .next t, .next v =>
    have ht : t.Agrees v := ho
    have hres : t.result = v.result := by
      obtain ⟨c, rfl⟩ := ht.eq_withHidden
      rfl
    by_cases hr : v.result = .ok
    · rw [andThen_ok (hres.trans hr), andThen_ok hr]
      exact hg t v ht
    · rw [andThen_not_ok (hres ▸ hr), andThen_not_ok hr]
      exact ht
  | .fault _, .fault _ => exact ho
  | .refused _, .refused _ => exact ho
  | .next _, .fault _ => exact ho.elim
  | .next _, .refused _ => exact ho.elim
  | .fault _, .next _ => exact ho.elim
  | .fault _, .refused _ => exact ho.elim
  | .refused _, .next _ => exact ho.elim
  | .refused _, .fault _ => exact ho.elim

theorem respects_stages {cs : List (State → StepResult)} (h : ∀ c ∈ cs, Respects c) :
    Respects (stages cs) := by
  induction cs with
  | nil => exact fun s u hsu => hsu
  | cons c cs ih =>
    intro s u hsu
    rw [stages_cons, stages_cons]
    exact andThen_agrees (h c (by simp) s u hsu) (ih fun d hd => h d (by simp [hd]))

/-! ## The commands -/

theorem respects_clr : Respects execClr := fun _ _ h => h.cleared

theorem respects_cnt : Respects execCnt := by
  refine respects_command fun u c h => ?_
  unfold cntBody
  rw [h.input_eq]
  refine bodiesAgree_ite (fun _ => ?_) fun _ => ?_
  · exact agrees_of_cells ⟨c, rfl⟩ (h.cells .inp) (h.cells .out)
      (fun a ha => absurd ha (Nat.not_lt_zero a)) (h.cells .dbuf) h.bits
  · exact agrees_of_cells ⟨c, rfl⟩ (h.cells .inp) (h.cells .out) (h.cells .pay) (h.cells .dbuf) h.bits

theorem respects_bld : Respects execBld := by
  refine respects_command fun u c h => ?_
  unfold bldBody
  refine bodiesAgree_ite (fun _ => rfl) fun _ => bodiesAgree_ite (fun _ => rfl) fun _ => ?_
  exact agrees_of_cells ⟨c, rfl⟩ (h.cells .inp) (h.cells .out) (h.cells .pay) (h.cells .dbuf) h.bits

theorem respects_gen : Respects execGen := by
  refine respects_command fun u c h => ?_
  simp only [genBody, State.withHidden_node, State.withHidden_root]
  cases visit u.node (clenMax + 1) u.root [] CodeTable.empty with
  | error e => rfl
  | ok t =>
    exact agrees_of_cells ⟨c, rfl⟩ (h.cells .inp) (h.cells .out) (h.cells .pay) (h.cells .dbuf) h.bits

theorem respects_enc : Respects execEnc := by
  refine respects_command fun u c h => ?_
  simp only [encBody, h.input_eq, State.withHidden_code, State.withHidden_config]
  cases encodeBits u.code u.config.bitsCap u.input 0 with
  | error e => rfl
  | ok bs =>
    exact agrees_of_cells ⟨{ c with bits := c.bits.store 0 bs }, rfl⟩ (h.cells .inp) (h.cells .out)
      (h.cells .pay) (h.cells .dbuf) (bitsAgree_store rfl rfl (toNat_ofNat_le 40 _))

theorem respects_pck : Respects execPck := by
  refine respects_command fun u c h => ?_
  unfold pckBody
  rw [h.bitSeq_eq]
  refine bodiesAgree_ite (fun _ => rfl) fun _ => ?_
  exact agrees_of_cells ⟨{ c with pay := c.pay.store 0 (packBits u.bitSeq) }, rfl⟩ (h.cells .inp)
    (h.cells .out) (cellsAgree_store rfl rfl (toNat_ofNat_le 40 _)) (h.cells .dbuf) h.bits

theorem respects_ser : Respects execSer := by
  refine respects_command fun u c h => ?_
  unfold serBody
  rw [h.payload_eq]
  refine bodiesAgree_ite (fun _ => rfl) fun _ => bodiesAgree_ite (fun _ => rfl) fun hk => ?_
  have hk : (keys u.freq).length = u.symcnt.toNat := not_not.1 hk
  have hlen : (containerBytes u.freq u.symcnt.toNat u.padLen.toNat u.payload).length =
      3 + 5 * u.symcnt.toNat + u.payLen.toNat := by
    rw [containerBytes_length, State.payload_length, hk]
  exact agrees_of_cells
    ⟨{ c with out := c.out.store 0 (containerBytes u.freq u.symcnt.toNat u.padLen.toNat u.payload) }, rfl⟩
    (h.cells .inp) (cellsAgree_store rfl rfl ((toNat_ofNat_le 40 _).trans_eq hlen.symm))
    (h.cells .pay) (h.cells .dbuf) h.bits

theorem storeWithin_of_lt {α : Type} {cap : Nat} {vs : List α} (h : cap < vs.length) (m : Memory α) :
    storeWithin cap vs m = .error (.stuck .noCell) := if_neg (Nat.not_le.2 h)

theorem respects_upk : Respects execUpk := by
  refine respects_command fun u c h => ?_
  simp only [upkBody, h.payload_eq, State.withHidden_payLen, State.withHidden_padLen,
    State.withHidden_config]
  generalize unpackBits u.payload (8 * u.payLen.toNat - u.padLen.toNat) = bs
  refine bodiesAgree_ite (fun _ => rfl) fun _ => ?_
  rcases Nat.lt_or_ge u.config.bitsCap bs.length with hcap | hcap
  · rw [storeWithin_of_lt hcap, storeWithin_of_lt hcap]
    rfl
  · rw [storeWithin_of_le hcap, storeWithin_of_le hcap]
    exact agrees_of_cells ⟨{ c with bits := c.bits.store 0 bs }, rfl⟩ (h.cells .inp) (h.cells .out)
      (h.cells .pay) (h.cells .dbuf) (bitsAgree_store rfl rfl (toNat_ofNat_le 40 _))

theorem respects_wlk : Respects execWlk := by
  refine respects_command fun u c h => ?_
  simp only [wlkBody, h.bitSeq_eq, State.withHidden_node, State.withHidden_root,
    State.withHidden_config]
  cases walkBits u.node u.root u.config.outCap u.bitSeq u.root 0 with
  | error e => rfl
  | ok p =>
    refine bodiesAgree_ite (fun _ => rfl) fun _ => bodiesAgree_ite (fun _ => rfl) fun _ => ?_
    exact agrees_of_cells ⟨{ c with dbuf := c.dbuf.store 0 p.2 }, rfl⟩ (h.cells .inp) (h.cells .out)
      (h.cells .pay) (cellsAgree_store rfl rfl (toNat_ofNat_le 40 _)) h.bits

theorem respects_emt : Respects execEmt := by
  refine respects_command fun u c h => ?_
  simp only [emtBody, h.decodedBytes_eq, State.withHidden_config]
  rcases Nat.lt_or_ge u.config.outCap u.decodedBytes.length with hcap | hcap
  · rw [storeWithin_of_lt hcap, storeWithin_of_lt hcap]
    rfl
  · rw [storeWithin_of_le hcap, storeWithin_of_le hcap]
    exact agrees_of_cells ⟨{ c with out := c.out.store 0 u.decodedBytes }, rfl⟩ (h.cells .inp)
      (cellsAgree_store rfl rfl u.decodedBytes_length.ge) (h.cells .pay) (h.cells .dbuf) h.bits

/-- The loop of `PAR` reads the entries alone: the cells before the padding-length byte (rule R88). -/
theorem parseEntries_congr {s u : State} (h : CellsAgree s u .inp) {todo k : Nat}
    (hl : 2 + 5 * (k + todo) ≤ s.inLen.toNat) (F : Vector Count 256) :
    parseEntries s todo k F = parseEntries u todo k F := by
  induction todo generalizing k F with
  | zero => rfl
  | succ todo ih =>
    have hsym : s.byteAt .inp (2 + 5 * k) = u.byteAt .inp (2 + 5 * k) :=
      h _ (show _ < s.inLen.toNat by omega)
    have hfreq : s.memRead .inp (3 + 5 * k) 4 = u.memRead .inp (3 + 5 * k) 4 :=
      h.memRead_eq (show _ ≤ s.inLen.toNat by omega)
    simp only [parseEntries, hsym, hfreq, fun F => ih (k := k + 1) (by omega) F]

/-- Each check of `PAR` bounds what the next one reads (rule R170). -/
theorem respects_par : Respects execPar := by
  refine respects_command fun u c h => ?_
  have hin := h.cells .inp
  unfold parBody
  refine bodiesAgree_ite (fun _ => rfl) fun h2 => ?_
  change ¬ u.inLen.toNat < 2 at h2
  rw [hin.memRead_eq (show 0 + 2 ≤ u.inLen.toNat by omega)]
  generalize u.memRead .inp 0 2 = n
  refine bodiesAgree_ite (fun _ => rfl) fun _ => bodiesAgree_ite (fun _ => rfl) fun hn => ?_
  change ¬ u.inLen.toNat < 2 + 5 * n + 1 at hn
  rw [parseEntries_congr hin (show 2 + 5 * (0 + n) ≤ u.inLen.toNat by omega),
    hin _ (show 2 + 5 * n < u.inLen.toNat by omega)]
  cases parseEntries u n 0 (Vector.replicate 256 0#32) with
  | error e => rfl
  | ok F =>
    have hpay : ((List.range (u.inLen.toNat - (3 + 5 * n))).map fun i =>
          (u.withHidden c).byteAt .inp (3 + 5 * n + i)) =
        (List.range (u.inLen.toNat - (3 + 5 * n))).map fun i => u.byteAt .inp (3 + 5 * n + i) :=
      List.map_congr_left fun i hi => hin _ (show _ < u.inLen.toNat by
        have := List.mem_range.1 hi
        omega)
    simp only [State.withHidden_inLen, State.withHidden_config, hpay]
    generalize hp : ((List.range (u.inLen.toNat - (3 + 5 * n))).map fun i =>
      u.byteAt .inp (3 + 5 * n + i)) = payload
    have hlen : (BitVec.ofNat 40 (u.inLen.toNat - (3 + 5 * n))).toNat ≤ payload.length := by
      rw [← hp, List.length_map, List.length_range]
      exact toNat_ofNat_le 40 _
    refine bodiesAgree_ite (fun _ => rfl) fun _ => bodiesAgree_ite (fun _ => rfl) fun _ =>
      bodiesAgree_ite (fun _ => rfl) fun _ => bodiesAgree_ite (fun _ => ?_) fun _ => ?_
    · exact agrees_of_cells ⟨{ c with pay := c.pay.store 0 payload }, rfl⟩ hin (h.cells .out)
        (cellsAgree_store rfl rfl hlen) (h.cells .dbuf) h.bits
    · exact agrees_of_cells ⟨{ c with pay := c.pay.store 0 payload }, rfl⟩ hin (h.cells .out)
        (cellsAgree_store rfl rfl hlen) (fun a ha => absurd ha (Nat.not_lt_zero a)) h.bits

theorem respects_cmp : Respects execCmp := by
  intro s u h
  obtain ⟨c, rfl⟩ := h.eq_withHidden
  simp only [execCmp, accepts_withHidden]
  split
  · exact respects_stages (forall_cmpStages respects_cnt respects_bld respects_gen respects_enc
      respects_pck respects_ser u) _ u h
  · exact h.reject _

theorem respects_dcm : Respects execDcm := by
  intro s u h
  obtain ⟨c, rfl⟩ := h.eq_withHidden
  simp only [execDcm, accepts_withHidden]
  split
  · refine andThen_agrees (respects_par _ u h) fun t v htv => ?_
    obtain ⟨d, rfl⟩ := htv.eq_withHidden
    exact respects_stages
      (forall_dcmStages respects_bld respects_upk respects_wlk respects_emt v) _ v htv
  · exact h.reject _

/-- Settles O48: command by command, `CMP` and `DCM` by their stages. -/
theorem unspecifiedCellsNeverMatter : Obligations.UnspecifiedCellsNeverMatter := by
  intro i
  cases i with
  | clr => exact respects_clr
  | cnt => exact respects_cnt
  | bld => exact respects_bld
  | gen => exact respects_gen
  | enc => exact respects_enc
  | pck => exact respects_pck
  | ser => exact respects_ser
  | par => exact respects_par
  | upk => exact respects_upk
  | wlk => exact respects_wlk
  | emt => exact respects_emt
  | cmp => exact respects_cmp
  | dcm => exact respects_dcm

end Sys2Proof.Machine

/-! Every register, table and buffer is written only by the commands listed for it (spec/10_state.md
rules R22, R30 and R66): O12. -/

namespace Sys2Proof.Machine

/-- The command `i`, going from `s` to `t`, has written nothing it is not listed for: one clause for
each group of fields that the tables of rules R30 and R66 give the same writers. -/
structure OnlyWrites (i : Instr) (s t : State) : Prop where
  input : i ∉ [.clr] → t.inBuf = s.inBuf ∧ t.inLen = s.inLen ∧ t.epoch = s.epoch
  counts : i ∉ [.clr, .cnt, .par, .cmp, .dcm] → t.freq = s.freq ∧ t.symcnt = s.symcnt
  tree : i ∉ [.clr, .bld, .cmp, .dcm] → t.node = s.node ∧ t.nnodes = s.nnodes ∧ t.root = s.root
  codes : i ∉ [.clr, .gen, .cmp] → t.clen = s.clen ∧ t.cbits = s.cbits ∧ t.ctv = s.ctv
  bits : i ∉ [.clr, .enc, .upk, .cmp, .dcm] → t.bits = s.bits ∧ t.bitLen = s.bitLen ∧ t.bsv = s.bsv
  payload : i ∉ [.clr, .pck, .par, .cmp, .dcm] → t.pay = s.pay
  payloadLengths : i ∉ [.clr, .cnt, .pck, .par, .cmp, .dcm] →
    t.padLen = s.padLen ∧ t.payLen = s.payLen
  decoded : i ∉ [.clr, .wlk, .dcm] → t.dbuf = s.dbuf
  decodedLength : i ∉ [.clr, .par, .wlk, .dcm] → t.dLen = s.dLen
  output : i ∉ [.clr, .ser, .emt, .cmp, .dcm] → t.out = s.out ∧ t.outLen = s.outLen
  outside : t.config = s.config ∧ t.host = s.host ∧ t.draws = s.draws ∧ t.lastRead = s.lastRead

/-- A command that changes nothing writes nothing. -/
theorem onlyWrites_refl (i : Instr) (s : State) : OnlyWrites i s s := by
  constructor <;> simp

/-- Field by field, what two commands in a row leave unchanged is unchanged. -/
theorem OnlyWrites.trans {i : Instr} {s t u : State} (h : OnlyWrites i s t) (h' : OnlyWrites i t u) :
    OnlyWrites i s u := by
  constructor <;> grind [OnlyWrites]

theorem onlyWrites_reject (i : Instr) (s : State) (r : Result) : OnlyWrites i s (s.reject r) := by
  constructor <;> simp

/-- A command writes what its body writes: a failure or a rejection writes the outcome alone. -/
theorem onlyWrites_command {i : Instr} {acc : Bool} {body : State → Except Stop State} {s t : State}
    (hb : ∀ u, body s = .ok u → OnlyWrites i s u) (h : command acc body s = .next t) :
    OnlyWrites i s t := by
  rcases command_next h with ⟨-, rfl⟩ | ⟨-, u, hu, rfl⟩ | ⟨-, r, c, -, rfl⟩
  · exact onlyWrites_reject i s _
  · exact (hb u hu).trans (by constructor <;> simp)
  · constructor <;> simp

/-! ## The commands -/

theorem onlyWrites_clr {s t : State} (h : execClr s = .next t) : OnlyWrites .clr s t := by
  injection h with h
  subst h
  constructor <;> simp

theorem onlyWrites_cnt {s t : State} (h : execCnt s = .next t) : OnlyWrites .cnt s t := by
  refine onlyWrites_command (fun u hu => ?_) h
  unfold cntBody at hu
  dsimp only at hu
  split at hu <;> injection hu with hu <;> subst hu <;> constructor <;> simp

theorem onlyWrites_bld {s t : State} (h : execBld s = .next t) : OnlyWrites .bld s t := by
  refine onlyWrites_command (fun u hu => ?_) h
  obtain ⟨-, -, rfl⟩ := bldBody_next hu
  constructor <;> simp

theorem onlyWrites_gen {s t : State} (h : execGen s = .next t) : OnlyWrites .gen s t := by
  refine onlyWrites_command (fun u hu => ?_) h
  obtain ⟨tbl, -, rfl⟩ := genBody_next hu
  constructor <;> simp

theorem onlyWrites_enc {s t : State} (h : execEnc s = .next t) : OnlyWrites .enc s t := by
  refine onlyWrites_command (fun u hu => ?_) h
  obtain ⟨-, -, rfl⟩ := encBody_next hu
  constructor <;> simp

theorem onlyWrites_pck {s t : State} (h : execPck s = .next t) : OnlyWrites .pck s t := by
  refine onlyWrites_command (fun u hu => ?_) h
  obtain ⟨-, rfl⟩ := pckBody_next hu
  constructor <;> simp

theorem onlyWrites_ser {s t : State} (h : execSer s = .next t) : OnlyWrites .ser s t := by
  refine onlyWrites_command (fun u hu => ?_) h
  obtain ⟨-, -, rfl⟩ := serBody_next hu
  constructor <;> simp

theorem onlyWrites_par {s t : State} (h : execPar s = .next t) : OnlyWrites .par s t := by
  refine onlyWrites_command (fun u hu => ?_) h
  obtain ⟨F, n, -, -, -, -, -, -, -, -, rfl⟩ := parBody_next hu
  constructor <;> simp

theorem onlyWrites_upk {s t : State} (h : execUpk s = .next t) : OnlyWrites .upk s t := by
  refine onlyWrites_command (fun u hu => ?_) h
  obtain ⟨-, -, rfl⟩ := upkBody_next hu
  constructor <;> simp

theorem onlyWrites_wlk {s t : State} (h : execWlk s = .next t) : OnlyWrites .wlk s t := by
  refine onlyWrites_command (fun u hu => ?_) h
  obtain ⟨bytes, -, -, -, rfl⟩ := wlkBody_next hu
  constructor <;> simp

theorem onlyWrites_emt {s t : State} (h : execEmt s = .next t) : OnlyWrites .emt s t := by
  refine onlyWrites_command (fun u hu => ?_) h
  obtain ⟨-, rfl⟩ := emtBody_next hu
  constructor <;> simp

/-! ## `CMP` and `DCM` -/

/-- A stage of `CMP` writes nothing that `CMP` is not listed for. -/
theorem OnlyWrites.cmp_of_stage {i : Instr} {s t : State} (h : OnlyWrites i s t)
    (hi : i ∈ [.cnt, .bld, .gen, .enc, .pck, .ser]) : OnlyWrites .cmp s t := by
  simp only [List.mem_cons, List.not_mem_nil, or_false] at hi
  constructor <;> grind [OnlyWrites]

/-- A stage of `DCM` writes nothing that `DCM` is not listed for. -/
theorem OnlyWrites.dcm_of_stage {i : Instr} {s t : State} (h : OnlyWrites i s t)
    (hi : i ∈ [.par, .bld, .upk, .wlk, .emt]) : OnlyWrites .dcm s t := by
  simp only [List.mem_cons, List.not_mem_nil, or_false] at hi
  constructor <;> grind [OnlyWrites]

/-- A sequence of stages writes what its stages write (rule R191). -/
theorem onlyWrites_stages {i : Instr} {cs : List (State → StepResult)}
    (hc : ∀ c ∈ cs, ∀ s t, c s = .next t → OnlyWrites i s t) {s t : State}
    (h : stages cs s = .next t) : OnlyWrites i s t :=
  stages_induction (P := OnlyWrites i s) (fun c hm u v hu hv => hu.trans (hc c hm u v hv))
    (onlyWrites_refl i s) h

theorem onlyWrites_cmp {s t : State} (h : execCmp s = .next t) : OnlyWrites .cmp s t := by
  unfold execCmp at h
  split at h
  · refine onlyWrites_stages (forall_cmpStages
      (P := fun c => ∀ s t, c s = .next t → OnlyWrites .cmp s t) ?_ ?_ ?_ ?_ ?_ ?_ s) h
    · exact fun _ _ h => (onlyWrites_cnt h).cmp_of_stage (by decide)
    · exact fun _ _ h => (onlyWrites_bld h).cmp_of_stage (by decide)
    · exact fun _ _ h => (onlyWrites_gen h).cmp_of_stage (by decide)
    · exact fun _ _ h => (onlyWrites_enc h).cmp_of_stage (by decide)
    · exact fun _ _ h => (onlyWrites_pck h).cmp_of_stage (by decide)
    · exact fun _ _ h => (onlyWrites_ser h).cmp_of_stage (by decide)
  · injection h with h
    exact h ▸ onlyWrites_reject .cmp s _

theorem onlyWrites_dcm {s t : State} (h : execDcm s = .next t) : OnlyWrites .dcm s t := by
  unfold execDcm at h
  split at h
  · have hpar : ∀ u, execPar s = .next u → OnlyWrites .dcm s u :=
      fun _ hu => (onlyWrites_par hu).dcm_of_stage (by decide)
    rcases andThen_next h with ⟨ht, -⟩ | ⟨u, hu, -, hut⟩
    · exact hpar t ht
    · refine (hpar u hu).trans (onlyWrites_stages (forall_dcmStages
        (P := fun c => ∀ s t, c s = .next t → OnlyWrites .dcm s t) ?_ ?_ ?_ ?_ u) hut)
      · exact fun _ _ h => (onlyWrites_bld h).dcm_of_stage (by decide)
      · exact fun _ _ h => (onlyWrites_upk h).dcm_of_stage (by decide)
      · exact fun _ _ h => (onlyWrites_wlk h).dcm_of_stage (by decide)
      · exact fun _ _ h => (onlyWrites_emt h).dcm_of_stage (by decide)
  · injection h with h
    exact h ▸ onlyWrites_reject .dcm s _

theorem onlyWrites_exec (i : Instr) {s t : State} (h : exec i s = .next t) : OnlyWrites i s t := by
  cases i with
  | clr => exact onlyWrites_clr h
  | cnt => exact onlyWrites_cnt h
  | bld => exact onlyWrites_bld h
  | gen => exact onlyWrites_gen h
  | enc => exact onlyWrites_enc h
  | pck => exact onlyWrites_pck h
  | ser => exact onlyWrites_ser h
  | par => exact onlyWrites_par h
  | upk => exact onlyWrites_upk h
  | wlk => exact onlyWrites_wlk h
  | emt => exact onlyWrites_emt h
  | cmp => exact onlyWrites_cmp h
  | dcm => exact onlyWrites_dcm h

/-- Settles O12: clause by clause what each command writes. -/
theorem onlyTheListedCommandsWrite : Obligations.OnlyTheListedCommandsWrite := by
  intro i s t h
  have hw := onlyWrites_exec i h
  exact ⟨hw.input, hw.counts, hw.tree, hw.codes, hw.bits, hw.payload, hw.payloadLengths, hw.decoded,
    hw.decodedLength, hw.output, hw.outside⟩

end Sys2Proof.Machine

/-! What the host does to the block between commands (spec/10_state.md rules R30, R31 and R55,
spec/70_reset_and_hazards.md rules R230 and R232), and the state after reset: O2, O4, O5, O6, O44. -/

namespace Sys2Proof.Machine

/-! ## One step -/

theorem step_of_host {s : State} {a : HostAction} {rest : List HostAction} (h : s.host = a :: rest) :
    step s = hostStep a { s with host := rest } := by
  simp only [step, nextAction, h]

theorem step_of_no_host {s : State} (h : s.host = []) : step s = .next s := by
  simp only [step, nextAction, h]

/-- Settles O2: the next action is a `CMD` write, which runs what it decodes to. -/
theorem stepRunsTheDecodedCommand : Obligations.StepRunsTheDecodedCommand := by
  refine ⟨fun s w rest i h hw => ?_, fun s h => step_of_no_host h⟩
  rw [step_of_host h]
  simp only [hostStep, commandWrite, hw]

/-! ## Host writes -/

/-- The host's actions are no cell: using one up leaves every byte cell. -/
theorem byteAt_host (s : State) (rest : List HostAction) (sp : Space) (a : Nat) :
    ({ s with host := rest } : State).byteAt sp a = s.byteAt sp a :=
  State.byteAt_congr (by cases sp <;> rfl) rfl a

/-- A write to `IN[a]` touches `IN` alone (rule R55). -/
theorem inputWrite_frame (a : Nat) (v : Byte) (s : State) :
    inputWrite a v s = { s with inBuf := (inputWrite a v s).inBuf } := by
  rcases inputWrite_cases a v s with ⟨-, -, h⟩ | ⟨-, h⟩ <;> rw [h]

/-- Settles O4: a write is accepted or refused by its guard, and an accepted one stores and keeps the
rest. -/
theorem hostWritesAreAcceptedOrRefused : Obligations.HostWritesAreAcceptedOrRefused := by
  refine ⟨fun s a v rest h => ?_, fun s n rest h => ?_, fun s l v rest h => step_of_host h⟩
  · rw [step_of_host h]
    refine ⟨fun hg => ⟨_, rfl, inputWrite_frame a v _, ?_, fun b hb => ?_⟩, fun hg => ?_⟩
    · exact (inputWrite_byteAt (s := { s with host := rest }) hg a).trans (if_pos rfl)
    · exact ((inputWrite_byteAt (s := { s with host := rest }) hg b).trans (if_neg hb)).trans
        (byteAt_host s rest .inp b)
    · exact congrArg _ (if_neg hg)
  · rw [step_of_host h]
    refine ⟨fun hg => ⟨_, rfl, if_pos hg, fun sp b => ?_⟩, fun hg => congrArg _ (if_neg hg)⟩
    rw [inLenWrite_byteAt, byteAt_host]

/-! ## Host reads -/

/-- What a location holds depends on no field that keeps what the host does or has read. -/
theorem hostRead_of_frame (l : Loc) (s : State) (rest : List HostAction) (r : Option Nat) (d : Nat) :
    hostRead l { s with host := rest, lastRead := r, draws := d } = hostRead l s := by
  cases l with
  | cell sp a => cases sp <;> rfl
  | _ => rfl

theorem flags_toNat (s : State) :
    s.flags.toNat = s.ctv.toNat + 2 * s.bsv.toNat + 4 * s.es.toNat := by
  unfold State.flags
  cases s.ctv <;> cases s.bsv <;> cases s.es <;> rfl

theorem kind_code_toNat (k : Kind) : k.code.toNat = if k = .leaf then 0 else 1 := by
  cases k <;> rfl

/-- A valid byte cell reads as it is (rules R55 and R56). -/
theorem hostRead_cell {s : State} {sp : Space} {a : Nat} (h : a < s.validLen sp) :
    hostRead (.cell sp a) s = some (s.byteAt sp a).toNat := if_pos h

theorem hostRead_bit {s : State} {a : Nat} (h : a < s.bitLen.toNat) :
    hostRead (.bit a) s = some (s.bitAt a).toNat := if_pos h

/-- A cell at or beyond its valid length has no specified value (rule R56). -/
theorem hostRead_cell_none {s : State} {sp : Space} {a : Nat} (h : ¬ a < s.validLen sp) :
    hostRead (.cell sp a) s = none := if_neg h

theorem hostRead_bit_none {s : State} {a : Nat} (h : ¬ a < s.bitLen.toNat) :
    hostRead (.bit a) s = none := if_neg h

/-- Settles O5: the read keeps all but the host's view, and where `hostRead` has a value that is what
the host gets. -/
theorem hostReadsHaveNoSideEffect : Obligations.HostReadsHaveNoSideEffect := by
  intro s l rest h
  have hframe := readBy_frame l { s with host := rest }
  have hval : ∀ v, hostRead l s = some v →
      (readBy l { s with host := rest }).lastRead = some v ∧
      (readBy l { s with host := rest }).draws = s.draws := by
    intro v hv
    rw [readBy_of_some ((hostRead_of_frame l s rest s.lastRead s.draws).trans hv)]
    exact ⟨rfl, rfl⟩
  have got : ∀ {l' v}, l = l' → hostRead l' s = some v →
      (readBy l { s with host := rest }).lastRead = some v := by
    rintro l' v rfl hv
    exact (hval v hv).1
  refine ⟨_, step_of_host h, hframe, fun l' => ?_, hval, ?_⟩
  · rw [hframe]
    exact hostRead_of_frame l' s rest _ _
  exact ⟨fun e => got e rfl, fun e => got e (congrArg some (flags_toNat s)), fun e => got e rfl,
    fun e => got e rfl, fun e => got e rfl, fun e => got e rfl, fun e => got e rfl,
    fun e => got e rfl, fun e => got e rfl, fun e => got e rfl, fun e => got e rfl,
    fun e => got e rfl, fun e => got e rfl, fun _ e => got e rfl, fun _ e => got e rfl,
    fun _ e => got e rfl, fun i e => got e (congrArg some (kind_code_toNat s.node[i].kind)),
    fun _ e => got e rfl, fun _ e => got e rfl, fun _ e => got e rfl, fun _ e => got e rfl,
    fun _ e ha => got e (hostRead_cell (sp := .inp) ha),
    fun _ e ha => got e (hostRead_cell (sp := .out) ha),
    fun _ e ha => got e (hostRead_cell (sp := .pay) ha),
    fun _ e ha => got e (hostRead_cell (sp := .dbuf) ha), fun _ e ha => got e (hostRead_bit ha)⟩

/-! ## Reset -/

/-- The reset state is the cleared state, whatever stands in the fields outside the block (rules R59
and R230). -/
theorem reset_cleared (c : Config) (h : List HostAction) (e d : Nat) (r : Option Nat) :
    ({ State.reset with config := c, host := h, epoch := e, draws := d, lastRead := r } : State).Cleared where
  phase := rfl
  flags := ⟨rfl, rfl, rfl⟩
  outcome := ⟨rfl, rfl⟩
  lengths := ⟨rfl, rfl, rfl, rfl, rfl⟩
  counters := ⟨rfl, rfl, rfl, rfl⟩
  tables sy := ⟨entry_replicate _ sy, entry_replicate _ sy, entry_replicate _ sy⟩
  records i := by simp [State.reset]
  cells := ⟨fun sp a => hostRead_cell_none (by cases sp <;> exact Nat.not_lt_zero a),
    fun a => hostRead_bit_none (Nat.not_lt_zero a)⟩
  unwritten := ⟨fun sp => by cases sp <;> rfl, rfl⟩

theorem State.cleared_cleared (s : State) : s.cleared.Cleared := reset_cleared ..

/-- Settles O6: `CLR` and reset reach `State.cleared`, which keeps what is outside the block. -/
theorem clearAndResetReachTheClearedState : Obligations.ClearAndResetReachTheClearedState :=
  ⟨reset_cleared .., fun s => ⟨_, rfl, s.cleared_cleared, rfl, rfl⟩,
    fun _ _ h => ⟨_, step_of_host h, State.cleared_cleared _, rfl, rfl⟩⟩

/-- Settles O44: no cell is listed, every length is 0, no key exists, and the clauses of the other
phases do not apply. -/
theorem resetMeetsTheInvariant : Obligations.ResetMeetsTheInvariant where
  legal := by decide
  canonical := rfl
  within := ⟨nofun, nofun, nofun, nofun, nofun⟩
  covered := ⟨nofun, nofun, nofun, nofun⟩
  lengths := ⟨Nat.zero_le _, Nat.zero_le _, Nat.zero_le _, Nat.zero_le _, Nat.zero_le _⟩
  frequencies sy := by
    rw [show State.reset.freq = Vector.replicate 256 0#32 from rfl, entry_replicate]
    exact Nat.zero_le _
  count := by
    rw [show State.reset.freq = Vector.replicate 256 0#32 from rfl, keys_zero]
    rfl
  results := by decide
  output _ := rfl
  tabled := nofun
  tree := nofun
  codes := nofun
  encoded := nofun
  padded := nofun
  idle _ := rfl
  failedSeen := nofun
  counts := nofun
  bitsValid := nofun

end Sys2Proof.Machine

/-! The cells of the spaces (spec/20_memory.md rules R61, R66 and R67): where `PCK` puts the bits of
the bit sequence, O24, and the canonical form that every step keeps, O47. -/

namespace Sys2Proof.Machine

/-! ## Reading cells after a store from cell 0 on -/

/-- A cell inside the store reads as the value stored there. -/
theorem State.byteAt_of_store_lt {t : State} {sp : Space} {m : Memory Byte} {vs : List Byte}
    (h : t.space sp = m.store 0 vs) {a : Nat} (ha : a < vs.length) :
    t.byteAt sp a = vs.getD a 0#8 := by
  refine State.byteAt_of_written ?_
  rw [h, Memory.read?_store_zero, if_pos ha, List.getD_eq_getElem vs 0#8 ha,
    List.getElem?_eq_getElem ha]

/-- A cell beyond the store reads as before. -/
theorem State.byteAt_of_store_ge {s t : State} {sp : Space} {vs : List Byte}
    (h : t.space sp = (s.space sp).store 0 vs) (he : t.epoch = s.epoch) {a : Nat}
    (ha : vs.length ≤ a) : t.byteAt sp a = s.byteAt sp a := by
  rw [State.byteAt, State.byteAt, h, he, Memory.read?_store_zero, if_neg (not_lt.2 ha)]

/-- The bit sequence, 0 beyond its length, bit by bit (rule R151). -/
theorem State.bitSeq_getD (s : State) (i : Nat) :
    s.bitSeq.getD i false = if i < s.bitLen.toNat then s.bitAt i else false := by
  split
  · rename_i h
    rw [List.getD_eq_getElem _ _ (by rwa [State.bitSeq_length]), State.bitSeq_getElem]
  · rename_i h
    exact List.getD_eq_default _ _ (by rw [State.bitSeq_length]; omega)

/-! ## `PCK` -/

/-- `PCK` completes where the bit buffer is not full (rules R151 and R155). -/
theorem pckBody_of_room {s : State} (h : s.bitLen.toNat < 8 * s.config.payCap) :
    pckBody s = .ok { s with
      pay := s.pay.store 0 (packBits s.bitSeq), padLen := BitVec.ofNat 4 (padding s.bitLen.toNat),
      payLen := BitVec.ofNat 40 (s.bitLen.toNat / 8 + 1), phase := .encoded } := by
  have hroom : ¬ s.config.payCap < s.bitLen.toNat / 8 + 1 := by omega
  simp only [pckBody, packBits_length, State.bitSeq_length, if_neg hroom]

/-- The padding length fits `PADLEN` (rule R152). -/
theorem padding_toNat (len : Nat) : (BitVec.ofNat 4 (padding len)).toNat = 8 - len % 8 := by
  have := padding_range len
  exact (BitVec.toNat_ofNat ..).trans (Nat.mod_eq_of_lt (by omega))

/-- No legal `PAY` has more than `2^37 - 1` cells (rule R8). -/
theorem Config.payCap_lt {c : Config} (h : c.legal = true) : c.payCap < 2 ^ 37 := by
  simp only [Config.legal, Bool.and_eq_true, decide_eq_true_eq] at h
  exact h.2.2

/-- Settles O24: the body stores `packBits` of the bit sequence, whose bits `packBits_bit` gives. -/
theorem packPlacesTheBits : Obligations.PackPlacesTheBits := by
  intro s hp hb hc hlen
  have hcap := Config.payCap_lt hc
  have hpay : (BitVec.ofNat 40 (s.bitLen.toNat / 8 + 1)).toNat = s.bitLen.toNat / 8 + 1 :=
    (BitVec.toNat_ofNat ..).trans (Nat.mod_eq_of_lt (by omega))
  have hbytes : (packBits s.bitSeq).length = s.bitLen.toNat / 8 + 1 := by simp
  refine ⟨_, command_of_ok ((accepts_iff .pck s).2 ⟨hp, hb⟩) (pckBody_of_room hlen),
    padding_toNat _, hpay, fun k hk j hj => ?_, fun a ha => ?_, rfl⟩
  · have hk : k < s.bitLen.toNat / 8 + 1 := hk.trans_eq hpay
    rw [State.byteAt_of_store_lt rfl (hbytes ▸ hk),
      packBits_bit _ _ _ (by rwa [State.bitSeq_length]) hj, State.bitSeq_getD]
  · have ha : (packBits s.bitSeq).length ≤ a := (hbytes.trans hpay.symm).trans_le ha
    refine State.byteAt_of_store_ge ?_ ?_ ha <;> rfl

/-! ## What a step keeps -/

/-- Where the command answers a next state, it keeps `P`. -/
def Keeps (P : State → Prop) (c : State → StepResult) : Prop :=
  ∀ s t : State, P s → c s = .next t → P t

section

variable {P : State → Prop} (hrej : ∀ s r, P s → P (s.reject r))
include hrej

/-- `CMP` keeps what a rejection and each of its stages keep (rules R191 and R192). -/
theorem keeps_cmp (hcnt : Keeps P execCnt) (hbld : Keeps P execBld) (hgen : Keeps P execGen)
    (henc : Keeps P execEnc) (hpck : Keeps P execPck) (hser : Keeps P execSer) :
    Keeps P execCmp := by
  intro s t hs h
  unfold execCmp at h
  split at h
  · exact stages_induction (forall_cmpStages (P := Keeps P) hcnt hbld hgen henc hpck hser s) hs h
  · injection h with h
    exact h ▸ hrej s _ hs

/-- `DCM` keeps what a rejection and each of its stages keep (rules R191 and R193). -/
theorem keeps_dcm (hpar : Keeps P execPar) (hbld : Keeps P execBld) (hupk : Keeps P execUpk)
    (hwlk : Keeps P execWlk) (hemt : Keeps P execEmt) : Keeps P execDcm := by
  intro s t hs h
  unfold execDcm at h
  split at h
  · rcases andThen_next h with ⟨ht, -⟩ | ⟨u, hu, -, hut⟩
    · exact hpar s t hs ht
    · exact stages_induction (forall_dcmStages (P := Keeps P) hbld hupk hwlk hemt u)
        (hpar s u hs hu) hut
  · injection h with h
    exact h ▸ hrej s _ hs

end

/-! ## The canonical form -/

/-- The spaces are canonical, one by one, where they were so before. -/
theorem State.memoryWf_imp {s t : State} (hs : s.memoryWf = true)
    (hin : s.inBuf.wf = true → t.inBuf.wf = true) (hout : s.out.wf = true → t.out.wf = true)
    (hpay : s.pay.wf = true → t.pay.wf = true) (hbits : s.bits.wf = true → t.bits.wf = true)
    (hdbuf : s.dbuf.wf = true → t.dbuf.wf = true) : t.memoryWf = true := by
  simp only [State.memoryWf, Bool.and_eq_true] at hs ⊢
  obtain ⟨⟨⟨⟨h1, h2⟩, h3⟩, h4⟩, h5⟩ := hs
  exact ⟨⟨⟨⟨hin h1, hout h2⟩, hpay h3⟩, hbits h4⟩, hdbuf h5⟩

/-- The command keeps every space in canonical form. -/
abbrev KeepsCanonical (c : State → StepResult) : Prop := Keeps (fun s => s.memoryWf = true) c

/-- A command keeps the form if its body does: a failure or a rejection touches no space. -/
theorem keepsCanonical_command {acc : State → Bool} {body : State → Except Stop State}
    (hb : ∀ s t, s.memoryWf = true → body s = .ok t → t.memoryWf = true) :
    KeepsCanonical fun s => command (acc s) body s := by
  intro s t hs h
  rcases command_next h with ⟨-, rfl⟩ | ⟨-, u, hu, rfl⟩ | ⟨-, r, c, -, rfl⟩
  · exact hs
  · exact hb s u hs hu
  · exact hs

/-! Each body stores into one space at most, from cell 0 on. -/

theorem keepsCanonical_cnt : KeepsCanonical execCnt := by
  refine keepsCanonical_command fun s t hs h => ?_
  unfold cntBody at h
  dsimp only at h
  split at h <;> injection h with h <;> subst h <;> exact hs

theorem keepsCanonical_bld : KeepsCanonical execBld := by
  refine keepsCanonical_command fun s t hs h => ?_
  obtain ⟨-, -, rfl⟩ := bldBody_next h
  exact hs

theorem keepsCanonical_gen : KeepsCanonical execGen := by
  refine keepsCanonical_command fun s t hs h => ?_
  obtain ⟨tbl, -, rfl⟩ := genBody_next h
  exact hs

theorem keepsCanonical_enc : KeepsCanonical execEnc := by
  refine keepsCanonical_command fun s t hs h => ?_
  obtain ⟨-, -, rfl⟩ := encBody_next h
  exact State.memoryWf_imp hs id id id (Memory.wf_store · 0 _) id

theorem keepsCanonical_pck : KeepsCanonical execPck := by
  refine keepsCanonical_command fun s t hs h => ?_
  obtain ⟨-, rfl⟩ := pckBody_next h
  exact State.memoryWf_imp hs id id (Memory.wf_store · 0 _) id id

theorem keepsCanonical_ser : KeepsCanonical execSer := by
  refine keepsCanonical_command fun s t hs h => ?_
  obtain ⟨-, -, rfl⟩ := serBody_next h
  exact State.memoryWf_imp hs id (Memory.wf_store · 0 _) id id id

theorem keepsCanonical_par : KeepsCanonical execPar := by
  refine keepsCanonical_command fun s t hs h => ?_
  obtain ⟨F, n, -, -, -, -, -, -, -, -, rfl⟩ := parBody_next h
  exact State.memoryWf_imp hs id id (Memory.wf_store · 0 _) id id

theorem keepsCanonical_upk : KeepsCanonical execUpk := by
  refine keepsCanonical_command fun s t hs h => ?_
  obtain ⟨-, -, rfl⟩ := upkBody_next h
  exact State.memoryWf_imp hs id id id (Memory.wf_store · 0 _) id

theorem keepsCanonical_wlk : KeepsCanonical execWlk := by
  refine keepsCanonical_command fun s t hs h => ?_
  obtain ⟨bytes, -, -, -, rfl⟩ := wlkBody_next h
  exact State.memoryWf_imp hs id id id id (Memory.wf_store · 0 _)

theorem keepsCanonical_emt : KeepsCanonical execEmt := by
  refine keepsCanonical_command fun s t hs h => ?_
  obtain ⟨-, rfl⟩ := emtBody_next h
  exact State.memoryWf_imp hs id (Memory.wf_store · 0 _) id id id

theorem keepsCanonical_clr : KeepsCanonical execClr := by
  intro s t _ h
  injection h with h
  exact h ▸ rfl

theorem keepsCanonical_exec (i : Instr) : KeepsCanonical (exec i) :=
  match i with
  | .clr => keepsCanonical_clr
  | .cnt => keepsCanonical_cnt
  | .bld => keepsCanonical_bld
  | .gen => keepsCanonical_gen
  | .enc => keepsCanonical_enc
  | .pck => keepsCanonical_pck
  | .ser => keepsCanonical_ser
  | .par => keepsCanonical_par
  | .upk => keepsCanonical_upk
  | .wlk => keepsCanonical_wlk
  | .emt => keepsCanonical_emt
  | .cmp => keeps_cmp (fun _ _ hs => hs) keepsCanonical_cnt keepsCanonical_bld keepsCanonical_gen
      keepsCanonical_enc keepsCanonical_pck keepsCanonical_ser
  | .dcm => keeps_dcm (fun _ _ hs => hs) keepsCanonical_par keepsCanonical_bld keepsCanonical_upk
      keepsCanonical_wlk keepsCanonical_emt

/-- A write to `CMD` keeps the form: a reserved code is rejected (rule R84). -/
theorem keepsCanonical_commandWrite (w : Byte) : KeepsCanonical (commandWrite w) := by
  intro s t hs h
  unfold commandWrite at h
  split at h
  · exact keepsCanonical_exec _ s t hs h
  · injection h with h
    exact h ▸ hs

/-- A write to `IN[a]` stores one cell or does nothing (rule R55). -/
theorem inputWrite_memoryWf (a : Nat) (v : Byte) {s : State} (hs : s.memoryWf = true) :
    (inputWrite a v s).memoryWf = true := by
  rcases inputWrite_cases a v s with ⟨-, -, h⟩ | ⟨-, h⟩ <;> rw [h]
  · exact State.memoryWf_imp hs (Memory.wf_write · a v) id id id id
  · exact hs

/-- A write to `IN_LEN` stores no cell (rule R65). -/
theorem inLenWrite_memoryWf (n : Len) {s : State} (hs : s.memoryWf = true) :
    (inLenWrite n s).memoryWf = true := by
  rcases inLenWrite_cases n s with ⟨-, -, h⟩ | ⟨-, h⟩ <;> rw [h] <;> exact hs

theorem keepsCanonical_hostStep (a : HostAction) : KeepsCanonical (hostStep a) := by
  intro s t hs h
  cases a with
  | command w => exact keepsCanonical_commandWrite w s t hs h
  | writeIn a v =>
    injection h with h
    exact h ▸ inputWrite_memoryWf a v hs
  | writeInLen n =>
    injection h with h
    exact h ▸ inLenWrite_memoryWf n hs
  | writeReadOnly l v =>
    injection h with h
    exact h ▸ hs
  | read l =>
    injection h with h
    rw [← h, readBy_frame]
    exact hs
  | reset => exact keepsCanonical_clr s t hs h

/-- Settles O47: whatever the host does next, a space changes by stores alone or is emptied. -/
theorem stepKeepsMemoryCanonical : Obligations.StepKeepsMemoryCanonical := by
  intro s t hs h
  match hhost : s.host with
  | [] =>
    rw [step_of_no_host hhost] at h
    injection h with h
    exact h ▸ hs
  | a :: rest =>
    rw [step_of_host hhost] at h
    exact keepsCanonical_hostStep a { s with host := rest } t hs h

end Sys2Proof.Machine

/-! The command words (spec/30_encoding.md rules R82 and R84): O1, O3. -/

namespace Sys2Proof.Machine

/-- The decoder reads back the code of every command (rule R82). -/
theorem decode_encode (i : Instr) : decode (encode i) = .ok i := by
  cases i <;> rfl

/-- Every row matches all eight bits against a code below `0x0D` (rule R82). -/
theorem opTable_rows : ∀ r ∈ opTable, r.mask = 0xFF#8 ∧ r.code.toNat < 0x0D := by decide

/-- A word from `0x0D` on selects no row (rule R84). -/
theorem decode_reserved {w : Byte} (h : 0x0D ≤ w.toNat) : decode w = .error (.reserved w) := by
  have hnone : opTable.find? (·.selects w) = none := by
    refine List.find?_eq_none.2 fun r hr hsel => ?_
    obtain ⟨hmask, hcode⟩ := opTable_rows r hr
    have hw : w &&& r.mask = r.code := eq_of_beq hsel
    rw [hmask, show 0xFF#8 = BitVec.allOnes 8 from rfl, BitVec.and_allOnes] at hw
    rw [hw] at h
    omega
  rw [decode, hnone]

/-- A reserved word written to `CMD` is rejected, whatever the phase (rule R84). -/
theorem commandWrite_reserved {w : Byte} (h : 0x0D ≤ w.toNat) (s : State) :
    commandWrite w s = .next (s.reject .usageError) := by
  rw [commandWrite, decode_reserved h]

/-- Settles O1: the thirteen words are the codes of the commands, which `decode_encode` reads back. -/
theorem commandWordsDecode : Obligations.CommandWordsDecode :=
  ⟨decode_encode .clr, decode_encode .cnt, decode_encode .bld, decode_encode .gen,
    decode_encode .enc, decode_encode .pck, decode_encode .ser, decode_encode .par,
    decode_encode .upk, decode_encode .wlk, decode_encode .emt, decode_encode .cmp,
    decode_encode .dcm, decode_encode, fun _ => decode_reserved⟩

/-- Settles O3: the next action is a `CMD` write, which is rejected. -/
theorem reservedCodeIsUsageError : Obligations.ReservedCodeIsUsageError := by
  intro s w rest hhost hw
  rw [step_of_host hhost]
  exact commandWrite_reserved hw { s with host := rest }

end Sys2Proof.Machine

/-! The container in the cells of a space (spec/30_encoding.md rule R88): what `SER` lays out, O28. -/

namespace Sys2Proof.Machine

/-! ## Fields among the first cells of a space -/

/-- The cells of a field. -/
theorem State.cells_of_bytes {s : State} {sp : Space} {n : Nat} {pre field post : List Byte}
    (h : s.bytes sp n = pre ++ (field ++ post)) :
    (List.range field.length).map (fun i => s.byteAt sp (pre.length + i)) = field := by
  have hn : n = pre.length + (field.length + post.length) := by
    rw [← s.bytes_length sp n, h, List.length_append, List.length_append]
  refine List.ext_getElem (by simp) fun i _ hi => ?_
  have hlt : pre.length + i < (s.bytes sp n).length := by rw [State.bytes_length]; omega
  have hcell := List.getElem_of_eq h hlt
  rw [State.bytes_getElem, List.getElem_append_right (Nat.le_add_right ..),
    List.getElem_append_left (by omega)] at hcell
  simpa using hcell

/-- A field of one byte. -/
theorem State.byteAt_of_bytes {s : State} {sp : Space} {n : Nat} {pre post : List Byte} {b : Byte}
    (h : s.bytes sp n = pre ++ b :: post) : s.byteAt sp pre.length = b := by
  simpa using State.cells_of_bytes (field := [b]) h

/-- A field that is a number (rules R11 and R60). -/
theorem State.memRead_of_bytes {s : State} {sp : Space} {n : Nat} {pre field post : List Byte}
    (h : s.bytes sp n = pre ++ (field ++ post)) :
    s.memRead sp pre.length field.length = leValue field :=
  congrArg leValue (State.cells_of_bytes h)

/-! ## The fields of a container -/

/-- The first `n` cells of a space hold a container (rule R88): the two bytes `head` of `symbolCount`,
an entry for each element of `l`, which is its symbol and four bytes of frequency, the padding-length
byte and the payload. -/
structure State.HoldsContainer {α : Type} (s : State) (sp : Space) (n : Nat) (head : List Byte)
    (l : List α) (sym : α → Byte) (freqBytes : α → List Byte) (pad : Byte) (payload : List Byte) :
    Prop where
  bytes_eq : s.bytes sp n = head ++ (l.flatMap (fun x => sym x :: freqBytes x) ++ pad :: payload)
  head_length : head.length = 2
  freqBytes_length : ∀ x, (freqBytes x).length = 4

namespace State.HoldsContainer

variable {α : Type} {s : State} {sp : Space} {n : Nat} {head : List Byte} {l : List α}
  {sym : α → Byte} {freqBytes : α → List Byte} {pad : Byte} {payload : List Byte}
  (h : s.HoldsContainer sp n head l sym freqBytes pad payload)
include h

theorem entries_length (l : List α) :
    (l.flatMap fun x => sym x :: freqBytes x).length = 5 * l.length :=
  flatMap_length_const _ 5 (fun x => by rw [List.length_cons, h.freqBytes_length]) l

theorem length_eq : n = 3 + 5 * l.length + payload.length := by
  rw [← s.bytes_length sp n, h.bytes_eq, List.length_append, List.length_append, h.head_length,
    h.entries_length, List.length_cons]
  omega

theorem count : s.memRead sp 0 2 = leValue head := by
  have := State.memRead_of_bytes (pre := []) h.bytes_eq
  rwa [h.head_length] at this

/-- Entry `k` stands behind `symbolCount` and `k` entries. -/
theorem bytes_split {k : Nat} (hk : k < l.length) :
    ∃ pre post, pre.length = 2 + 5 * k ∧
      s.bytes sp n = pre ++ sym l[k] :: (freqBytes l[k] ++ post) := by
  have hl : l = l.take k ++ l[k] :: l.drop (k + 1) := by
    rw [← List.drop_eq_getElem_cons hk, List.take_append_drop]
  have hflat := congrArg (List.flatMap fun x => sym x :: freqBytes x) hl
  rw [List.flatMap_append, List.flatMap_cons] at hflat
  refine ⟨head ++ (l.take k).flatMap (fun x => sym x :: freqBytes x),
    (l.drop (k + 1)).flatMap (fun x => sym x :: freqBytes x) ++ pad :: payload, ?_, ?_⟩
  · rw [List.length_append, h.head_length, h.entries_length, List.length_take_of_le hk.le]
  · rw [h.bytes_eq, hflat]
    simp only [List.append_assoc, List.cons_append]

theorem symbol {k : Nat} (hk : k < l.length) : s.byteAt sp (2 + 5 * k) = sym l[k] := by
  obtain ⟨pre, post, hpre, hbytes⟩ := h.bytes_split hk
  exact hpre ▸ State.byteAt_of_bytes hbytes

theorem frequency {k : Nat} (hk : k < l.length) :
    s.memRead sp (3 + 5 * k) 4 = leValue (freqBytes l[k]) := by
  obtain ⟨pre, post, hpre, hbytes⟩ := h.bytes_split hk
  have := State.memRead_of_bytes (pre := pre ++ [sym l[k]]) (post := post) (by simpa using hbytes)
  rw [List.length_append, hpre, h.freqBytes_length] at this
  rwa [show 3 + 5 * k = 2 + 5 * k + 1 by omega]

theorem padding : s.byteAt sp (2 + 5 * l.length) = pad := by
  have := State.byteAt_of_bytes (pre := head ++ l.flatMap fun x => sym x :: freqBytes x)
    (by simpa using h.bytes_eq)
  rwa [List.length_append, h.head_length, h.entries_length] at this

theorem payload_cells :
    (List.range payload.length).map (fun i => s.byteAt sp (3 + 5 * l.length + i)) = payload := by
  have := State.cells_of_bytes (field := payload) (post := [])
    (pre := head ++ (l.flatMap (fun x => sym x :: freqBytes x) ++ [pad])) (by simpa using h.bytes_eq)
  rwa [List.length_append, List.length_append, h.head_length, h.entries_length, List.length_singleton,
    show 2 + (5 * l.length + 1) = 3 + 5 * l.length by omega] at this

end State.HoldsContainer

/-! ## `SER` -/

/-- A space that `containerBytes` has been stored in holds that container. -/
theorem holdsContainer_of_store {t : State} {sp : Space} {m : Memory Byte} {f : Vector Count 256}
    {n pad : Nat} {payload : List Byte} (h : t.space sp = m.store 0 (containerBytes f n pad payload)) :
    t.HoldsContainer sp (3 + 5 * (keys f).length + payload.length) (leBytes 2 n) (keys f) id
      (fun sy => leBytes 4 (entry f sy).toNat) (BitVec.ofNat 8 pad) payload where
  bytes_eq := containerBytes_length f n pad payload ▸ State.bytes_of_store h
  head_length := leBytes_length 2 n
  freqBytes_length _ := leBytes_length 4 _

/-- `SER` completes where the container fits `OUT` (rules R166 and R169). -/
theorem serBody_of_room {s : State} (hk : s.symcnt.toNat = (keys s.freq).length)
    (hroom : 3 + 5 * s.symcnt.toNat + s.payLen.toNat ≤ s.config.outCap) :
    serBody s = .ok { s with
      out := s.out.store 0 (containerBytes s.freq s.symcnt.toNat s.padLen.toNat s.payload),
      outLen := BitVec.ofNat 40 (3 + 5 * s.symcnt.toNat + s.payLen.toNat), phase := .written } := by
  simp only [serBody, if_neg (Nat.not_lt.2 hroom), if_neg (not_not.2 hk.symm)]

/-- No legal `OUT` has more than `2^40 - 1` cells (rule R8). -/
theorem Config.outCap_lt {c : Config} (h : c.legal = true) : c.outCap < 2 ^ 40 := by
  simp only [Config.legal, Bool.and_eq_true, decide_eq_true_eq] at h
  exact h.1.2.2

/-- Settles O28: the body stores `containerBytes`, whose fields `State.HoldsContainer` reads. -/
theorem serializeLaysOutTheContainer : Obligations.SerializeLaysOutTheContainer := by
  intro s hp hc hk hroom
  have hcap := Config.outCap_lt hc
  have hpad : s.padLen.toNat < 256 := s.padLen.isLt.trans (by decide)
  have hcount : s.symcnt.toNat < 256 ^ 2 := s.symcnt.isLt.trans (by decide)
  have hout : (BitVec.ofNat 40 (3 + 5 * s.symcnt.toNat + s.payLen.toNat)).toNat =
      3 + 5 * s.symcnt.toNat + s.payLen.toNat :=
    (BitVec.toNat_ofNat ..).trans (Nat.mod_eq_of_lt (by omega))
  refine ⟨_, command_of_ok ((accepts_iff .ser s).2 hp) (serBody_of_room hk hroom), hout, ?_⟩
  generalize ht : ({ s with
    out := s.out.store 0 (containerBytes s.freq s.symcnt.toNat s.padLen.toNat s.payload),
    outLen := BitVec.ofNat 40 (3 + 5 * s.symcnt.toNat + s.payLen.toNat),
    phase := .written } : State).succeed = t
  have hstore : t.space .out =
      s.out.store 0 (containerBytes s.freq s.symcnt.toNat s.padLen.toNat s.payload) := ht ▸ rfl
  have hbox := holdsContainer_of_store hstore
  refine ⟨?_, fun k h => ⟨hbox.symbol h, ?_⟩, ?_, fun i hi => ?_, fun a ha => ?_, ht ▸ rfl⟩
  · rw [hbox.count, leValue_leBytes, Nat.mod_eq_of_lt hcount]
  · rw [hbox.frequency h, leValue_leBytes]
    exact Nat.mod_eq_of_lt (BitVec.isLt _)
  · rw [hk, hbox.padding]
    exact (BitVec.toNat_ofNat ..).trans (Nat.mod_eq_of_lt hpad)
  · have hpay := hbox.payload_cells
    rw [State.payload_length] at hpay
    rw [hk]
    exact List.map_eq_map_iff.1 hpay i (List.mem_range.2 hi)
  · refine State.byteAt_of_store_ge hstore (ht ▸ rfl) ?_
    subst ht
    rw [containerBytes_length, State.payload_length, ← hk]
    exact hout ▸ ha

end Sys2Proof.Machine

/-! `PAR` takes the symbol entries of a container in any order (spec/30_encoding.md rule R91): O33. The
table it makes is the one in which each listed symbol has its listed frequency, which says nothing of
the order. -/

namespace Sys2Proof.Machine

/-! ## The table of a list of entries -/

/-- `F` holds the good and distinct entries `es`, each a symbol and its frequency, and nothing else
(rules R170 and R172). -/
structure IsTableOf (F : Vector Count 256) (es : List (Byte × Nat)) : Prop where
  good : ∀ e ∈ es, 1 ≤ e.2 ∧ e.2 < 2 ^ 31
  distinct : (es.map Prod.fst).Nodup
  listed : ∀ e ∈ es, (entry F e.1).toNat = e.2
  other : ∀ sy ∉ es.map Prod.fst, entry F sy = 0#32

/-- The order of the entries does not matter (rule R91). -/
theorem IsTableOf.perm {F : Vector Count 256} {es es' : List (Byte × Nat)} (h : IsTableOf F es)
    (hp : es.Perm es') : IsTableOf F es' where
  good e he := h.good e (hp.mem_iff.2 he)
  distinct := (hp.map Prod.fst).nodup_iff.1 h.distinct
  listed e he := h.listed e (hp.mem_iff.2 he)
  other sy hsy := h.other sy fun hmem => hsy ((hp.map Prod.fst).mem_iff.1 hmem)

theorem IsTableOf.unique {F G : Vector Count 256} {es : List (Byte × Nat)} (hF : IsTableOf F es)
    (hG : IsTableOf G es) : F = G := by
  refine table_ext fun sy => ?_
  by_cases hsy : sy ∈ es.map Prod.fst
  · obtain ⟨e, he, rfl⟩ := List.mem_map.1 hsy
    exact BitVec.eq_of_toNat_eq ((hF.listed e he).trans (hG.listed e he).symm)
  · rw [hF.other sy hsy, hG.other sy hsy]

/-! ## The loop of `PAR` -/

/-- The first `n` entries of the container in `IN`. -/
def State.entries (s : State) (n : Nat) : List (Byte × Nat) :=
  (List.range n).map fun k => (s.entrySym k, s.entryFreq k)

/-- Membership in the entries, index by index. -/
theorem State.forall_mem_entries {s : State} {n : Nat} {P : Byte × Nat → Prop} :
    (∀ e ∈ s.entries n, P e) ↔ ∀ k < n, P (s.entrySym k, s.entryFreq k) := by
  simp [State.entries]

theorem State.mem_entries_fst {s : State} {n : Nat} {sy : Byte} :
    sy ∈ (s.entries n).map Prod.fst ↔ ∃ k < n, s.entrySym k = sy := by
  simp [State.entries]

theorem State.entries_distinct_iff {s : State} {n : Nat} :
    ((s.entries n).map Prod.fst).Nodup ↔ ∀ i j, i < j → j < n → s.entrySym i ≠ s.entrySym j := by
  rw [State.entries, List.map_map, List.Nodup, List.pairwise_map, List.pairwise_iff_getElem]
  simp only [List.length_range, List.getElem_range, Function.comp_apply]
  exact ⟨fun h i j hij hj => h i j (hij.trans hj) hj hij, fun h i j _ hj hij => h i j hij hj⟩

theorem isTableOf_of_parseEntries {s : State} {n : Nat} {F : Vector Count 256}
    (h : parseEntries s n 0 (Vector.replicate 256 0#32) = .ok F) : IsTableOf F (s.entries n) := by
  obtain ⟨hgood, -, hne, hval, hrest⟩ := parseEntries_ok h
  refine ⟨?_, ?_, ?_, fun sy hsy => ?_⟩
  · exact State.forall_mem_entries.2 fun k hk => hgood k (Nat.zero_le k) (by omega)
  · exact State.entries_distinct_iff.2 fun i j hij hj => hne i j (Nat.zero_le i) hij (by omega)
  · exact State.forall_mem_entries.2 fun k hk => hval k (Nat.zero_le k) (by omega)
  · rw [hrest sy fun k _ hk e => hsy (State.mem_entries_fst.2 ⟨k, by omega, e⟩), entry_replicate]

/-- The loop of `PAR` completes exactly on good and distinct entries, with their table. -/
theorem parseEntries_iff {s : State} {n : Nat} {F : Vector Count 256} :
    parseEntries s n 0 (Vector.replicate 256 0#32) = .ok F ↔ IsTableOf F (s.entries n) := by
  refine ⟨isTableOf_of_parseEntries, fun h => ?_⟩
  have hgood := State.forall_mem_entries.1 h.good
  have hne := State.entries_distinct_iff.1 h.distinct
  obtain ⟨G, hG, -⟩ := parseEntries_append (s := s) (a := n) (b := 0) (k := 0)
    (F := Vector.replicate 256 0#32) (fun j _ hj => hgood j (by omega))
    (fun j _ _ => entry_replicate _ _) (fun i j _ hij hj => hne i j hij (by omega))
  rw [hG, (isTableOf_of_parseEntries hG).unique h]

/-! ## `PAR` on a container -/

/-- What `PAR` leaves of `n` entries with the table `F`, a padding length and a payload (rules R170,
R174 and R175). -/
def State.parsed (s : State) (F : Vector Count 256) (n : Nat) (pad : Byte) (payload : List Byte) :
    State :=
  { s with
    freq := F, symcnt := BitVec.ofNat 9 n, padLen := BitVec.ofNat 4 pad.toNat,
    pay := s.pay.store 0 payload, payLen := BitVec.ofNat 40 payload.length,
    dLen := if n = 0 then 0#40 else s.dLen, phase := if n = 0 then .decoded else .parsed }

theorem State.parsed_payload (s : State) (F : Vector Count 256) (n : Nat) (pad : Byte)
    {payload : List Byte} (h : payload.length < 2 ^ 40) :
    (s.parsed F n pad payload).succeed.payload = payload := by
  have hlen : (s.parsed F n pad payload).succeed.payLen.toNat = payload.length :=
    (BitVec.toNat_ofNat ..).trans (Nat.mod_eq_of_lt h)
  rw [State.payload, hlen]
  exact State.bytes_of_store rfl

/-- The checks of `PAR` on the parts of a container (rule R170): with good and distinct entries, a
padding length in `1..8`, and a payload that fits `PAY` and is empty where there is no entry. -/
structure Parsable (c : Config) (F : Vector Count 256) (es : List (Byte × Nat)) (pad : Byte)
    (payload : List Byte) : Prop where
  few : es.length ≤ 256
  table : IsTableOf F es
  padding : 1 ≤ pad.toNat ∧ pad.toNat ≤ 8
  empty : es.length = 0 → payload.length = 0
  room : payload.length ≤ c.payCap

theorem Parsable.perm {c : Config} {F : Vector Count 256} {es es' : List (Byte × Nat)} {pad : Byte}
    {payload : List Byte} (h : Parsable c F es pad payload) (hp : es.Perm es') :
    Parsable c F es' pad payload where
  few := hp.length_eq ▸ h.few
  table := h.table.perm hp
  padding := h.padding
  empty := hp.length_eq ▸ h.empty
  room := h.room

section
variable {α : Type} {s : State} {head : List Byte} {l : List α} {sym : α → Byte}
  {freqBytes : α → List Byte} {pad : Byte} {payload : List Byte}
  (h : s.HoldsContainer .inp s.inLen.toNat head l sym freqBytes pad payload)
include h

theorem State.HoldsContainer.entries_eq :
    s.entries l.length = l.map fun x => (sym x, leValue (freqBytes x)) := by
  refine List.ext_getElem (by simp [State.entries]) fun k hk _ => ?_
  have hk : k < l.length := by simpa [State.entries] using hk
  simp only [State.entries, List.getElem_map, List.getElem_range, State.entrySym, State.entryFreq,
    h.symbol hk, h.frequency hk]

variable (hcount : leValue head = l.length)
include hcount

/-- Where `PAR` completes, the parts pass its checks, and it leaves them. -/
theorem State.HoldsContainer.parsable_of_parBody {t : State} (ht : parBody s = .ok t) :
    ∃ F, Parsable s.config F (l.map fun x => (sym x, leValue (freqBytes x))) pad payload ∧
      t = s.parsed F l.length pad payload := by
  obtain ⟨F, n, hn, hfew, -, hF, hpad1, hpad8, hempty, hroom, rfl⟩ := parBody_next ht
  obtain rfl : n = l.length := hn.trans (h.count.trans hcount)
  have hlen : s.inLen.toNat - (3 + 5 * l.length) = payload.length := by rw [h.length_eq]; omega
  rw [h.padding] at hpad1 hpad8
  refine ⟨F, ⟨by rwa [List.length_map], h.entries_eq ▸ isTableOf_of_parseEntries hF, ⟨hpad1, hpad8⟩,
    fun h0 => ?_, hlen ▸ hroom⟩, ?_⟩
  · rw [List.length_map] at h0
    rw [← hlen, hempty h0]
    omega
  · rw [h.padding, hlen, h.payload_cells]
    rfl

/-- `PAR` completes where the parts pass its checks. -/
theorem State.HoldsContainer.parBody_of_parsable {F : Vector Count 256}
    (hp : Parsable s.config F (l.map fun x => (sym x, leValue (freqBytes x))) pad payload) :
    parBody s = .ok (s.parsed F l.length pad payload) := by
  have hlen := h.length_eq
  have hfew : l.length ≤ 256 := by simpa using hp.few
  have hF := parseEntries_iff.2 (h.entries_eq ▸ hp.table)
  have hempty : ¬ (l.length = 0 ∧ 0 < payload.length) := fun ⟨h0, hpos⟩ =>
    Nat.ne_of_gt hpos (hp.empty ((List.length_map _).trans h0))
  have hpad := hp.padding
  have hm : s.inLen.toNat - (3 + 5 * l.length) = payload.length := by omega
  rw [parBody]
  simp only [h.count, hcount, hF, h.padding, hm, h.payload_cells]
  rw [if_neg (by omega), if_neg (by omega), if_neg (by omega), if_neg (by omega), if_neg hempty,
    if_neg (Nat.not_lt.2 hp.room)]
  rcases Nat.eq_zero_or_pos l.length with h0 | hpos
  · rw [if_neg (by omega), State.parsed, if_pos h0, if_pos h0]
  · rw [if_pos hpos, State.parsed, if_neg hpos.ne', if_neg hpos.ne']

end

/-! ## What `PAR` raises -/

theorem parseEntries_error {s : State} {todo k : Nat} {F : Vector Count 256} {e : Stop}
    (h : parseEntries s todo k F = .error e) : ∃ c, e = .raise .invalidInput c := by
  induction todo generalizing k F with
  | zero => cases h
  | succ todo ih =>
    rw [parseEntries] at h
    split at h
    · exact ⟨_, (Except.error.inj h).symm⟩
    split at h
    · exact ⟨_, (Except.error.inj h).symm⟩
    · exact ih h

/-- `PAR` raises errors alone: it never ends a failure with `OK` (rule R170). -/
theorem parBody_not_raise_ok (s : State) (c : Cause) : parBody s ≠ .error (.raise .ok c) := by
  intro h
  rw [parBody] at h
  dsimp only at h
  split at h
  · cases h
  split at h
  · cases h
  split at h
  · cases h
  split at h
  · rename_i e he
    obtain ⟨c', rfl⟩ := parseEntries_error he
    cases h
  split at h
  · cases h
  split at h
  · cases h
  split at h
  · cases h
  split at h <;> cases h

/-- A `PAR` that ends with `OK` has completed (rules R211, R217 and R218). -/
theorem parBody_of_execPar_ok {s t : State} (h : exec .par s = .next t) (hr : t.result = .ok) :
    ∃ b, parBody s = .ok b ∧ t = b.succeed := by
  rcases command_next h with ⟨-, rfl⟩ | ⟨-, b, hb, rfl⟩ | ⟨-, r, c, hb, rfl⟩
  · cases hr
  · exact ⟨b, hb, rfl⟩
  · rw [State.failWith_result] at hr
    exact absurd (hr ▸ hb) (parBody_not_raise_ok s c)

/-! ## The order of the entries -/

/-- The four bytes of an entry's frequency. -/
def frequencyField (e : Byte × Byte × Byte × Byte × Byte) : List Byte :=
  [e.2.1, e.2.2.1, e.2.2.2.1, e.2.2.2.2]

theorem holdsContainer_of_input {s : State} {head : List Byte}
    {es : List (Byte × Byte × Byte × Byte × Byte)} {pad : Byte} {payload : List Byte}
    (hhead : head.length = 2)
    (h : s.input = head ++ es.flatMap (fun e => e.1 :: frequencyField e) ++ pad :: payload) :
    s.HoldsContainer .inp s.inLen.toNat head es Prod.fst frequencyField pad payload where
  bytes_eq := (List.append_assoc ..).symm ▸ h
  head_length := hhead
  freqBytes_length _ := rfl

/-- Where `PAR` completes, the padding-length byte follows the entries (rule R171). -/
theorem tail_of_parBody {s b : State} {head tail : List Byte}
    {es : List (Byte × Byte × Byte × Byte × Byte)} (hhead : head.length = 2)
    (hcount : leValue head = es.length)
    (h : s.input = head ++ es.flatMap (fun e => e.1 :: frequencyField e) ++ tail)
    (hb : parBody s = .ok b) : ∃ pad payload, tail = pad :: payload := by
  obtain ⟨F, n, hn, -, hlen, -⟩ := parBody_next hb
  have hmem := State.memRead_of_bytes (pre := []) ((List.append_assoc ..).symm ▸ h)
  rw [hhead, List.length_nil, hcount] at hmem
  have htotal := congrArg List.length h
  rw [State.input_length, List.length_append, List.length_append, hhead,
    flatMap_length_const _ 5 fun _ => rfl] at htotal
  cases tail with
  | nil => simp only [List.length_nil] at htotal; omega
  | cons pad payload => exact ⟨pad, payload, rfl⟩

/-- Settles O33: both inputs hold a container, of the same parts but for the order of the entries, to
which the checks are blind. -/
theorem entryOrderDoesNotMatter : Obligations.EntryOrderDoesNotMatter := by
  intro s u t head tail es es' hs hu hconfig hhead hcount hperm hins hinu ht hok
  obtain ⟨b, hb, rfl⟩ := parBody_of_execPar_ok ht hok
  have hlen := hperm.length_eq
  obtain ⟨pad, payload, rfl⟩ := tail_of_parBody hhead hcount hins hb
  have hboxs := holdsContainer_of_input hhead hins
  have hboxu := holdsContainer_of_input hhead hinu
  obtain ⟨F, hp, rfl⟩ := hboxs.parsable_of_parBody hcount hb
  have hpu := hboxu.parBody_of_parsable (hcount.trans hlen) (hconfig ▸ hp.perm (hperm.map _))
  have hpay : payload.length < 2 ^ 40 := by
    have := hboxs.length_eq
    have := s.inLen.isLt
    omega
  refine ⟨_, command_of_ok ((accepts_iff .par u).2 hu) hpu, rfl, rfl, ?_, rfl, ?_, ?_⟩
  · exact congrArg (BitVec.ofNat 9) hlen.symm
  · rw [State.parsed_payload _ _ _ _ hpay, State.parsed_payload _ _ _ _ hpay]
  · simp only [State.succeed_phase, State.parsed, hlen]

end Sys2Proof.Machine

/-! The frequency counter (spec/40_frequency_counter.md): what `CNT` leaves, O14. -/

namespace Sys2Proof.Machine

/-- The input is short enough that no count overflows its register (rule R112). -/
theorem Config.inCap_lt {c : Config} (h : c.legal = true) : c.inCap < 2 ^ 32 := by
  simp only [Config.legal, Bool.and_eq_true, decide_eq_true_eq] at h
  omega

/-- `CNT` writes no byte space (rules R66 and R115). -/
theorem byteAt_of_execCnt {s t : State} (h : execCnt s = .next t) (sp : Space) (a : Nat) :
    t.byteAt sp a = s.byteAt sp a := by
  have hw := onlyWrites_cnt h
  obtain ⟨hinBuf, -, hepoch⟩ := hw.input (by decide)
  refine State.byteAt_congr ?_ hepoch a
  cases sp with
  | inp => exact hinBuf
  | out => exact (hw.output (by decide)).1
  | pay => exact hw.payload (by decide)
  | dbuf => exact hw.decoded (by decide)

/-- Settles O14: the body leaves `countTable` of the input, which is shorter than `2^32`, so that its
entries, its keys and its sum are the counts, the distinct bytes and the length. -/
theorem countCountsTheInput : Obligations.CountCountsTheInput := by
  intro s hidle hlegal hlen
  have hshort : s.input.length < 2 ^ 32 :=
    s.input_length ▸ hlen.trans_lt (Config.inCap_lt hlegal)
  obtain ⟨b, hb, hfreq, hsymcnt, hnonempty, hempty⟩ := cntBody_ok s
  have hnext : execCnt s = .next b.succeed := command_of_ok ((accepts_iff .cnt s).2 hidle) hb
  refine ⟨b.succeed, hnext, fun sy => ?_, ?_, ?_, fun h => congrArg State.succeed (hnonempty h),
    fun h => congrArg State.succeed (hempty h), byteAt_of_execCnt hnext⟩
  · rw [State.succeed_freq, hfreq, entry_countTable hshort]
  · rw [State.succeed_symcnt, hsymcnt, symcnt_of_keys, hfreq, keys_countTable_length hshort]
  · rw [State.succeed_freq, hfreq, freqSum_countTable hshort, State.input_length]

end Sys2Proof.Machine

/-! The tree builder (spec/41_tree_builder.md): what `BLD` leaves, O16, O17 and O19. -/

namespace Sys2Proof.Machine

/-- The state of a completed `BLD` with the tree `tr` (rules R121 and R182). -/
def State.built (s : State) (tr : Tree) : State :=
  { s with
    node := tr.node, nnodes := tr.nnodes, root := tr.root, result := .ok, cause := .none,
    phase := if s.phase = .counted then .treeBuilt else .treeRebuilt }

/-- `BLD` writes no byte space (rule R66). -/
theorem State.built_byteAt (s : State) (tr : Tree) (sp : Space) (a : Nat) :
    (s.built tr).byteAt sp a = s.byteAt sp a :=
  State.byteAt_congr (by cases sp <;> rfl) rfl a

section

variable {s : State} (h1 : 1 ≤ s.symcnt.toNat) (hk : (keys s.freq).length = s.symcnt.toNat)
include h1 hk

/-- `BLD` completes on a table with keys, and leaves their tree (rule R121). -/
theorem exec_bld_of_keys (hp : s.phase = .counted ∨ s.phase = .parsed) :
    exec .bld s = .next (s.built (buildTree s.freq s.symcnt.toNat)) :=
  command_of_ok ((accepts_iff .bld s).2 hp) (bldBody_of_keys h1 hk)

theorem built_treeInvariant : (s.built (buildTree s.freq s.symcnt.toNat)).TreeInvariant :=
  (bldBody_treeInvariant (bldBody_of_keys h1 hk)).1.congr rfl rfl rfl rfl rfl

end

/-- The frequency of the only key is the sum of the table. -/
theorem freqSum_of_one_key {f : Vector Count 256} {sy : Byte} (hk : keys f = [sy]) :
    freqSum f = (entry f sy).toNat := by
  simp [← sum_keys, hk]

/-- Settles O19: the body raises before it looks at the table. -/
theorem buildOfNoKeyFails : Obligations.BuildOfNoKeyFails := by
  intro s hp h0
  have hbody : bldBody s = invalidInput .emptyTable := if_pos (congrArg BitVec.toNat h0)
  exact command_of_raise ((accepts_iff .bld s).2 hp) hbody

/-- Settles O16: for one key the tree invariant lists every record, the root's weight being the sum
of a table with one entry. -/
theorem buildOfOneKey : Obligations.BuildOfOneKey := by
  intro s sy hp hn hkeys
  have hone : s.symcnt.toNat = 1 := congrArg BitVec.toNat hn
  have hk : (keys s.freq).length = s.symcnt.toNat := by rw [hkeys, hone]; rfl
  have hinv := built_treeInvariant hone.ge hk
  obtain ⟨hnn, hroot, hrec⟩ := hinv.single hone
  have hleaf : LeavesFirst s.freq _ := hinv.leaves
  have hrest := hinv.rest
  rw [hnn] at hrest
  refine ⟨_, exec_bld_of_keys hone.ge hk hp, ?_, ?_, hrest, hnn, hroot, rfl, s.built_byteAt _⟩
  · simpa only [hkeys, List.getElem_cons_zero] using hleaf 0 (by rw [hk, hone]; decide)
  · rwa [← freqSum_of_one_key hkeys]

/-- Settles O17: each round of the merge loop joins the two lowest records that are nobody's child
yet, which `MergedArena.joins` keeps for the finished arena; the rest is the tree invariant. -/
theorem buildJoinsTheTwoLowest : Obligations.BuildJoinsTheTwoLowest := by
  intro s hp h2 hk
  have h1 : 1 ≤ s.symcnt.toNat := by omega
  have hinv := built_treeInvariant h1 hk
  obtain ⟨hnn, hroot⟩ := hinv.size h2
  have hmany : buildTree s.freq s.symcnt.toNat = mergedTree s.freq s.symcnt.toNat :=
    if_neg (by omega)
  have hmerged : MergedArena s.freq s.symcnt.toNat (s.built (buildTree s.freq s.symcnt.toNat)).node :=
    hmany ▸ mergedTree_merged h2 hk
  refine ⟨_, exec_bld_of_keys h1 hk hp, hinv.leaves, hnn, hroot, fun i hi hni => ?_, hinv.rest, rfl,
    s.built_byteAt _⟩
  simpa only [before_iff] using hmerged.joins i hni hi

end Sys2Proof.Machine

/-! The code generator (spec/42_code_generator.md): what `GEN` leaves, O20 and O21. -/

namespace Sys2Proof.Machine

/-! ## The entries of a code table -/

/-- In the table without codes every entry is that of the empty path (rules R43 and R44). -/
theorem CodeTable.empty_holds (sy : Byte) : CodeTable.empty.Holds sy [] := by
  simp [CodeTable.Holds, CodeTable.empty, pathValue]

section

variable {tbl : CodeTable} {sy : Byte} {p : List Bit} (h : tbl.Holds sy p)
include h

/-- The length of a path that fits a code register (rule R43). -/
theorem CodeTable.Holds.clen_toNat (hp : p.length ≤ 255) : (entry tbl.clen sy).toNat = p.length := by
  rw [h.1, BitVec.toNat_ofNat]
  exact Nat.mod_eq_of_lt (by omega)

/-- The bits of `CBITS` beyond the path are 0 (rule R44). -/
theorem CodeTable.Holds.cbits_beyond {i : Nat} (hi : p.length ≤ i) :
    (entry tbl.cbits sy).getLsbD i = false := by
  rw [h.2, BitVec.getLsbD_ofNat, pathValue_testBit, List.getD_eq_default _ _ hi, Bool.and_false]

end

/-- The code of a symbol is read from its two entries alone (rule R45). -/
theorem State.code_congr {s t : State} {sy : Byte} (hl : entry s.clen sy = entry t.clen sy)
    (hb : entry s.cbits sy = entry t.cbits sy) : s.code sy = t.code sy := by
  simp [State.code, hl, hb]

/-! ## The state `GEN` leaves -/

/-- The state of a completed `GEN` with the code table `tbl` (rules R136 and R182). -/
def State.generated (s : State) (tbl : CodeTable) : State :=
  { s with clen := tbl.clen, cbits := tbl.cbits, ctv := true, result := .ok, cause := .none }

/-- `GEN` writes no byte space (rule R66). -/
theorem State.generated_byteAt (s : State) (tbl : CodeTable) (sp : Space) (a : Nat) :
    (s.generated tbl).byteAt sp a = s.byteAt sp a :=
  State.byteAt_congr (by cases sp <;> rfl) rfl a

theorem State.generated_code (s : State) {tbl : CodeTable} {sy : Byte} {p : List Bit}
    (h : tbl.Holds sy p) (hp : p.length ≤ 255) : (s.generated tbl).code sy = p := by
  obtain ⟨hclen, hcbits⟩ := h
  obtain ⟨hl, hb⟩ := CodeTable.set_holds tbl sy p
  calc (s.generated tbl).code sy
      = (s.generated (tbl.set sy p)).code sy :=
        State.code_congr (hclen.trans hl.symm) (hcbits.trans hb.symm)
    _ = p := code_set hp tbl sy _ rfl rfl

/-- An accepted `GEN` whose walk completes leaves the walk's table. -/
theorem exec_gen_of_visit {s : State} {tbl : CodeTable} (hp : s.phase = .treeBuilt)
    (hc : s.ctv = false) (hv : visit s.node (clenMax + 1) s.root [] CodeTable.empty = .ok tbl) :
    exec .gen s = .next (s.generated tbl) := by
  have hbody : genBody s = .ok ({ s with clen := tbl.clen, cbits := tbl.cbits } : State).setCtv := by
    simp only [genBody, hv]
  exact command_of_ok ((accepts_iff .gen s).2 ⟨hp, hc⟩) hbody

/-! ## The walk over a tree -/

namespace State.TreeInvariant

variable {s : State} (h : s.TreeInvariant)
include h

/-- The longest path fits a code register of `CLEN_MAX` bits (rule R139). -/
theorem max_length_le : max 1 (s.symcnt.toNat - 1) ≤ 255 := by
  have hn := h.count_le
  omega

/-- No path of a tree is longer than the walk goes (rule R139). -/
theorem visit_root_completes (t : CodeTable) :
    ∃ t', visit s.node (clenMax + 1) s.root [] t = .ok t' := by
  refine visit_completes h.root_ne_nil fun _ _ hq => ?_
  exact Nat.lt_succ_of_le ((h.path_length hq).trans h.max_length_le)

/-- Only keys have codes. -/
theorem mem_keys_of_isCode {q : List Bit} {sy : Byte} (hq : IsCode s.node s.root q sy) :
    sy ∈ keys s.freq := by
  obtain ⟨j, -, hj⟩ := h.code_key hq
  exact List.mem_of_getElem? hj

/-- What the walk leaves in each entry: the code of a key, the empty path for any other symbol
(rules R137 and R138). -/
theorem visit_root_holds {tbl : CodeTable}
    (hv : visit s.node (clenMax + 1) s.root [] CodeTable.empty = .ok tbl) (sy : Byte) :
    ∃ p, tbl.Holds sy p ∧ p.length ≤ max 1 (s.symcnt.toNat - 1) ∧
      (sy ∈ keys s.freq → p ≠ [] ∧ IsCode s.node s.root p sy) ∧ (sy ∉ keys s.freq → p = []) := by
  obtain ⟨hcodes, hothers⟩ := visit_ok hv fun _ _ _ => h.code_unique
  by_cases hsy : sy ∈ keys s.freq
  · obtain ⟨p, hne, hp⟩ := h.code_exists hsy
    obtain ⟨j, hj, -⟩ := h.code_key hp
    exact ⟨p, hcodes p sy hp, h.path_length hj, fun _ => ⟨hne, hp⟩, (absurd hsy ·)⟩
  · have hsame := hothers sy fun q hq => hsy (h.mem_keys_of_isCode hq)
    exact ⟨[], hsame.holds (CodeTable.empty_holds sy), Nat.zero_le _, (absurd · hsy), fun _ => rfl⟩

/-- The code of a single key is the bit 0: its Leaf is the root's only child (rule R137). -/
theorem isCode_of_one_key {sy : Byte} (hk : keys s.freq = [sy]) :
    IsCode s.node s.root [false] sy := by
  have hn : s.symcnt.toNat = 1 := by rw [h.count.1, hk]; rfl
  obtain ⟨-, hroot, nd, hnd, hkind, -, -, hleft, -⟩ := h.single hn
  obtain ⟨lf, hlf, hleaf, hsym, -⟩ := h.leaves 0 (by simp [hk])
  have hchild : nd.child false = 0#9 := BitVec.eq_of_toNat_eq hleft
  rw [hroot]
  refine (isCode_internal hnd hkind _ _).2 ⟨false, [], rfl, by rw [hchild]; decide, ?_⟩
  rw [hchild]
  exact (isCode_leaf hlf hleaf _ _).2 ⟨rfl, by simp [hsym, hk]⟩

end State.TreeInvariant

/-- The table of the walk is the code table of the tree (rules R43, R44 and R137). -/
theorem generated_codesOfTree {s : State} {tbl : CodeTable} (h : s.TreeInvariant)
    (hv : visit s.node (clenMax + 1) s.root [] CodeTable.empty = .ok tbl) :
    (s.generated tbl).CodesOfTree := by
  intro sy
  obtain ⟨p, hholds, hlen, hkey, hother⟩ := h.visit_root_holds hv sy
  have hp : p.length ≤ 255 := hlen.trans h.max_length_le
  have hclen : (entry (s.generated tbl).clen sy).toNat = p.length := hholds.clen_toNat hp
  refine ⟨fun hsy => ?_, fun hsy => ?_, fun i hi => ?_⟩
  · obtain ⟨hne, hcode⟩ := hkey hsy
    rw [s.generated_code hholds hp, hclen]
    exact ⟨List.length_pos_iff.2 hne, hcode⟩
  · exact BitVec.eq_of_toNat_eq (by rw [hclen, hother hsy]; rfl)
  · exact hholds.cbits_beyond (hclen ▸ hi)

/-- Settles O20: no path of the tree outgrows the walk, so it completes, and it leaves every key the
one path to its Leaf. -/
theorem generateAssignsThePaths : Obligations.GenerateAssignsThePaths := by
  intro s hphase hctv h
  obtain ⟨tbl, hv⟩ := h.visit_root_completes CodeTable.empty
  have hcodes := generated_codesOfTree h hv
  refine ⟨s.generated tbl, exec_gen_of_visit hphase hctv hv, hcodes, fun sy hk => ?_, fun sy => ?_,
    rfl, s.generated_byteAt tbl⟩
  · obtain ⟨-, hcode⟩ := (hcodes sy).1 (show sy ∈ keys s.freq by simp [hk])
    exact h.code_unique hcode (h.isCode_of_one_key hk)
  · obtain ⟨p, hholds, hlen, -⟩ := h.visit_root_holds hv sy
    exact (hholds.clen_toNat (hlen.trans h.max_length_le)).trans_le hlen

/-! ## Prefixes -/

/-- Two codes, one a prefix of the other, lead to the same Leaf: below a Leaf there is no path
(rule R140). -/
theorem IsCode.eq_of_prefix {arena : Vector Node 511} {root : NodeIx} {p q : List Bit} {x y : Byte}
    (hx : IsCode arena root p x) (hy : IsCode arena root q y) (hpq : p <+: q) : x = y := by
  obtain ⟨i, hi, nd, hnd, hleaf, rfl⟩ := hx
  obtain ⟨r, rfl⟩ := hpq
  obtain ⟨j, hj, rest⟩ := hy
  have hir : follow arena i r = some j := by
    have hj' : follow arena root (p ++ r) = some j := hj
    rwa [follow_append, hi, Option.bind_some] at hj'
  exact (((isCode_leaf hnd hleaf r y).1 ⟨j, hir, rest⟩).2).symm

theorem State.CodesOfTree.not_prefix {t : State} (h : t.CodesOfTree) {x y : Byte}
    (hx : x ∈ keys t.freq) (hy : y ∈ keys t.freq) (hne : x ≠ y) : ¬ t.code x <+: t.code y := by
  obtain ⟨-, hcx⟩ := (h x).1 hx
  obtain ⟨-, hcy⟩ := (h y).1 hy
  exact fun hpre => hne (hcx.eq_of_prefix hcy hpre)

/-- Settles O21: a `GEN` that ends with `OK` was accepted, so that O20 gives its code table, in which
all codes are paths of one tree. -/
theorem codesArePrefixFree : Obligations.CodesArePrefixFree := by
  intro s t hphase h hexec hok x hx y hy hne
  have hctv : s.ctv = false := by
    rcases command_next hexec with ⟨-, rfl⟩ | ⟨hacc, -⟩ | ⟨hacc, -⟩
    · cases hok
    · exact ((accepts_iff .gen s).1 hacc).2
    · exact ((accepts_iff .gen s).1 hacc).2
  obtain ⟨t', hexec', hcodes, -⟩ := generateAssignsThePaths s hphase hctv h
  obtain rfl : t' = t := by rw [hexec] at hexec'; injection hexec'.symm
  exact hcodes.not_prefix hx hy hne

end Sys2Proof.Machine

/-! The bit packer (spec/43_bit_packer.md): the bit sequence `ENC` and `UPK` leave, O22, O23 and O26,
when `PCK` fails, O25, and that `UPK` undoes `PCK`, O27. -/

namespace Sys2Proof.Machine

/-! ## The state `ENC` and `UPK` leave -/

/-- The state of a completed `ENC` or `UPK` that lays down the bits `bs` (rules R146, R157 and
R182). -/
def State.withBitSeq (s : State) (bs : List Bit) : State :=
  { s with
    bits := s.bits.store 0 bs, bitLen := BitVec.ofNat 40 bs.length, bsv := true, result := .ok,
    cause := .none }

/-- Neither command writes a byte space (rule R66). -/
theorem State.withBitSeq_byteAt (s : State) (bs : List Bit) (sp : Space) (a : Nat) :
    (s.withBitSeq bs).byteAt sp a = s.byteAt sp a :=
  State.byteAt_congr (by cases sp <;> rfl) rfl a

/-- A cell beyond the stored bits reads as before. -/
theorem State.withBitSeq_bitAt_ge (s : State) {bs : List Bit} {a : Nat} (ha : bs.length ≤ a) :
    (s.withBitSeq bs).bitAt a = s.bitAt a := by
  rw [State.bitAt, State.bitAt, State.withBitSeq, Memory.read?_store_zero, if_neg (not_lt.2 ha)]

/-- No legal `BITS` has more cells than `BITLEN` can count (rules R8 and R39). -/
theorem Config.bitsCap_lt {c : Config} (h : c.legal = true) : c.bitsCap < 2 ^ 40 := by
  have := Config.payCap_lt h
  unfold Config.bitsCap
  omega

section

variable {s : State} {bs : List Bit} (hc : s.config.legal = true) (hbs : bs.length ≤ s.config.bitsCap)
include hc hbs

theorem State.withBitSeq_bitLen : (s.withBitSeq bs).bitLen.toNat = bs.length :=
  (BitVec.toNat_ofNat ..).trans (Nat.mod_eq_of_lt (hbs.trans_lt (Config.bitsCap_lt hc)))

theorem State.withBitSeq_bitSeq : (s.withBitSeq bs).bitSeq = bs :=
  State.bitSeq_of_store rfl (State.withBitSeq_bitLen hc hbs)

end

/-! ## `ENC` -/

/-- An accepted `ENC` completes where every byte has a code and the codes fit (rule R146). -/
theorem exec_enc_of_codes {s : State} (ha : Accepted .enc s) (hcodes : ∀ b ∈ s.input, s.code b ≠ [])
    (hroom : (s.input.flatMap s.code).length ≤ s.config.bitsCap) :
    exec .enc s = .next (s.withBitSeq (s.input.flatMap s.code)) := by
  have hloop := encodeBits_ok (cap := s.config.bitsCap) (len := 0) hcodes (by rwa [Nat.zero_add])
  have hbody : encBody s = .ok ({ s with
      bits := s.bits.store 0 (s.input.flatMap s.code),
      bitLen := BitVec.ofNat 40 (s.input.flatMap s.code).length } : State).setBsv := by
    simp only [encBody, hloop]
  exact command_of_ok ((accepts_iff .enc s).2 ha) hbody

/-- An accepted `ENC` whose loop raises fails in that way. -/
theorem exec_enc_of_raise {s : State} {r : Result} {c : Cause} (ha : Accepted .enc s)
    (hloop : encodeBits s.code s.config.bitsCap s.input 0 = .error (.raise r c)) :
    exec .enc s = .next (failed s r c) := by
  have hbody : encBody s = .error (.raise r c) := by simp only [encBody, hloop]
  exact command_of_raise ((accepts_iff .enc s).2 ha) hbody

/-- At a byte without a code the loop raises `NoCode`, whatever the room (rules R148 and R209). -/
theorem encodeBits_noCode {code : Byte → List Bit} {b : Byte} (h : code b = []) (cap : Nat)
    (rest : List Byte) (len : Nat) : encodeBits code cap (b :: rest) len = invalidInput .noCode := by
  simp [encodeBits, h]

/-- At a byte whose code passes the capacity the loop raises `CapBits` (rule R149). -/
theorem encodeBits_capBits {code : Byte → List Bit} {b : Byte} {cap len : Nat} (h : code b ≠ [])
    (hcap : cap < len + (code b).length) (rest : List Byte) :
    encodeBits code cap (b :: rest) len = capacityError .capBits := by
  simp [encodeBits, h, hcap]

/-- Settles O22: the loop yields the codes joined, and the body stores them from cell 0 on. -/
theorem encodeConcatenatesTheCodes : Obligations.EncodeConcatenatesTheCodes := by
  intro s hphase hctv hbsv hc hcodes hroom
  have hlen := State.withBitSeq_bitLen hc hroom
  refine ⟨_, exec_enc_of_codes ⟨hphase, hctv, hbsv⟩ hcodes hroom, State.withBitSeq_bitSeq hc hroom,
    ?_, fun a ha => s.withBitSeq_bitAt_ge (hlen ▸ ha), rfl, s.withBitSeq_byteAt _⟩
  rw [hlen, List.length_flatMap]
  simp only [code_length]

/-- Settles O23: the loop passes the bytes before and raises at this one. -/
theorem encodeStopsAtTheFirstBadByte : Obligations.EncodeStopsAtTheFirstBadByte := by
  intro s done b rest hphase hctv hbsv hin hdone hroom
  have hstop {r : Result} {c : Cause} (h : encodeBits s.code s.config.bitsCap (b :: rest)
      (0 + (done.flatMap s.code).length) = .error (.raise r c)) :
      exec .enc s = .next (failed s r c) :=
    exec_enc_of_raise ⟨hphase, hctv, hbsv⟩ (hin ▸ encodeBits_append hdone (by rwa [Nat.zero_add]) h)
  exact ⟨fun hb => hstop (encodeBits_noCode hb ..),
    fun hb hfull => hstop (encodeBits_capBits hb (by rwa [Nat.zero_add]) rest)⟩

/-! ## `PCK` -/

/-- With the bit buffer full there is no room for the byte of padding (rule R155). -/
theorem pckBody_of_full {s : State} (h : s.bitLen.toNat = 8 * s.config.payCap) :
    pckBody s = capacityError .capPay := by
  have hfull : s.config.payCap < s.bitLen.toNat / 8 + 1 := by omega
  simp only [pckBody, packBits_length, State.bitSeq_length, if_pos hfull]

/-- Settles O25: below the capacity `PCK` completes, and ends in Encoded. -/
theorem packFailsExactlyWhenFull : Obligations.PackFailsExactlyWhenFull := by
  intro s hphase hbsv hle
  have ha : accepts .pck s = true := (accepts_iff .pck s).2 ⟨hphase, hbsv⟩
  refine ⟨fun hfail => ?_, fun hfull => command_of_raise ha (pckBody_of_full hfull)⟩
  by_contra hne
  have hok := command_of_ok ha (pckBody_of_room (Nat.lt_of_le_of_ne hle hne))
  have hstates := Host.Outcome.next.inj (hok.symm.trans hfail)
  have hphases : Phase.encoded = Phase.failed := congrArg State.phase hstates
  cases hphases

/-! ## `UPK` -/

/-- A payload with fewer bits than the padding is refused (rule R158). -/
theorem upkBody_of_short {s : State} (h : 8 * s.payLen.toNat < s.padLen.toNat) :
    upkBody s = invalidInput .payloadShort := by
  simp only [upkBody, if_pos h]

/-- The bits of a payload that fits `PAY` fit `BITS` (rule R8). -/
theorem unpackBits_payload_length_le {s : State} (h : s.payLen.toNat ≤ s.config.payCap) :
    (unpackBits s.payload (8 * s.payLen.toNat - s.padLen.toNat)).length ≤ s.config.bitsCap := by
  rw [unpackBits_length, Config.bitsCap]
  omega

/-- An accepted `UPK` completes where the padding is within the payload (rules R157 and R158). -/
theorem exec_upk_of_long {s : State} (ha : Accepted .upk s) (hpay : s.payLen.toNat ≤ s.config.payCap)
    (hpad : s.padLen.toNat ≤ 8 * s.payLen.toNat) :
    exec .upk s = .next
      (s.withBitSeq (unpackBits s.payload (8 * s.payLen.toNat - s.padLen.toNat))) := by
  have hbody : upkBody s = .ok ({ s with
      bits := s.bits.store 0 (unpackBits s.payload (8 * s.payLen.toNat - s.padLen.toNat)),
      bitLen := BitVec.ofNat 40
        (unpackBits s.payload (8 * s.payLen.toNat - s.padLen.toNat)).length } : State).setBsv := by
    simp only [upkBody, if_neg (Nat.not_lt.2 hpad),
      storeWithin_of_le (unpackBits_payload_length_le hpay)]
  exact command_of_ok ((accepts_iff .upk s).2 ha) hbody

/-- Bit `i` of a payload is bit `7 - (i mod 8)` of its byte `i div 8` (rule R61). -/
theorem unpackBits_payload_getElem (s : State) {len i : Nat}
    (hi : i < (unpackBits s.payload len).length) (hlen : len ≤ 8 * s.payLen.toNat) :
    (unpackBits s.payload len)[i] = (s.byteAt .pay (i / 8)).getLsbD (7 - i % 8) := by
  have hbyte : i / 8 < s.payload.length := by
    rw [State.payload_length]
    rw [unpackBits_length] at hi
    omega
  simp only [unpackBits, List.getElem_map, List.getElem_range, List.getD_eq_getElem _ _ hbyte]
  simp only [State.payload, State.bytes_getElem]

/-- Settles O26: the body stores `unpackBits` of the payload, less the padding. -/
theorem unpackDropsThePadding : Obligations.UnpackDropsThePadding := by
  intro s hphase hbsv hc hpay
  have ha : Accepted .upk s := ⟨hphase, hbsv⟩
  refine ⟨fun hshort => command_of_raise ((accepts_iff .upk s).2 ha) (upkBody_of_short hshort),
    fun hpad => ?_⟩
  have hroom := unpackBits_payload_length_le hpay
  have hlen := State.withBitSeq_bitLen hc hroom
  have hseq := State.withBitSeq_bitSeq hc hroom
  refine ⟨_, exec_upk_of_long ha hpay hpad, hlen.trans (unpackBits_length ..), fun i hi => ?_,
    fun i hi => s.withBitSeq_bitAt_ge (hlen ▸ hi), rfl, s.withBitSeq_byteAt _⟩
  rw [← State.bitSeq_getElem _ i (by rwa [State.bitSeq_length])]
  simp only [hseq]
  exact unpackBits_payload_getElem s _ (Nat.sub_le ..)

/-! ## `PCK` and then `UPK` -/

/-- The payload, once a sequence of its length has been stored, is that sequence. -/
theorem State.payload_of_store {t : State} {m : Memory Byte} {vs : List Byte}
    (h : t.pay = m.store 0 vs) (hl : t.payLen.toNat = vs.length) : t.payload = vs := by
  rw [State.payload, hl]
  exact State.bytes_of_store h

/-- The padding length and payload `PCK` leaves (rules R151 and R160). -/
theorem exec_pck_of_room {s : State} (ha : Accepted .pck s) (hc : s.config.legal = true)
    (hlt : s.bitLen.toNat < 8 * s.config.payCap) :
    ∃ t, exec .pck s = .next t ∧ t.padLen.toNat = padding s.bitSeq.length ∧
      t.payload = packBits s.bitSeq := by
  have hcap := Config.payCap_lt hc
  have hpay : (BitVec.ofNat 40 (s.bitLen.toNat / 8 + 1)).toNat = (packBits s.bitSeq).length := by
    rw [packBits_length, State.bitSeq_length]
    exact (BitVec.toNat_ofNat ..).trans (Nat.mod_eq_of_lt (by omega))
  refine ⟨_, command_of_ok ((accepts_iff .pck s).2 ha) (pckBody_of_room hlt), ?_, ?_⟩
  · rw [State.bitSeq_length]
    exact padding_toNat _
  · exact State.payload_of_store rfl hpay

/-- Settles O27: `PCK` leaves `packBits` of the bit sequence, which `unpackBits` takes back. -/
theorem unpackInvertsPack : Obligations.UnpackInvertsPack := by
  intro s u hphase hbsv hlt hc hconfig huphase hubsv
  obtain ⟨t, hexec, hpad, hpacked⟩ := exec_pck_of_room ⟨hphase, hbsv⟩ hc hlt
  have hrange := padding_range s.bitSeq.length
  have hpay : t.payLen.toNat = s.bitLen.toNat / 8 + 1 := by
    rw [← State.payload_length, hpacked, packBits_length, State.bitSeq_length]
  refine ⟨t, hexec, hpad ▸ hrange, hpay, fun hupad hupay => ?_⟩
  have hpayload : u.payload = packBits s.bitSeq := hupay.trans hpacked
  have hulen : u.payLen.toNat = (packBits s.bitSeq).length := by
    rw [← State.payload_length, hpayload]
  have hubits : 8 * u.payLen.toNat - u.padLen.toNat = s.bitSeq.length := by
    rw [hulen, hupad, hpad, packBits_payload_bits]
  have hfits : u.payLen.toNat ≤ u.config.payCap := by
    rw [hulen, packBits_length, State.bitSeq_length, hconfig]
    omega
  have hlong : u.padLen.toNat ≤ 8 * u.payLen.toNat := by
    rw [hulen, packBits_length, hupad, hpad]
    omega
  have hroom := unpackBits_payload_length_le hfits
  refine ⟨_, exec_upk_of_long ⟨huphase, hubsv⟩ hfits hlong, ?_⟩
  calc (u.withBitSeq (unpackBits u.payload (8 * u.payLen.toNat - u.padLen.toNat))).bitSeq
      = unpackBits u.payload (8 * u.payLen.toNat - u.padLen.toNat) :=
        State.withBitSeq_bitSeq (hconfig ▸ hc) hroom
    _ = unpackBits (packBits s.bitSeq) s.bitSeq.length := by rw [hpayload, hubits]
    _ = s.bitSeq := unpackBits_packBits _

end Sys2Proof.Machine

/-! The container codec (spec/44_container_codec.md): what `SER` and `PAR` refuse and complete, and that
`PAR` recovers what `SER` wrote: O15 and O29 to O32. -/

namespace Sys2Proof.Machine

/-! ## `SER` -/

/-- An accepted `SER` with room in `OUT` writes `containerBytes` (rule R166). -/
theorem exec_ser_of_room {s : State} (hphase : s.phase = .encoded) (hc : s.config.legal = true)
    (hk : s.symcnt.toNat = (keys s.freq).length)
    (hroom : 3 + 5 * s.symcnt.toNat + s.payLen.toNat ≤ s.config.outCap) :
    ∃ t, exec .ser s = .next t ∧ t.phase = .written ∧ t.result = .ok ∧
      t.output = containerBytes s.freq s.symcnt.toNat s.padLen.toNat s.payload := by
  have hcap := Config.outCap_lt hc
  have hout : (BitVec.ofNat 40 (3 + 5 * s.symcnt.toNat + s.payLen.toNat)).toNat =
      (containerBytes s.freq s.symcnt.toNat s.padLen.toNat s.payload).length := by
    rw [containerBytes_length, State.payload_length, ← hk]
    exact (BitVec.toNat_ofNat ..).trans (Nat.mod_eq_of_lt (by omega))
  refine ⟨_, command_of_ok ((accepts_iff .ser s).2 hphase) (serBody_of_room hk hroom), rfl, rfl, ?_⟩
  rw [State.output, State.succeed_outLen, hout]
  exact State.bytes_of_store rfl

/-- Settles O29: the body tests the length of the container before anything else. -/
theorem serializeFailsWhenTooLong : Obligations.SerializeFailsWhenTooLong := by
  intro s hphase hlong
  have hbody : serBody s = capacityError .capOut := if_pos hlong
  exact command_of_raise ((accepts_iff .ser s).2 hphase) hbody

/-- In Encoded, `SER` ends with `OK` only if the container fits `OUT` (rule R169). -/
theorem room_of_exec_ser_ok {s t : State} (hphase : s.phase = .encoded) (ht : exec .ser s = .next t)
    (hok : t.result = .ok) : 3 + 5 * s.symcnt.toNat + s.payLen.toNat ≤ s.config.outCap := by
  by_contra hlong
  have hfail := serializeFailsWhenTooLong s hphase (Nat.not_le.1 hlong)
  obtain rfl := Host.Outcome.next.inj (ht.symm.trans hfail)
  cases hok

/-! ## The empty input -/

theorem countTable_nil : countTable [] = Vector.replicate 256 0#32 :=
  table_ext fun sy => by simp [countTable]

/-- What `CNT` leaves of the empty input (rule R113). -/
def State.countedEmpty (s : State) : State :=
  { s with
    freq := Vector.replicate 256 0#32, symcnt := 0#9, padLen := 8#4, payLen := 0#40,
    phase := .encoded, result := .ok, cause := .none }

theorem execCnt_of_empty {s : State} (hidle : s.phase = .idle) (hlen : s.inLen = 0#40) :
    execCnt s = .next s.countedEmpty := by
  have hin : s.input = [] := List.length_eq_zero_iff.1 (by rw [State.input_length, hlen]; rfl)
  obtain ⟨b, hb, hfreq, hsymcnt, -, hempty⟩ := cntBody_ok s
  rw [hin, countTable_nil] at hfreq
  rw [hfreq, keys_zero] at hsymcnt
  have hstate := hempty hlen
  rw [hfreq, hsymcnt] at hstate
  have hnext : execCnt s = .next b.succeed := command_of_ok ((accepts_iff .cnt s).2 hidle) hb
  rw [hnext, hstate]
  rfl

/-- The empty container (rules R95 and R168). -/
theorem containerBytes_of_no_key :
    containerBytes (Vector.replicate 256 0#32) 0 8 [] = [0x00#8, 0x00#8, 0x08#8] := by
  rw [containerBytes, keys_zero]
  decide

/-- Every legal `OUT` holds the empty container (rule R8). -/
theorem Config.three_le_outCap {c : Config} (h : c.legal = true) : 3 ≤ c.outCap := by
  simp only [Config.legal, Bool.and_eq_true, decide_eq_true_eq] at h
  exact h.1.2.1

/-- On the empty input `CMP` is `CNT` and then `SER` (rules R87 and R192). -/
theorem execCmp_of_empty {s t u : State} (hidle : s.phase = .idle) (hlen : s.inLen = 0#40)
    (hcnt : execCnt s = .next t) (hokt : t.result = .ok) (hser : execSer t = .next u)
    (hoku : u.result = .ok) : execCmp s = .next u := by
  rw [execCmp, if_pos ((accepts_iff .cmp s).2 hidle), cmpStages, if_pos hlen, stages_cons, hcnt,
    andThen_ok hokt, stages_cons, hser, andThen_ok hoku, stages_nil]

/-- Settles O15: the invariant makes an Idle block cleared but for its input, so that `CNT` leaves a
table with no key, and the container of that is three bytes. -/
theorem emptyInputGivesTheEmptyContainer : Obligations.EmptyInputGivesTheEmptyContainer := by
  intro s hinv hidle hlen
  have hcleared := hinv.idle hidle
  have hcnt := execCnt_of_empty hidle hlen
  have hkeys : s.countedEmpty.symcnt.toNat = (keys s.countedEmpty.freq).length :=
    (congrArg List.length keys_zero).symm
  obtain ⟨u, hser, hwritten, hok, hout⟩ :=
    exec_ser_of_room (s := s.countedEmpty) rfl hinv.legal hkeys (Config.three_le_outCap hinv.legal)
  exact ⟨s.countedEmpty, u, hcnt, rfl, rfl, rfl, rfl, congrArg State.root hcleared,
    congrArg State.nnodes hcleared, congrArg State.ctv hcleared, congrArg State.bsv hcleared,
    congrArg State.bitLen hcleared, fun sy => entry_replicate _ sy, hser, hwritten,
    hout.trans containerBytes_of_no_key,
    execCmp_of_empty hidle hlen hcnt rfl hser hok⟩

/-! ## `PAR` on what `SER` wrote -/

/-- A frequency table is the table of its keys. -/
theorem isTableOf_keys {f : Vector Count 256} (hmax : ∀ sy, (entry f sy).toNat ≤ freqMax) :
    IsTableOf f ((keys f).map fun sy => (sy, (entry f sy).toNat)) where
  good := by
    refine List.forall_mem_map.2 fun sy hsy => ⟨mem_keys.1 hsy, ?_⟩
    exact Nat.lt_of_le_of_lt (hmax sy) (by decide)
  distinct := by simpa [Function.comp_def] using keys_nodup f
  listed := List.forall_mem_map.2 fun _ _ => rfl
  other sy hsy := by
    have hnot : sy ∉ keys f := by simpa using hsy
    exact BitVec.eq_of_toNat_eq (Nat.eq_zero_of_not_pos fun hpos => hnot (mem_keys.2 hpos))

/-- An input that is `containerBytes` holds that container. -/
theorem holdsContainer_of_containerBytes {u : State} {f : Vector Count 256} {n pad : Nat}
    {payload : List Byte} (h : u.input = containerBytes f n pad payload) :
    u.HoldsContainer .inp u.inLen.toNat (leBytes 2 n) (keys f) id
      (fun sy => leBytes 4 (entry f sy).toNat) (BitVec.ofNat 8 pad) payload where
  bytes_eq := h
  head_length := leBytes_length 2 n
  freqBytes_length _ := leBytes_length 4 _

/-- A frequency register survives its four bytes (rule R90). -/
theorem leValue_leBytes_count (v : Count) : leValue (leBytes 4 v.toNat) = v.toNat := by
  rw [leValue_leBytes]
  exact Nat.mod_eq_of_lt v.isLt

theorem padLen_toByte (p : BitVec 4) : (BitVec.ofNat 8 p.toNat).toNat = p.toNat := by
  rw [BitVec.toNat_ofNat]
  exact Nat.mod_eq_of_lt (p.isLt.trans (by decide))

/-- What an Encoded block has to serialize passes the checks of `PAR` (rules R170 and R184 (e)). -/
theorem State.Inv.parsable {s : State} (hinv : s.Inv) (hphase : s.phase = .encoded) {c : Config}
    (hroom : s.payLen.toNat ≤ c.payCap) :
    Parsable c s.freq ((keys s.freq).map fun sy => (sy, (entry s.freq sy).toNat))
      (BitVec.ofNat 8 s.padLen.toNat) s.payload := by
  obtain ⟨hpad, hpayload⟩ := hinv.encoded hphase
  refine ⟨?_, isTableOf_keys hinv.frequencies, ?_, fun h0 => ?_, ?_⟩
  · exact (List.length_map _).trans_le (keys_length_le _)
  · rwa [padLen_toByte]
  · rw [List.length_map, ← hinv.count] at h0
    rw [State.payload_length]
    rcases hpayload with ⟨hpos, -⟩ | ⟨-, hlen, -⟩
    · omega
    · exact congrArg BitVec.toNat hlen
  · rwa [State.payload_length]

/-- Settles O32: the input of `PAR` is the container `SER` wrote, whose parts pass every check. -/
theorem parseInvertsSerialize : Obligations.ParseInvertsSerialize := by
  intro s t u hinv hphase ht hok hidle hlegal hin hroom
  have hfits := room_of_exec_ser_ok hphase ht hok
  obtain ⟨t', ht', -, -, hout⟩ := exec_ser_of_room hphase hinv.legal hinv.count hfits
  obtain rfl := Host.Outcome.next.inj (ht.symm.trans ht')
  have hbox := holdsContainer_of_containerBytes (hin.trans hout)
  have hcount : leValue (leBytes 2 s.symcnt.toNat) = (keys s.freq).length := by
    rw [leValue_leBytes, ← hinv.count]
    exact Nat.mod_eq_of_lt (s.symcnt.isLt.trans (by decide))
  have hbody := hbox.parBody_of_parsable hcount (F := s.freq)
    (by simpa only [leValue_leBytes_count, id] using hinv.parsable hphase hroom)
  have hshort : s.payload.length < 2 ^ 40 := s.payload_length ▸ s.payLen.isLt
  refine ⟨_, command_of_ok ((accepts_iff .par u).2 hidle) hbody, rfl, rfl, ?_, ?_, ?_,
    State.parsed_payload _ _ _ _ hshort⟩
  · simp only [State.succeed_symcnt, State.parsed, ← hinv.count, BitVec.ofNat_toNat,
      BitVec.setWidth_eq]
  · simp only [State.succeed_padLen, State.parsed]
    rw [padLen_toByte, BitVec.ofNat_toNat, BitVec.setWidth_eq]
  · simp only [State.succeed_payLen, State.parsed, State.payload_length, BitVec.ofNat_toNat,
      BitVec.setWidth_eq]

/-! ## Every long enough input is a container -/

/-- `n` cells of a byte space from cell `a` on: the cells `MemRead` reads (rule R11). -/
def State.cellsFrom (s : State) (sp : Space) (a n : Nat) : List Byte :=
  (List.range n).map fun i => s.byteAt sp (a + i)

theorem State.cellsFrom_length (s : State) (sp : Space) (a n : Nat) :
    (s.cellsFrom sp a n).length = n := by
  simp [State.cellsFrom]

theorem State.cellsFrom_getD (s : State) (sp : Space) (a : Nat) {n i : Nat} (hi : i < n) :
    (s.cellsFrom sp a n).getD i 0#8 = s.byteAt sp (a + i) := by
  simp [State.cellsFrom, hi]

theorem State.cellsFrom_add (s : State) (sp : Space) (a m n : Nat) :
    s.cellsFrom sp a (m + n) = s.cellsFrom sp a m ++ s.cellsFrom sp (a + m) n := by
  simp [State.cellsFrom, List.range_add, Function.comp_def, Nat.add_assoc]

theorem State.input_eq_cellsFrom (s : State) : s.input = s.cellsFrom .inp 0 s.inLen.toNat := by
  simp [State.input, State.bytes, State.cellsFrom]

/-- The bytes behind `symbolCount`, five by five, are the entries (rule R88). -/
theorem State.cellsFrom_entries (s : State) (n : Nat) :
    s.cellsFrom .inp 2 (5 * n) =
      (List.range n).flatMap fun k => s.entrySym k :: s.cellsFrom .inp (3 + 5 * k) 4 := by
  induction n with
  | zero => rfl
  | succ n ih =>
    have hlast : s.cellsFrom .inp (2 + 5 * n) (1 + 4) =
        s.entrySym n :: s.cellsFrom .inp (3 + 5 * n) 4 := by
      rw [State.cellsFrom_add, show 2 + 5 * n + 1 = 3 + 5 * n by omega]
      rfl
    rw [Nat.mul_succ, State.cellsFrom_add, ih, hlast, List.range_succ, List.flatMap_append,
      List.flatMap_singleton]

/-- An input with room for `n` entries and a padding length holds a container with these parts. -/
theorem State.holdsContainer_of_long {s : State} {n : Nat} (hlong : 3 + 5 * n ≤ s.inLen.toNat) :
    s.HoldsContainer .inp s.inLen.toNat (s.cellsFrom .inp 0 2) (List.range n) s.entrySym
      (fun k => s.cellsFrom .inp (3 + 5 * k) 4) (s.byteAt .inp (2 + 5 * n))
      (s.cellsFrom .inp (3 + 5 * n) (s.inLen.toNat - (3 + 5 * n))) where
  bytes_eq := by
    have hsplit : s.inLen.toNat = 2 + (5 * n + (1 + (s.inLen.toNat - (3 + 5 * n)))) := by omega
    calc s.input
        = s.cellsFrom .inp 0 (2 + (5 * n + (1 + (s.inLen.toNat - (3 + 5 * n))))) := by
          rw [State.input_eq_cellsFrom, ← hsplit]
      _ = s.cellsFrom .inp 0 2 ++ (s.cellsFrom .inp 2 (5 * n) ++
            (s.cellsFrom .inp (2 + 5 * n) 1 ++
              s.cellsFrom .inp (3 + 5 * n) (s.inLen.toNat - (3 + 5 * n)))) := by
          rw [State.cellsFrom_add, State.cellsFrom_add, State.cellsFrom_add,
            show 0 + 2 + 5 * n + 1 = 3 + 5 * n by omega]
      _ = _ := by rw [State.cellsFrom_entries]; rfl
  head_length := s.cellsFrom_length ..
  freqBytes_length _ := s.cellsFrom_length ..

/-! ## The entries that pass -/

/-- The first `n` entries have frequencies in `1 .. 2^31 - 1` and distinct symbols (rule R172). -/
structure State.GoodEntries (s : State) (n : Nat) : Prop where
  range : ∀ k < n, 1 ≤ s.entryFreq k ∧ s.entryFreq k < 2 ^ 31
  distinct : ∀ i j, i < j → j < n → s.entrySym i ≠ s.entrySym j

/-- The loop of `PAR` passes good entries and goes on with those that follow. -/
theorem State.GoodEntries.parseEntries_add {s : State} {n : Nat} (h : s.GoodEntries n) (m : Nat) :
    ∃ F, parseEntries s n 0 (Vector.replicate 256 0#32) = .ok F ∧
      parseEntries s (n + m) 0 (Vector.replicate 256 0#32) = parseEntries s m n F := by
  obtain ⟨F, hF, hrest⟩ := parseEntries_append (s := s) (a := n) (b := m) (k := 0)
    (F := Vector.replicate 256 0#32) (fun j _ hj => h.range j (by omega))
    (fun j _ _ => entry_replicate _ _) (fun i j _ hij hj => h.distinct i j hij (by omega))
  exact ⟨F, hF, by rwa [Nat.zero_add] at hrest⟩

theorem State.GoodEntries.exists_table {s : State} {n : Nat} (h : s.GoodEntries n) :
    ∃ F, parseEntries s n 0 (Vector.replicate 256 0#32) = .ok F :=
  (h.parseEntries_add 0).imp fun _ hF => hF.1

/-- The table of a list of entries has a key for each of them. -/
theorem IsTableOf.keys_length {F : Vector Count 256} {es : List (Byte × Nat)} (h : IsTableOf F es) :
    (keys F).length = es.length := by
  have hperm : (keys F).Perm (es.map Prod.fst) := by
    refine (List.perm_ext_iff_of_nodup (keys_nodup F) h.distinct).2 fun sy => ?_
    rw [mem_keys]
    constructor
    · intro hpos
      by_contra hnot
      rw [h.other sy hnot] at hpos
      exact absurd hpos (by decide)
    · intro hmem
      obtain ⟨e, he, rfl⟩ := List.mem_map.1 hmem
      rw [h.listed e he]
      exact (h.good e he).1
  rw [hperm.length_eq, List.length_map]

theorem State.entries_length (s : State) (n : Nat) : (s.entries n).length = n := by
  simp [State.entries]

/-- `PAR` completes where the parts it finds in the input pass its checks (rule R170). -/
theorem parBody_of_entries {s : State} {n : Nat} {F : Vector Count 256}
    (hn : s.memRead .inp 0 2 = n) (hlong : 3 + 5 * n ≤ s.inLen.toNat)
    (hp : Parsable s.config F (s.entries n) (s.byteAt .inp (2 + 5 * n))
      (s.cellsFrom .inp (3 + 5 * n) (s.inLen.toNat - (3 + 5 * n)))) :
    parBody s = .ok (s.parsed F n (s.byteAt .inp (2 + 5 * n))
      (s.cellsFrom .inp (3 + 5 * n) (s.inLen.toNat - (3 + 5 * n)))) := by
  have hbody := (State.holdsContainer_of_long hlong).parBody_of_parsable
    (hn.trans List.length_range.symm) hp
  rwa [List.length_range] at hbody

/-- Settles O31: the input is long enough to hold a container, whose parts pass every check. -/
theorem parseRecoversTheParts : Obligations.ParseRecoversTheParts := by
  intro s n pad hidle _ hn hpad hfew hlong hrange hdistinct hpad1 hpad8 hempty hroom
  have hgood : s.GoodEntries n := ⟨hrange, fun i j hij hj => hdistinct j hj i hij⟩
  obtain ⟨F, hF⟩ := hgood.exists_table
  have htable : IsTableOf F (s.entries n) := isTableOf_of_parseEntries hF
  have hm : (s.cellsFrom .inp (3 + 5 * n) (s.inLen.toNat - (3 + 5 * n))).length =
      s.inLen.toNat - (3 + 5 * n) := s.cellsFrom_length ..
  have hbody := parBody_of_entries hn.symm hlong
    { few := (s.entries_length n).trans_le hfew
      table := htable
      padding := hpad ▸ ⟨hpad1, hpad8⟩
      empty := fun h0 => by
        have := hempty ((s.entries_length n).symm.trans h0)
        omega
      room := hm.trans_le hroom }
  have hlen : (BitVec.ofNat 40
      (s.cellsFrom .inp (3 + 5 * n) (s.inLen.toNat - (3 + 5 * n))).length).toNat =
      s.inLen.toNat - (3 + 5 * n) := by
    rw [hm]
    exact (BitVec.toNat_ofNat ..).trans (Nat.mod_eq_of_lt (by omega))
  refine ⟨_, command_of_ok ((accepts_iff .par s).2 hidle) hbody,
    State.forall_mem_entries.1 htable.listed, fun sy hsy => htable.other sy fun hmem => ?_,
    ?_, ?_, ?_, hlen, ?_, ?_, rfl, rfl, rfl⟩
  · obtain ⟨k, hk, e⟩ := State.mem_entries_fst.1 hmem
    exact hsy k hk e
  · exact (BitVec.toNat_ofNat ..).trans (Nat.mod_eq_of_lt (by omega))
  · exact htable.keys_length.trans (s.entries_length n)
  · rw [hpad]
    exact (BitVec.toNat_ofNat ..).trans (Nat.mod_eq_of_lt (by omega))
  · intro i hi
    have hi := hi.trans_eq hlen
    rw [State.byteAt_of_store_lt rfl (hi.trans_eq hm.symm), State.cellsFrom_getD _ _ _ hi]
  · intro a ha
    exact State.byteAt_of_store_ge (t := (s.parsed F n _ _).succeed) (s := s) (sp := .pay) rfl rfl
      (hm.trans_le (hlen.symm.trans_le ha))

/-! ## What `PAR` refuses -/

/-- A field of frequency 0 or with bit 31 set (rule R172). -/
def State.BadFrequency (s : State) (k : Nat) : Prop := s.entryFreq k = 0 ∨ 2 ^ 31 ≤ s.entryFreq k

/-- The symbol of entry `k` is that of an entry before (rule R172). -/
def State.Repeats (s : State) (k : Nat) : Prop := ∃ j < k, s.entrySym j = s.entrySym k

theorem State.goodEntries_iff {s : State} {n : Nat} :
    s.GoodEntries n ↔ ∀ k < n, ¬ s.BadFrequency k ∧ ¬ s.Repeats k := by
  constructor
  · rintro ⟨hrange, hdistinct⟩ k hk
    have := hrange k hk
    exact ⟨fun hbad => by unfold State.BadFrequency at hbad; omega,
      fun ⟨j, hj, e⟩ => hdistinct j k hj hk e⟩
  · intro h
    refine ⟨fun k hk => ?_, fun i j hij hj e => (h j hj).2 ⟨i, hij, e⟩⟩
    have := (h k hk).1
    unfold State.BadFrequency at this
    omega

theorem State.badFrequency_iff {s : State} {k : Nat} :
    sint32 (s.entryFreq k) ≤ 0 ↔ s.BadFrequency k :=
  sint32_nonpos_iff (entryFreq_lt s k)

/-- At a bad frequency the loop raises `BadFrequency`, whatever the symbol (rule R172). -/
theorem parseEntries_badFrequency {s : State} {k : Nat} (hbad : s.BadFrequency k) (todo : Nat)
    (F : Vector Count 256) : parseEntries s (todo + 1) k F = invalidInput .badFrequency := by
  have hsint := State.badFrequency_iff.2 hbad
  rw [parseEntries]
  exact if_pos hsint

/-- At a good frequency of a symbol in the table the loop raises `DupSymbol` (rule R172). -/
theorem parseEntries_dupSymbol {s : State} {k : Nat} {F : Vector Count 256}
    (hgood : ¬ s.BadFrequency k) (hdup : (entry F (s.entrySym k)).toNat ≠ 0) (todo : Nat) :
    parseEntries s (todo + 1) k F = invalidInput .dupSymbol := by
  have hsint := State.badFrequency_iff.not.2 hgood
  rw [parseEntries]
  exact (if_neg hsint).trans (if_pos hdup)

/-- Every symbol of the entries before is in the table the loop has made of them. -/
theorem entry_ne_zero_of_repeats {s : State} {k : Nat} {F : Vector Count 256}
    (hF : parseEntries s k 0 (Vector.replicate 256 0#32) = .ok F) (h : s.Repeats k) :
    (entry F (s.entrySym k)).toNat ≠ 0 := by
  obtain ⟨j, hj, e⟩ := h
  have htable := isTableOf_of_parseEntries hF
  have hval := State.forall_mem_entries.1 htable.listed j hj
  have hpos := (State.forall_mem_entries.1 htable.good j hj).1
  rw [← e, hval]
  exact Nat.ne_of_gt hpos

/-- The loop over `n` entries raises what the first entry that does not pass raises. -/
theorem parseEntries_of_first_bad {s : State} {n k : Nat} (hk : k < n) (h : s.GoodEntries k) {e : Stop}
    (hstop : ∀ F, parseEntries s k 0 (Vector.replicate 256 0#32) = .ok F →
      ∀ todo, parseEntries s (todo + 1) k F = .error e) :
    parseEntries s n 0 (Vector.replicate 256 0#32) = .error e := by
  obtain ⟨todo, rfl⟩ := Nat.exists_eq_add_of_lt hk
  obtain ⟨F, hF, hrest⟩ := h.parseEntries_add (todo + 1)
  exact hrest.trans (hstop F hF todo)

/-- `symbolCount` is in range and the table and the padding length are there (rule R170). -/
structure State.HasTable (s : State) : Prop where
  few : s.memRead .inp 0 2 ≤ 256
  long : 3 + 5 * s.memRead .inp 0 2 ≤ s.inLen.toNat

theorem parBody_of_tiny {s : State} (h : s.inLen.toNat < 2) : parBody s = invalidInput .truncated :=
  if_pos h

theorem parBody_of_many {s : State} (h2 : 2 ≤ s.inLen.toNat) (h : 256 < s.memRead .inp 0 2) :
    parBody s = invalidInput .symCountRange :=
  (if_neg (Nat.not_lt.2 h2)).trans (if_pos h)

theorem parBody_of_short_table {s : State} (h2 : 2 ≤ s.inLen.toNat) (hfew : s.memRead .inp 0 2 ≤ 256)
    (h : s.inLen.toNat < 3 + 5 * s.memRead .inp 0 2) : parBody s = invalidInput .truncated := by
  have hshort : s.inLen.toNat < 2 + 5 * s.memRead .inp 0 2 + 1 := by omega
  exact (if_neg (Nat.not_lt.2 h2)).trans ((if_neg (Nat.not_lt.2 hfew)).trans (if_pos hshort))

section

variable {s : State} (h : s.HasTable)
include h

/-- What the loop over the entries raises, `PAR` raises. -/
theorem State.HasTable.parBody_of_error {e : Stop}
    (he : parseEntries s (s.memRead .inp 0 2) 0 (Vector.replicate 256 0#32) = .error e) :
    parBody s = .error e := by
  obtain ⟨hfew, hlong⟩ := h
  rw [parBody]
  simp only [he]
  rw [if_neg (by omega), if_neg (by omega), if_neg (by omega)]

variable (hgood : s.GoodEntries (s.memRead .inp 0 2))
include hgood

theorem State.HasTable.parBody_of_padRange
    (hpad : (s.byteAt .inp (2 + 5 * s.memRead .inp 0 2)).toNat < 1 ∨
      8 < (s.byteAt .inp (2 + 5 * s.memRead .inp 0 2)).toNat) :
    parBody s = invalidInput .padRange := by
  obtain ⟨hfew, hlong⟩ := h
  obtain ⟨F, hF⟩ := hgood.exists_table
  rw [parBody]
  simp only [hF]
  rw [if_neg (by omega), if_neg (by omega), if_neg (by omega), if_pos hpad]

variable (hpad1 : 1 ≤ (s.byteAt .inp (2 + 5 * s.memRead .inp 0 2)).toNat)
  (hpad8 : (s.byteAt .inp (2 + 5 * s.memRead .inp 0 2)).toNat ≤ 8)
include hpad1 hpad8

theorem State.HasTable.parBody_of_extraPayload (h0 : s.memRead .inp 0 2 = 0)
    (hextra : 3 < s.inLen.toNat) : parBody s = invalidInput .extraPayload := by
  obtain ⟨hfew, hlong⟩ := h
  obtain ⟨F, hF⟩ := hgood.exists_table
  rw [parBody]
  simp only [hF]
  rw [if_neg (by omega), if_neg (by omega), if_neg (by omega), if_neg (by omega), if_pos (by omega)]

theorem State.HasTable.parBody_of_full (hpos : 1 ≤ s.memRead .inp 0 2)
    (hfull : s.config.payCap < s.inLen.toNat - (3 + 5 * s.memRead .inp 0 2)) :
    parBody s = capacityError .capPay := by
  obtain ⟨hfew, hlong⟩ := h
  obtain ⟨F, hF⟩ := hgood.exists_table
  rw [parBody]
  simp only [hF]
  rw [if_neg (by omega), if_neg (by omega), if_neg (by omega), if_neg (by omega), if_neg (by omega),
    if_pos hfull]

end

/-- Settles O30: check by check, the body raises at the first that fails. -/
theorem parseRefusesInOrder : Obligations.ParseRefusesInOrder := by
  intro s hidle len n sym bad dup pad tableGood
  have hfail {r : Result} {c : Cause} (hb : parBody s = .error (.raise r c)) :
      exec .par s = .next (failed s r c) := command_of_raise ((accepts_iff .par s).2 hidle) hb
  have hgood {k : Nat} (h : ∀ j < k, ¬ bad j ∧ ¬ dup j) : s.GoodEntries k := State.goodEntries_iff.2 h
  have htable (h : tableGood) : s.HasTable ∧ s.GoodEntries n := ⟨⟨h.2.1, h.2.2.1⟩, hgood h.2.2.2⟩
  refine ⟨fun h => hfail (parBody_of_tiny h), fun h2 h => hfail (parBody_of_many h2 h),
    fun h2 hfew h => hfail (parBody_of_short_table h2 hfew h), ?_, ?_, ?_, ?_, ?_⟩
  · intro k hk _ hfew hlong hbefore hbad
    exact hfail (State.HasTable.parBody_of_error ⟨hfew, hlong⟩ (parseEntries_of_first_bad hk
      (hgood hbefore) fun F _ todo => parseEntries_badFrequency hbad todo F))
  · intro k hk _ hfew hlong hbefore hfreq hdup
    exact hfail (State.HasTable.parBody_of_error ⟨hfew, hlong⟩ (parseEntries_of_first_bad hk
      (hgood hbefore) fun _ hF => parseEntries_dupSymbol hfreq (entry_ne_zero_of_repeats hF hdup)))
  · intro h hpad
    obtain ⟨htab, hent⟩ := htable h
    exact hfail (htab.parBody_of_padRange hent hpad)
  · intro h hpad1 hpad8 h0 hextra
    obtain ⟨htab, hent⟩ := htable h
    exact hfail (htab.parBody_of_extraPayload hent hpad1 hpad8 h0 hextra)
  · intro h hpad1 hpad8 hpos hfull
    obtain ⟨htab, hent⟩ := htable h
    exact hfail (htab.parBody_of_full hent hpad1 hpad8 hpos hfull)

end Sys2Proof.Machine

/-! The decode walk and the final write (spec/45_engine.md rules R185 to R189): what `WLK` and `EMT` leave
and how `WLK` fails, O34 to O37. -/

namespace Sys2Proof.Machine

/-! ## The records a walk meets -/

namespace State.TreeInvariant

variable {s : State} (h : s.TreeInvariant)
include h

/-- The walk starts at an Internal record (rule R48). -/
theorem root_internal : ∃ nd, s.node[s.root.toNat]? = some nd ∧ nd.kind = .internal := by
  obtain ⟨nd, hnd⟩ := recordAt_of_ne_nil s.node h.root_ne_nil
  refine ⟨nd, recordAt_ok.1 hnd, ?_⟩
  have hroot := h.root_eq
  have hcount := h.count.2
  rcases h.record le_rfl (recordAt_ok.1 hnd) with ⟨hlt, -⟩ | ⟨-, hk, -⟩
  · split at hroot <;> omega
  · exact hk

/-- The root is no Leaf, so a code has a bit (rule R137). -/
theorem code_ne_nil {p : List Bit} {sy : Byte} (hp : IsCode s.node s.root p sy) : p ≠ [] := by
  obtain ⟨nd, hnd, hk⟩ := h.root_internal
  obtain ⟨b, q, rfl, -⟩ := (isCode_internal hnd hk p sy).1 hp
  exact List.cons_ne_nil b q

/-- A path with a bit does not end at the root: it goes to smaller indices (rule R48). -/
theorem follow_ne_root {p : List Bit} {j : NodeIx} (hp : follow s.node s.root p = some j)
    (hne : p ≠ []) : j ≠ s.root := by
  rintro rfl
  have := (h.path_bound le_rfl hp).1
  have := List.length_pos_iff.2 hne
  omega

/-- Only the root of the single-symbol tree has a `NIL` child, its right one (rules R48 and R125). -/
theorem single_of_nil_child {i : Nat} {nd : Node} {b : Bit} (hi : i ≤ s.root.toNat)
    (hnd : s.node[i]? = some nd) (hk : nd.kind = .internal) (hb : nd.child b = nilIx) :
    s.symcnt = 1#9 ∧ b = true := by
  have hroot := h.root_eq
  have hn : s.symcnt.toNat ≤ i := by
    rcases h.record hi hnd with ⟨-, -, -, hleaf, -⟩ | ⟨hle, -⟩
    · rw [hleaf] at hk
      cases hk
    · exact hle
  by_cases hone : s.symcnt.toNat = 1
  · obtain ⟨-, -, nd', hnd', -, -, -, hleft, -⟩ := h.single hone
    obtain rfl : i = 1 := by rw [if_pos hone] at hroot; omega
    obtain rfl : nd = nd' := Option.some.inj (hnd.symm.trans hnd')
    refine ⟨BitVec.eq_of_toNat_eq hone, ?_⟩
    cases b with
    | true => rfl
    | false =>
      have hl : nd.left = nilIx := hb
      rw [hl] at hleft
      exact absurd hleft (by decide)
  · exfalso
    rw [if_neg hone] at hroot
    have hcount := h.count.2
    have hle := h.count_le
    obtain ⟨nd', hnd', hl, hr, -⟩ := h.inner (by omega) i (by omega) hn
    obtain rfl : nd = nd' := Option.some.inj (hnd.symm.trans hnd')
    have hnil : (nd.child b).toNat = 511 := congrArg BitVec.toNat hb
    cases b with
    | false =>
      have hchild : nd.left.toNat = 511 := hnil
      omega
    | true =>
      have hchild : nd.right.toNat = 511 := hnil
      omega

section

variable {cap : Nat} {ds : List Byte} {code : Byte → List Bit}
  (hcodes : ∀ d ∈ ds, IsCode s.node s.root (code d) d) (hcap : ds.length ≤ cap) {more : List Bit}
include hcodes hcap

/-- After whole codes of symbols that fit `DBUF` the walk goes on at the root (rule R186). -/
theorem walk_codes_ok {fin : NodeIx} {out : List Byte}
    (hmore : walkBits s.node s.root cap more s.root ds.length = .ok (fin, out)) :
    walkBits s.node s.root cap (ds.flatMap code ++ more) s.root 0 = .ok (fin, ds ++ out) := by
  rw [walkBits_codes (fun d hd => ⟨h.code_ne_nil (hcodes d hd), hcodes d hd⟩)
    (by rwa [Nat.zero_add]), Nat.zero_add, hmore]

/-- What the rest of the bits raises, the whole walk raises. -/
theorem walk_codes_error {e : Stop}
    (hmore : walkBits s.node s.root cap more s.root ds.length = .error e) :
    walkBits s.node s.root cap (ds.flatMap code ++ more) s.root 0 = .error e := by
  rw [walkBits_codes (fun d hd => ⟨h.code_ne_nil (hcodes d hd), hcodes d hd⟩)
    (by rwa [Nat.zero_add]), Nat.zero_add, hmore]

end

end State.TreeInvariant

/-! ## `WLK` -/

/-- The state of a completed `WLK` that decodes the bytes `ds` (rules R182 and R185). -/
def State.walked (s : State) (ds : List Byte) : State :=
  { s with
    dbuf := s.dbuf.store 0 ds, dLen := BitVec.ofNat 40 ds.length, phase := .decoded, result := .ok,
    cause := .none }

theorem State.walked_dLen (s : State) {ds : List Byte} (h : ds.length < 2 ^ 40) :
    (s.walked ds).dLen.toNat = ds.length :=
  (BitVec.toNat_ofNat ..).trans (Nat.mod_eq_of_lt h)

theorem State.walked_decodedBytes (s : State) {ds : List Byte} (h : ds.length < 2 ^ 40) :
    (s.walked ds).decodedBytes = ds := by
  rw [State.decodedBytes, s.walked_dLen h]
  exact State.bytes_of_store rfl

/-- An accepted `WLK` completes where the walk ends at the root with as many bytes as the frequencies
sum to (rule R185). -/
theorem exec_wlk_of_walk {s : State} {ds : List Byte} (ha : Accepted .wlk s)
    (hwalk : walkBits s.node s.root s.config.outCap s.bitSeq s.root 0 = .ok (s.root, ds))
    (hsum : ds.length = freqSum s.freq) : exec .wlk s = .next (s.walked ds) := by
  have hbody : wlkBody s = .ok { s with
      dbuf := s.dbuf.store 0 ds, dLen := BitVec.ofNat 40 ds.length, phase := .decoded } := by
    simp only [wlkBody, hwalk]
    rw [if_neg (not_not.2 rfl), if_neg (not_not.2 hsum)]
  exact command_of_ok ((accepts_iff .wlk s).2 ha) hbody

/-- A `WLK` whose body raises leaves the failure entry (rules R208 and R217). -/
theorem exec_wlk_of_raise {s : State} {r : Result} {c : Cause} (ha : Accepted .wlk s)
    (hbody : wlkBody s = .error (.raise r c)) : exec .wlk s = .next (failed s r c) :=
  command_of_raise ((accepts_iff .wlk s).2 ha) hbody

theorem wlkBody_of_error {s : State} {e : Stop}
    (h : walkBits s.node s.root s.config.outCap s.bitSeq s.root 0 = .error e) :
    wlkBody s = .error e := by
  simp only [wlkBody, h]

/-- A `WLK` on the codes of as many symbols as the frequencies sum to decodes them (rule R186). -/
theorem exec_wlk_of_codes {s : State} {ds : List Byte} {code : Byte → List Bit}
    (ha : Accepted .wlk s) (h : s.TreeInvariant)
    (hcodes : ∀ d ∈ ds, IsCode s.node s.root (code d) d) (hbits : s.bitSeq = ds.flatMap code)
    (hsum : ds.length = freqSum s.freq) (hcap : ds.length ≤ s.config.outCap) :
    exec .wlk s = .next (s.walked ds) := by
  refine exec_wlk_of_walk ha ?_ hsum
  simpa [hbits] using h.walk_codes_ok (more := []) hcodes hcap rfl

/-- Settles O34: each code brings the walk back to the root with its symbol, and nothing is left. -/
theorem walkDecodesTheCodes : Obligations.WalkDecodesTheCodes := by
  intro s ds code hphase hbsv hc h hcodes hbits hsum hcap
  have hshort : ds.length < 2 ^ 40 := hcap.trans_lt (Config.outCap_lt hc)
  have hlen := s.walked_dLen hshort
  refine ⟨_, exec_wlk_of_codes ⟨hphase, hbsv⟩ h hcodes hbits hsum hcap, s.walked_decodedBytes hshort,
    hlen, fun a ha => ?_, rfl⟩
  refine State.byteAt_of_store_ge ?_ ?_ (hlen ▸ ha) <;> rfl

/-- Settles O35: after the whole codes the walk is at the root again, where the rest of the bits
decides. -/
theorem walkChecksTheEnd : Obligations.WalkChecksTheEnd := by
  intro s ds code more hphase hbsv h hcodes hcap hbits
  have hfail {r : Result} {c : Cause} : wlkBody s = .error (.raise r c) →
      exec .wlk s = .next (failed s r c) := exec_wlk_of_raise ⟨hphase, hbsv⟩
  refine ⟨fun d p rest hp hmore hfull => hfail (wlkBody_of_error ?_), fun hne hinside => hfail ?_,
    fun hmore hsum => hfail ?_⟩
  · rw [hbits]
    refine h.walk_codes_error hcodes hcap ?_
    rw [hmore, walkBits_code (h.code_ne_nil hp) hp, if_pos hfull]
    rfl
  · obtain ⟨j, hj, hint⟩ := hinside
    have hstop := walkBits_inside (root := s.root) (cap := s.config.outCap) (rest := [])
      (d := ds.length) hj hint
    rw [List.append_nil] at hstop
    have hwalk := h.walk_codes_ok hcodes hcap hstop
    simp only [wlkBody, hbits, hwalk]
    exact if_pos (h.follow_ne_root hj hne)
  · have hwalk := h.walk_codes_ok (more := []) hcodes hcap rfl
    simp only [hmore, List.append_nil] at hbits hwalk
    simp only [wlkBody, hbits, hwalk]
    rw [if_neg (not_not.2 rfl), if_pos hsum]
    rfl

/-! ## `NullChild` -/

/-- The walk raises `NullChild` only at an Internal record, at or below its start or the root, with a
`NIL` child for one of its bits (rule R187). -/
theorem walkBits_nullChild {s : State} (h : s.TreeInvariant) {cap : Nat} {bs : List Bit} {cur : NodeIx}
    {d : Nat} {r : Result} (hcur : cur.toNat ≤ s.root.toNat)
    (hint : ∃ nd, s.node[cur.toNat]? = some nd ∧ nd.kind = .internal)
    (hw : walkBits s.node s.root cap bs cur d = .error (.raise r .nullChild)) :
    s.symcnt = 1#9 ∧ true ∈ bs := by
  induction bs generalizing cur d with
  | nil => cases hw
  | cons b bs ih =>
    obtain ⟨nd, hnd, hk⟩ := hint
    rw [walkBits, recordAt_ok.2 hnd] at hw
    dsimp only at hw
    by_cases hnil : nd.child b = nilIx
    · obtain ⟨hone, rfl⟩ := h.single_of_nil_child hcur hnd hk hnil
      exact ⟨hone, List.mem_cons_self⟩
    · obtain ⟨nd', hnd'⟩ := recordAt_of_ne_nil s.node hnil
      have hlower : (nd.child b).toNat ≤ s.root.toNat := by
        rcases h.record hcur hnd with ⟨-, -, -, hleaf, -⟩ | ⟨-, -, -, hlt⟩
        · rw [hleaf] at hk
          cases hk
        · exact (hlt b hnil).le.trans hcur
      rw [if_neg hnil, hnd'] at hw
      dsimp only at hw
      have hlater : s.symcnt = 1#9 ∧ true ∈ bs := by
        split at hw
        · rename_i hk'
          exact ih hlower ⟨nd', recordAt_ok.1 hnd', hk'⟩ hw
        split at hw
        · cases hw
        split at hw
        · rename_i e he
          exact ih le_rfl h.root_internal (he.trans (congrArg _ (Except.error.inj hw)))
        · cases hw
      exact hlater.imp_right (List.mem_cons_of_mem b)

/-- A `WLK` that ends with `NullChild` has raised it in its walk: its other checks have other causes. -/
theorem walk_of_nullChild {s t : State} (hw : exec .wlk s = .next t) (hc : t.cause = .nullChild) :
    ∃ r, walkBits s.node s.root s.config.outCap s.bitSeq s.root 0 = .error (.raise r .nullChild) := by
  rcases command_next hw with ⟨-, rfl⟩ | ⟨-, u, -, rfl⟩ | ⟨-, r, c, hbody, rfl⟩
  · cases hc
  · cases hc
  · obtain rfl : c = .nullChild := hc
    refine ⟨r, ?_⟩
    rw [wlkBody] at hbody
    split at hbody
    · rename_i e he
      exact he.trans (congrArg _ (Except.error.inj hbody))
    split at hbody
    · cases hbody
    split at hbody <;> cases hbody

/-- The root of the single-symbol tree has no right child (rule R125). -/
theorem walkBits_one_of_one_key {s : State} (h : s.TreeInvariant) (hone : s.symcnt = 1#9) (cap : Nat)
    (rest : List Bit) (d : Nat) :
    walkBits s.node s.root cap (true :: rest) s.root d = invalidInput .nullChild := by
  obtain ⟨-, hroot, nd, hnd, -, -, -, -, hright⟩ := h.single (congrArg BitVec.toNat hone)
  have hnil : nd.child true = nilIx := BitVec.eq_of_toNat_eq hright
  rw [hroot, walkBits, recordAt_ok.2 hnd]
  exact if_pos hnil

/-- Settles O36: in the single-symbol tree every 0 is a whole code and a 1 leads to `NIL`; any other
tree has no `NIL` child. -/
theorem nullChildOnlyInTheSingleTree : Obligations.NullChildOnlyInTheSingleTree := by
  refine ⟨fun s k rest hphase hbsv h hone hk hbits => ?_, fun s t hphase hbsv h hw hc => ?_⟩
  · have hlen : (keys s.freq).length = 1 := h.count.1.symm.trans (congrArg BitVec.toNat hone)
    obtain ⟨sy, hkey⟩ := List.length_eq_one_iff.1 hlen
    have hzeros : (List.replicate k sy).flatMap (fun _ => [false]) = List.replicate k false := by
      simp [List.flatMap_replicate]
    have hwalk := h.walk_codes_error (ds := List.replicate k sy) (code := fun _ => [false])
      (fun d hd => (List.eq_of_mem_replicate hd) ▸ h.isCode_of_one_key hkey)
      (List.length_replicate.trans_le hk) (walkBits_one_of_one_key h hone s.config.outCap rest _)
    rw [hzeros, ← hbits] at hwalk
    exact exec_wlk_of_raise ⟨hphase, hbsv⟩ (wlkBody_of_error hwalk)
  · obtain ⟨r, hwalk⟩ := walk_of_nullChild hw hc
    exact walkBits_nullChild h le_rfl h.root_internal hwalk

/-! ## `EMT` -/

/-- The state of a completed `EMT` (rules R182 and R189). -/
def State.emitted (s : State) : State :=
  { s with
    out := s.out.store 0 s.decodedBytes, outLen := s.dLen, phase := .written, result := .ok,
    cause := .none }

theorem State.emitted_output (s : State) : s.emitted.output = s.decodedBytes := by
  rw [State.output, show s.emitted.outLen.toNat = s.decodedBytes.length from
    s.decodedBytes_length.symm]
  exact State.bytes_of_store rfl

/-- A cell of `OUT` beyond the decoded bytes reads as before. -/
theorem State.emitted_byteAt_ge (s : State) {a : Nat} (ha : s.dLen.toNat ≤ a) :
    s.emitted.byteAt .out a = s.byteAt .out a := by
  refine State.byteAt_of_store_ge (vs := s.decodedBytes) ?_ ?_ (s.decodedBytes_length ▸ ha) <;> rfl

/-- An accepted `EMT` completes where the decoded bytes fit `OUT` (rule R189). -/
theorem exec_emt_of_room {s : State} (hphase : s.phase = .decoded)
    (hroom : s.dLen.toNat ≤ s.config.outCap) : exec .emt s = .next s.emitted := by
  have hbody : emtBody s = .ok { s with
      out := s.out.store 0 s.decodedBytes, outLen := s.dLen, phase := .written } := by
    simp only [emtBody, storeWithin_of_le (s.decodedBytes_length.trans_le hroom)]
  exact command_of_ok ((accepts_iff .emt s).2 hphase) hbody

/-- Settles O37: the body stores the decoded bytes from cell 0 on. -/
theorem emitCopiesTheDecodedBytes : Obligations.EmitCopiesTheDecodedBytes := by
  intro s hphase hroom
  refine ⟨_, exec_emt_of_room hphase hroom, fun a ha => ?_, fun a ha => s.emitted_byteAt_ge ha, rfl⟩
  have hlt : a < s.decodedBytes.length := s.decodedBytes_length.symm ▸ ha
  rw [State.byteAt_of_store_lt (t := s.emitted) (sp := .out) rfl hlt, List.getD_eq_getElem _ _ hlt]
  exact State.bytes_getElem s .dbuf _ a hlt

end Sys2Proof.Machine

/-! How a command ends (spec/45_engine.md rule R181, spec/60_exceptions.md rules R200, R208, R217 and
R218), as O8, O11 and O45 need it. Every command but `CLR`, `CMP` and `DCM` is its body run under its
acceptance check, and no body raises anything but `InvalidInput` or `CapacityError` with a cause. -/

namespace Sys2Proof.Machine

/-! ## What a body raises -/

/-- A failure of rule R200 with a cause of rule R33, not a rejection. -/
def IsFailure (r : Result) (c : Cause) : Prop :=
  (r = .invalidInput ∨ r = .capacityError) ∧ c ≠ .none

/-- Whatever the computation raises is a failure. -/
def RaisesFailures {α : Type} (x : Except Stop α) : Prop :=
  ∀ r c, x = .error (.raise r c) → IsFailure r c

theorem raisesFailures_ok {α : Type} (a : α) : RaisesFailures (.ok a : Except Stop α) :=
  fun _ _ => nofun

theorem raisesFailures_stuck {α : Type} (f : Fault) :
    RaisesFailures (.error (.stuck f) : Except Stop α) := fun _ _ => nofun

theorem raisesFailures_invalidInput {α : Type} {c : Cause} (hc : c ≠ .none) :
    RaisesFailures (invalidInput c : Except Stop α) := by
  intro r c' h
  obtain ⟨rfl, rfl⟩ := Stop.raise.inj (Except.error.inj h)
  exact ⟨.inl rfl, hc⟩

theorem raisesFailures_capacityError {α : Type} {c : Cause} (hc : c ≠ .none) :
    RaisesFailures (capacityError c : Except Stop α) := by
  intro r c' h
  obtain ⟨rfl, rfl⟩ := Stop.raise.inj (Except.error.inj h)
  exact ⟨.inr rfl, hc⟩

/-- An error handed on is as good as where it comes from. -/
theorem RaisesFailures.error {α β : Type} {x : Except Stop α} {e : Stop} (h : RaisesFailures x)
    (he : x = .error e) : RaisesFailures (.error e : Except Stop β) := fun r c hr =>
  h r c (he.trans (congrArg _ (Except.error.inj hr)))

theorem RaisesFailures.ite {α : Type} {p : Prop} [Decidable p] {x y : Except Stop α}
    (hx : RaisesFailures x) (hy : RaisesFailures y) : RaisesFailures (if p then x else y) := by
  split <;> assumption

theorem raisesFailures_recordAt (arena : Vector Node 511) (i : NodeIx) :
    RaisesFailures (recordAt arena i) := by
  unfold recordAt
  split
  · exact raisesFailures_ok _
  · exact raisesFailures_stuck _

theorem raisesFailures_storeWithin {α : Type} (cap : Nat) (vs : List α) (m : Memory α) :
    RaisesFailures (storeWithin cap vs m) :=
  .ite (raisesFailures_ok _) (raisesFailures_stuck _)

theorem raisesFailures_encodeBits (code : Byte → List Bit) (cap : Nat) (l : List Byte) (len : Nat) :
    RaisesFailures (encodeBits code cap l len) := by
  induction l generalizing len with
  | nil => exact raisesFailures_ok _
  | cons b l ih =>
    refine .ite (raisesFailures_invalidInput (by decide))
      (.ite (raisesFailures_capacityError (by decide)) ?_)
    split
    · exact (ih _).error (by assumption)
    · exact raisesFailures_ok _

theorem raisesFailures_parseEntries (s : State) (todo k : Nat) (F : Vector Count 256) :
    RaisesFailures (parseEntries s todo k F) := by
  induction todo generalizing k F with
  | zero => exact raisesFailures_ok _
  | succ todo ih =>
    exact .ite (raisesFailures_invalidInput (by decide))
      (.ite (raisesFailures_invalidInput (by decide)) (ih _ _))

/-- The walk of `GEN` raises nothing: it completes or is stuck. -/
theorem raisesFailures_visit (arena : Vector Node 511) (fuel : Nat) (i : NodeIx) (p : List Bit)
    (t : CodeTable) : RaisesFailures (visit arena fuel i p t) := by
  induction fuel generalizing i p t with
  | zero => exact raisesFailures_stuck _
  | succ fuel ih =>
    rw [visit]
    split
    · exact (raisesFailures_recordAt arena i).error (by assumption)
    split
    · exact raisesFailures_ok _
    split
    · rename_i he
      exact RaisesFailures.error (.ite (ih _ _ _) (raisesFailures_ok _)) he
    · exact .ite (ih _ _ _) (raisesFailures_ok _)

theorem raisesFailures_walkBits (arena : Vector Node 511) (root : NodeIx) (cap : Nat) (bs : List Bit)
    (cur : NodeIx) (d : Nat) : RaisesFailures (walkBits arena root cap bs cur d) := by
  induction bs generalizing cur d with
  | nil => exact raisesFailures_ok _
  | cons b bs ih =>
    rw [walkBits]
    split
    · exact (raisesFailures_recordAt arena cur).error (by assumption)
    refine .ite (raisesFailures_invalidInput (by decide)) ?_
    split
    · exact (raisesFailures_recordAt arena _).error (by assumption)
    split
    · exact ih _ _
    refine .ite (raisesFailures_capacityError (by decide)) ?_
    split
    · exact (ih _ _).error (by assumption)
    · exact raisesFailures_ok _

theorem raisesFailures_cntBody (s : State) : RaisesFailures (cntBody s) :=
  .ite (raisesFailures_ok _) (raisesFailures_ok _)

theorem raisesFailures_bldBody (s : State) : RaisesFailures (bldBody s) :=
  .ite (raisesFailures_invalidInput (by decide)) (.ite (raisesFailures_stuck _) (raisesFailures_ok _))

theorem raisesFailures_genBody (s : State) : RaisesFailures (genBody s) := by
  unfold genBody
  split
  · exact (raisesFailures_visit _ _ _ _ _).error (by assumption)
  · exact raisesFailures_ok _

theorem raisesFailures_encBody (s : State) : RaisesFailures (encBody s) := by
  unfold encBody
  split
  · exact (raisesFailures_encodeBits _ _ _ _).error (by assumption)
  · exact raisesFailures_ok _

theorem raisesFailures_pckBody (s : State) : RaisesFailures (pckBody s) :=
  .ite (raisesFailures_capacityError (by decide)) (raisesFailures_ok _)

theorem raisesFailures_serBody (s : State) : RaisesFailures (serBody s) :=
  .ite (raisesFailures_capacityError (by decide)) (.ite (raisesFailures_stuck _) (raisesFailures_ok _))

theorem raisesFailures_parBody (s : State) : RaisesFailures (parBody s) := by
  refine .ite (raisesFailures_invalidInput (by decide)) (.ite (raisesFailures_invalidInput (by decide))
    (.ite (raisesFailures_invalidInput (by decide)) ?_))
  split
  · exact (raisesFailures_parseEntries _ _ _ _).error (by assumption)
  · exact .ite (raisesFailures_invalidInput (by decide)) (.ite
      (raisesFailures_invalidInput (by decide)) (.ite (raisesFailures_capacityError (by decide))
        (.ite (raisesFailures_ok _) (raisesFailures_ok _))))

theorem raisesFailures_upkBody (s : State) : RaisesFailures (upkBody s) := by
  refine .ite (raisesFailures_invalidInput (by decide)) ?_
  split
  · exact (raisesFailures_storeWithin _ _ _).error (by assumption)
  · exact raisesFailures_ok _

theorem raisesFailures_wlkBody (s : State) : RaisesFailures (wlkBody s) := by
  unfold wlkBody
  split
  · exact (raisesFailures_walkBits _ _ _ _ _ _).error (by assumption)
  · exact .ite (raisesFailures_invalidInput (by decide)) (.ite
      (raisesFailures_invalidInput (by decide)) (raisesFailures_ok _))

theorem raisesFailures_emtBody (s : State) : RaisesFailures (emtBody s) := by
  unfold emtBody
  split
  · exact (raisesFailures_storeWithin _ _ _).error (by assumption)
  · exact raisesFailures_ok _

/-! ## The end of a command with a body -/

/-- The body of a command that has one: all but `CLR`, which is not checked, and `CMP` and `DCM`,
which run other commands. -/
def bodyOf : Instr → Option (State → Except Stop State)
  | .cnt => some cntBody
  | .bld => some bldBody
  | .gen => some genBody
  | .enc => some encBody
  | .pck => some pckBody
  | .ser => some serBody
  | .par => some parBody
  | .upk => some upkBody
  | .wlk => some wlkBody
  | .emt => some emtBody
  | .clr | .cmp | .dcm => none

theorem exec_eq_command {i : Instr} {b : State → Except Stop State} (hb : bodyOf i = some b)
    (s : State) : exec i s = command (accepts i s) b s := by
  cases i <;> cases hb <;> rfl

theorem raisesFailures_body {i : Instr} {b : State → Except Stop State} (hb : bodyOf i = some b)
    (s : State) : RaisesFailures (b s) := by
  cases i <;> cases hb
  · exact raisesFailures_cntBody s
  · exact raisesFailures_bldBody s
  · exact raisesFailures_genBody s
  · exact raisesFailures_encBody s
  · exact raisesFailures_pckBody s
  · exact raisesFailures_serBody s
  · exact raisesFailures_parBody s
  · exact raisesFailures_upkBody s
  · exact raisesFailures_wlkBody s
  · exact raisesFailures_emtBody s

/-- A command with a body is rejected, completes or fails, and is rejected exactly where it is not
accepted (rules R181, R208, R211, R217 and R218). -/
theorem exec_body_next {i : Instr} {b : State → Except Stop State} (hb : bodyOf i = some b)
    {s t : State} (h : exec i s = .next t) :
    (¬ Accepted i s ∧ t = s.reject .sequenceError) ∨
    (Accepted i s ∧ ∃ u, b s = .ok u ∧ t = u.succeed) ∨
    (Accepted i s ∧ ∃ r c, IsFailure r c ∧ t = s.failWith r c) := by
  rw [exec_eq_command hb] at h
  rcases command_next h with ⟨ha, ht⟩ | ⟨ha, hu⟩ | ⟨ha, r, c, he, ht⟩
  · exact .inl ⟨fun hacc => by simp [(accepts_iff i s).2 hacc] at ha, ht⟩
  · exact .inr (.inl ⟨(accepts_iff i s).1 ha, hu⟩)
  · exact .inr (.inr ⟨(accepts_iff i s).1 ha, r, c, raisesFailures_body hb s r c he, ht⟩)

/-- A command with a body that ends with `OK` was accepted and has completed. -/
theorem body_of_exec_ok {i : Instr} {b : State → Except Stop State} (hb : bodyOf i = some b)
    {s t : State} (h : exec i s = .next t) (hok : t.result = .ok) :
    Accepted i s ∧ ∃ u, b s = .ok u ∧ t = u.succeed := by
  rcases exec_body_next hb h with ⟨-, rfl⟩ | hdone | ⟨-, r, c, ⟨hr, -⟩, rfl⟩
  · cases hok
  · exact hdone
  · obtain rfl : r = .ok := hok
    rcases hr with h | h <;> cases h

/-- A command that is not accepted is rejected (rules R181 and R218). -/
theorem exec_of_not_accepted {i : Instr} {s : State} (ha : ¬ Accepted i s) :
    exec i s = .next (s.reject .sequenceError) := by
  have hfalse : accepts i s = false := Bool.eq_false_iff.2 fun h => ha ((accepts_iff i s).1 h)
  cases i with
  | clr => exact absurd trivial ha
  | cmp => simp [exec, execCmp, hfalse]
  | dcm => simp [exec, execDcm, hfalse]
  | _ => exact command_of_not_accepted hfalse

/-! ## `CMP` and `DCM` -/

/-- Where a sequence ends with `OK`, its first stage ended with `OK` too, and the rest followed. -/
theorem andThen_next_ok {o : StepResult} {g : State → StepResult} {t : State}
    (h : andThen o g = .next t) (hok : t.result = .ok) :
    ∃ u, o = .next u ∧ u.result = .ok ∧ g u = .next t := by
  rcases andThen_next h with ⟨-, hne⟩ | hu
  · exact absurd hok hne
  · exact hu

theorem execCmp_of_accepted {s : State} (ha : s.phase = .idle) :
    execCmp s = stages (cmpStages s) s :=
  if_pos ((accepts_iff .cmp s).2 ha)

theorem execDcm_of_accepted {s : State} (ha : s.phase = .idle) :
    execDcm s = andThen (execPar s) fun t => stages (dcmStages t) t :=
  if_pos ((accepts_iff .dcm s).2 ha)

end Sys2Proof.Machine

/-! The invariant that holds between commands (spec/45_engine.md rule R184): every step keeps it, O45. -/

namespace Sys2Proof.Machine

/-! ## Cells after a store -/

theorem Memory.within_store {α : Type} {m : Memory α} {cap a : Nat} {vs : List α}
    (h : m.within cap) (hvs : a + vs.length ≤ cap) : (m.store a vs).within cap := by
  intro c hc
  rcases List.mem_append.1 hc with hc | hc
  · exact h c (List.mem_of_mem_filter hc)
  rcases List.mem_append.1 hc with hc | hc
  · exact (Memory.mem_run hc).2.trans_le hvs
  · exact h c (List.mem_of_mem_filter hc)

theorem Memory.covers_store {α : Type} (m : Memory α) {vs : List α} {n : Nat} (hn : n ≤ vs.length) :
    (m.store 0 vs).covers n := by
  intro a ha
  have hlt : a < vs.length := ha.trans_le hn
  rw [Memory.read?_store_zero, if_pos hlt, List.getElem?_eq_getElem hlt]
  rfl

theorem Memory.covers_zero {α : Type} (m : Memory α) : m.covers 0 := fun _ => nofun

/-! ## Clauses that few fields decide -/

/-- The codes of a tree depend on `FREQ`, the code table, the arena and the root alone. -/
theorem State.CodesOfTree.congr {s t : State} (h : s.CodesOfTree) (hf : t.freq = s.freq)
    (hl : t.clen = s.clen) (hb : t.cbits = s.cbits) (hn : t.node = s.node) (hr : t.root = s.root) :
    t.CodesOfTree := by
  intro sy
  have hcode : t.code sy = s.code sy := State.code_congr (by rw [hl]) (by rw [hb])
  rw [hcode, hf, hl, hb, hn, hr]
  exact h sy

/-- `IN` reads the same in a state with the same cells, length and epoch. -/
theorem State.input_congr {s t : State} (hin : t.inBuf = s.inBuf) (hlen : t.inLen = s.inLen)
    (he : t.epoch = s.epoch) : t.input = s.input := by
  rw [State.input, State.input, hlen]
  exact List.map_congr_left fun a _ => State.byteAt_congr (sp := .inp) hin he a

/-! ## How a command leaves the invariant -/

theorem State.Inv.reject {s : State} (h : s.Inv) {r : Result}
    (hr : r = .sequenceError ∨ r = .usageError) : (s.reject r).Inv :=
  { h with
    results := by rcases hr with rfl | rfl <;> exact ⟨nofun, iff_of_true rfl ⟨nofun, nofun⟩⟩
    tree := fun hp => (h.tree hp).congr rfl rfl rfl rfl rfl
    idle := fun hp => congrArg (State.reject · r) (h.idle hp)
    failedSeen := fun _ => rfl }

/-- The failure entry of rule R217. -/
theorem State.Inv.failWith {s : State} (h : s.Inv) {r : Result} {c : Cause} (hf : IsFailure r c)
    (hw : s.phase ≠ .written) : (s.failWith r c).Inv :=
  { h with
    results := by
      obtain ⟨hr, hc⟩ := hf
      rcases hr with rfl | rfl
      · exact ⟨nofun, iff_of_false hc fun hn => hn.1 rfl⟩
      · exact ⟨nofun, iff_of_false hc fun hn => hn.2 rfl⟩
    output := fun _ => h.output hw
    tabled := nofun
    tree := nofun
    codes := fun hc => ⟨.inr (.inr (.inr rfl)), (h.codes hc).2⟩
    encoded := nofun
    padded := nofun
    idle := nofun
    failedSeen := fun _ => rfl
    counts := nofun
    bitsValid := fun _ => .inr (.inr (.inr (.inr (.inr rfl)))) }

theorem succeed_results (s : State) : s.succeed.result ≠ .ioError ∧
    (s.succeed.cause = .none ↔ s.succeed.result ≠ .invalidInput ∧ s.succeed.result ≠ .capacityError) :=
  ⟨nofun, iff_of_true rfl ⟨nofun, nofun⟩⟩

theorem accepted_not_written {i : Instr} {b : State → Except Stop State} (hb : bodyOf i = some b)
    {s : State} (ha : Accepted i s) : s.phase ≠ .written := by
  intro hp
  cases i <;> simp [Accepted, bodyOf, hp] at ha hb

/-- The command keeps the invariant. -/
abbrev KeepsInv (c : State → StepResult) : Prop := Keeps State.Inv c

/-- A command with a body keeps the invariant if its body does where it is accepted and completes; the
canonical form is kept anyway. -/
theorem keepsInv_of_body {i : Instr} {b : State → Except Stop State} (hb : bodyOf i = some b)
    (hok : ∀ s u, s.Inv → Accepted i s → b s = .ok u → u.succeed.memoryWf = true → u.succeed.Inv) :
    KeepsInv (exec i) := by
  intro s t h ht
  have hwf := keepsCanonical_exec i s t h.canonical ht
  rcases exec_body_next hb ht with ⟨-, rfl⟩ | ⟨ha, u, hu, rfl⟩ | ⟨ha, r, c, hf, rfl⟩
  · exact h.reject (.inl rfl)
  · exact hok s u h ha hu hwf
  · exact h.failWith hf (accepted_not_written hb ha)

/-! ## From Idle: `CNT` and `PAR` -/

/-- What holds of an Idle block but for its input and outcome (rule R184 (g)). -/
structure State.Fresh (s : State) : Prop where
  ctv : s.ctv = false
  bsv : s.bsv = false
  outLen : s.outLen = 0#40
  dLen : s.dLen = 0#40
  nnodes : s.nnodes = 0#10
  root : s.root = nilIx

theorem State.Inv.fresh {s : State} (h : s.Inv) (hidle : s.phase = .idle) : s.Fresh := by
  rw [h.idle hidle]
  exact ⟨rfl, rfl, rfl, rfl, rfl, rfl⟩

theorem Config.inCap_le {c : Config} (h : c.legal = true) : c.inCap ≤ freqMax := by
  simp only [Config.legal, Bool.and_eq_true, decide_eq_true_eq] at h
  unfold freqMax
  omega

/-- A legal input is no longer than a frequency can count (rules R8 and R112). -/
theorem State.Inv.input_length_le {s : State} (h : s.Inv) : s.input.length ≤ freqMax :=
  s.input_length.trans_le (h.lengths.1.trans (Config.inCap_le h.legal))

theorem freqMax_lt : freqMax < 2 ^ 32 := by decide

theorem State.input_eq_nil {s : State} (h : s.inLen = 0#40) : s.input = [] :=
  List.length_eq_zero_iff.1 (by rw [State.input_length, h]; rfl)

theorem State.input_ne_nil {s : State} (h : s.inLen ≠ 0#40) : s.input ≠ [] := by
  intro hin
  have hlen := s.input_length
  rw [hin] at hlen
  exact h (BitVec.eq_of_toNat_eq hlen.symm)

/-- A table of counts of some bytes has a key. -/
theorem keys_countTable_pos {l : List Byte} (h : l.length < 2 ^ 32) (hne : l ≠ []) :
    1 ≤ (keys (countTable l)).length := by
  obtain ⟨b, hb⟩ := List.exists_mem_of_ne_nil l hne
  exact List.length_pos_of_mem ((mem_keys_countTable h).2 hb)

theorem keepsInv_cnt : KeepsInv execCnt := by
  refine keepsInv_of_body (i := .cnt) rfl fun s u h hidle hu _ => ?_
  have hf := h.fresh hidle
  have hshort := h.input_length_le.trans_lt freqMax_lt
  have hfreq : ∀ sy, (entry (countTable s.input) sy).toNat ≤ freqMax := fun sy =>
    (entry_countTable hshort sy).trans_le (List.count_le_length.trans h.input_length_le)
  obtain ⟨hout, -, hbits, hdbuf⟩ := h.covered
  obtain ⟨hinLen, houtLen, -, hbitLen, hdLen⟩ := h.lengths
  unfold cntBody at hu
  dsimp only at hu
  split at hu
  · rename_i hlen
    injection hu with hu
    subst hu
    exact { h with
      covered := ⟨hout, Memory.covers_zero _, hbits, hdbuf⟩
      lengths := ⟨hinLen, houtLen, Nat.zero_le _, hbitLen, hdLen⟩
      frequencies := hfreq
      count := symcnt_of_keys _
      results := succeed_results _
      output := fun _ => hf.outLen
      tabled := nofun
      tree := nofun
      codes := fun hc => absurd hc (by simp [hf.ctv])
      encoded := fun _ => ⟨⟨Nat.le_of_ble_eq_true rfl, Nat.le_of_ble_eq_true rfl⟩,
        .inr ⟨by simp [State.input_eq_nil hlen, countTable_nil], rfl, rfl⟩⟩
      padded := nofun
      idle := nofun
      failedSeen := nofun
      counts := nofun
      bitsValid := fun hb => absurd hb (by simp [hf.bsv]) }
  · rename_i hlen
    injection hu with hu
    subst hu
    exact { h with
      frequencies := hfreq
      count := symcnt_of_keys _
      results := succeed_results _
      output := fun _ => hf.outLen
      tabled := fun _ => ⟨(keys_countTable_pos hshort (State.input_ne_nil hlen)).trans_eq
        (symcnt_of_keys _).symm, hf.nnodes, hf.root⟩
      tree := nofun
      codes := fun hc => absurd hc (by simp [hf.ctv])
      encoded := nofun
      padded := nofun
      idle := nofun
      failedSeen := nofun
      counts := fun _ => entry_countTable hshort
      bitsValid := fun hb => absurd hb (by simp [hf.bsv]) }

/-- The frequencies `PAR` accepts fit a register with bit 31 clear (rules R20 and R172). -/
theorem IsTableOf.le_freqMax {F : Vector Count 256} {es : List (Byte × Nat)} (h : IsTableOf F es)
    (sy : Byte) : (entry F sy).toNat ≤ freqMax := by
  by_cases hsy : sy ∈ es.map Prod.fst
  · obtain ⟨e, he, rfl⟩ := List.mem_map.1 hsy
    rw [h.listed e he]
    exact Nat.le_sub_one_of_lt (h.good e he).2
  · rw [h.other sy hsy]
    exact Nat.zero_le _

theorem keepsInv_par : KeepsInv execPar := by
  refine keepsInv_of_body (i := .par) rfl fun s u h hidle hu hwf => ?_
  have hf := h.fresh hidle
  obtain ⟨F, n, -, hn, -, hF, hpad1, hpad8, -, hcap, rfl⟩ := parBody_next hu
  generalize hpayload : (List.range _).map _ = payload at hwf ⊢
  have hlen : payload.length = s.inLen.toNat - (3 + 5 * n) := by simp [← hpayload]
  have hpad : (BitVec.ofNat 4 (s.byteAt .inp (2 + 5 * n)).toNat).toNat =
      (s.byteAt .inp (2 + 5 * n)).toNat :=
    (BitVec.toNat_ofNat ..).trans (Nat.mod_eq_of_lt (by omega))
  have hpayLen := toNat_ofNat_le 40 (s.inLen.toNat - (3 + 5 * n))
  have hkeys := keys_length_of_parseEntries hF
  have hcount : (BitVec.ofNat 9 n).toNat = n := hkeys ▸ symcnt_of_keys F
  obtain ⟨hinW, houtW, hpayW, hbitsW, hdbufW⟩ := h.within
  obtain ⟨hout, -, hbits, hdbuf⟩ := h.covered
  obtain ⟨hinLen, houtLen, -, hbitLen, hdLen⟩ := h.lengths
  have hdLen0 : (if n = 0 then 0#40 else s.dLen) = s.dLen := by rw [hf.dLen, ite_self]
  rw [hdLen0] at hwf ⊢
  have hcase : (if n = 0 then Phase.decoded else .parsed) = .decoded ∨
      (if n = 0 then Phase.decoded else .parsed) = .parsed := by split <;> simp
  have hpos : (if n = 0 then Phase.decoded else .parsed) = .parsed → 1 ≤ n := by
    split
    · exact nofun
    · exact fun _ => by omega
  generalize (if n = 0 then Phase.decoded else .parsed) = p at hcase hpos hwf ⊢
  rcases hcase with rfl | rfl
  all_goals
    exact { h with
      canonical := hwf
      within := ⟨hinW, houtW, Memory.within_store hpayW (by rwa [Nat.zero_add, hlen]), hbitsW, hdbufW⟩
      covered := ⟨hout, Memory.covers_store _ (hpayLen.trans_eq hlen.symm), hbits, hdbuf⟩
      lengths := ⟨hinLen, houtLen, hpayLen.trans hcap, hbitLen, hdLen⟩
      frequencies := (isTableOf_of_parseEntries hF).le_freqMax
      count := hcount.trans hkeys.symm
      results := succeed_results _
      output := fun _ => hf.outLen
      tabled := fun hq => ⟨hcount.symm ▸ hpos (hq.resolve_left nofun), hf.nnodes, hf.root⟩
      tree := nofun
      codes := fun hc => absurd hc (by simp [hf.ctv])
      encoded := nofun
      padded := fun _ => hpad.symm ▸ ⟨hpad1, hpad8⟩
      idle := nofun
      failedSeen := nofun
      counts := nofun
      bitsValid := fun hb => absurd hb (by simp [hf.bsv]) }

/-! ## `BLD` and `GEN` -/

theorem keepsInv_bld : KeepsInv execBld := by
  refine keepsInv_of_body (i := .bld) rfl fun s u h hp hu _ => ?_
  have hp : s.phase = .counted ∨ s.phase = .parsed := hp
  have htree := (bldBody_treeInvariant hu).1
  obtain ⟨-, -, rfl⟩ := bldBody_next hu
  rcases hp with hp | hp <;> simp only [hp] at htree ⊢
  all_goals exact { h with
    results := succeed_results _
    output := fun _ => h.output (by simp [hp])
    tabled := nofun
    tree := fun _ => htree.congr rfl rfl rfl rfl rfl
    codes := fun hc => absurd (h.codes hc).1 (by simp [hp])
    encoded := nofun
    padded := fun hq => h.padded (by simp_all)
    idle := nofun
    failedSeen := nofun
    counts := fun hq => h.counts (by simp_all)
    bitsValid := fun hb => absurd (h.bitsValid hb) (by simp [hp]) }

theorem keepsInv_gen : KeepsInv execGen := by
  refine keepsInv_of_body (i := .gen) rfl fun s u h ha hu _ => ?_
  obtain ⟨hp, -⟩ := ha
  obtain ⟨tbl, hv, rfl⟩ := genBody_next hu
  have htree := h.tree (.inl hp)
  exact { h with
    results := succeed_results _
    tree := fun _ => htree.congr rfl rfl rfl rfl rfl
    codes := fun _ => ⟨.inl hp, (generated_codesOfTree htree hv).congr rfl rfl rfl rfl rfl⟩
    idle := fun hq => nomatch hp.symm.trans hq
    bitsValid := fun _ => .inl ⟨hp, rfl⟩ }

/-! ## `ENC` and `UPK`, `PCK`, `WLK` -/

/-- Laying down bits that fit `BITS` keeps the invariant where `BSV` may be set (rules R28, R184). -/
theorem State.Inv.withBitSeq {s : State} (h : s.Inv) {bs : List Bit}
    (hbs : bs.length ≤ s.config.bitsCap) (hwf : (s.withBitSeq bs).memoryWf = true)
    (hp : (s.phase = .treeBuilt ∧ s.ctv = true) ∨ s.phase = .treeRebuilt) :
    (s.withBitSeq bs).Inv := by
  have hlen : (BitVec.ofNat 40 bs.length).toNat ≤ bs.length := toNat_ofNat_le 40 _
  have htree := h.tree (hp.imp_left And.left)
  obtain ⟨hinW, houtW, hpayW, hbitsW, hdbufW⟩ := h.within
  obtain ⟨hout, hpay, -, hdbuf⟩ := h.covered
  obtain ⟨hinLen, houtLen, hpayLen, -, hdLen⟩ := h.lengths
  unfold State.withBitSeq at hwf ⊢
  exact { h with
    canonical := hwf
    within := ⟨hinW, houtW, hpayW, Memory.within_store hbitsW (by rwa [Nat.zero_add]), hdbufW⟩
    covered := ⟨hout, hpay, Memory.covers_store _ hlen, hdbuf⟩
    lengths := ⟨hinLen, houtLen, hpayLen, hlen.trans hbs, hdLen⟩
    results := succeed_results s
    tree := fun _ => htree.congr rfl rfl rfl rfl rfl
    codes := fun hc => ⟨(h.codes hc).1, (h.codes hc).2.congr rfl rfl rfl rfl rfl⟩
    encoded := fun hq => by rcases hp with ⟨hp, -⟩ | hp <;> cases hp.symm.trans hq
    idle := fun hq => by rcases hp with ⟨hp, -⟩ | hp <;> cases hp.symm.trans hq
    bitsValid := fun _ => hp.elim .inl fun hp => .inr (.inr (.inr (.inl hp))) }

theorem keepsInv_enc : KeepsInv execEnc := by
  refine keepsInv_of_body (i := .enc) rfl fun s u h ha hu hwf => ?_
  obtain ⟨hp, hctv, -⟩ := ha
  obtain ⟨-, hroom, rfl⟩ := encBody_next hu
  exact h.withBitSeq hroom hwf (.inl ⟨hp, hctv⟩)

theorem keepsInv_upk : KeepsInv execUpk := by
  refine keepsInv_of_body (i := .upk) rfl fun s u h ha hu hwf => ?_
  obtain ⟨-, hroom, rfl⟩ := upkBody_next hu
  have hlen := unpackBits_length s.payload (8 * s.payLen.toNat - s.padLen.toNat)
  have hlen40 : BitVec.ofNat 40 (8 * s.payLen.toNat - s.padLen.toNat) =
      BitVec.ofNat 40 (unpackBits s.payload (8 * s.payLen.toNat - s.padLen.toNat)).length := by
    rw [hlen]
  rw [hlen40] at hwf ⊢
  exact h.withBitSeq (bs := unpackBits s.payload _) (hlen.trans_le hroom) hwf (.inr ha.1)

theorem keepsInv_pck : KeepsInv execPck := by
  refine keepsInv_of_body (i := .pck) rfl fun s u h ha hu hwf => ?_
  obtain ⟨hp, -⟩ := ha
  obtain ⟨hroom, rfl⟩ := pckBody_next hu
  have htree := h.tree (.inl hp)
  have hpayLen : (BitVec.ofNat 40 (packBits s.bitSeq).length).toNat = (packBits s.bitSeq).length := by
    have := Config.payCap_lt h.legal
    exact (BitVec.toNat_ofNat ..).trans (Nat.mod_eq_of_lt (by omega))
  have hpadLen : (BitVec.ofNat 4 (padding s.bitSeq.length)).toNat = padding s.bitSeq.length :=
    padding_toNat _
  obtain ⟨hinW, houtW, hpayW, hbitsW, hdbufW⟩ := h.within
  obtain ⟨hout, -, hbits, hdbuf⟩ := h.covered
  obtain ⟨hinLen, houtLen, -, hbitLen, hdLen⟩ := h.lengths
  exact { h with
    canonical := hwf
    within := ⟨hinW, houtW, Memory.within_store hpayW (by rwa [Nat.zero_add]), hbitsW, hdbufW⟩
    covered := ⟨hout, Memory.covers_store _ hpayLen.le, hbits, hdbuf⟩
    lengths := ⟨hinLen, houtLen, hpayLen.trans_le hroom, hbitLen, hdLen⟩
    results := succeed_results _
    output := fun _ => h.output (by simp [hp])
    tabled := nofun
    tree := nofun
    codes := fun hc => ⟨.inr (.inl rfl), (h.codes hc).2.congr rfl rfl rfl rfl rfl⟩
    encoded := fun _ => ⟨hpadLen.symm ▸ padding_range _,
      .inl ⟨htree.count.2, hpayLen.trans (by rw [packBits_length, State.bitSeq_length]; rfl)⟩⟩
    padded := nofun
    idle := nofun
    failedSeen := nofun
    counts := nofun
    bitsValid := fun _ => .inr (.inl rfl) }

theorem keepsInv_wlk : KeepsInv execWlk := by
  refine keepsInv_of_body (i := .wlk) rfl fun s u h ha hu hwf => ?_
  obtain ⟨hp, -⟩ := ha
  obtain ⟨ds, -, -, hroom, rfl⟩ := wlkBody_next hu
  have hdLen := toNat_ofNat_le 40 ds.length
  obtain ⟨hinW, houtW, hpayW, hbitsW, hdbufW⟩ := h.within
  obtain ⟨hout, hpay, hbits, -⟩ := h.covered
  obtain ⟨hinLen, houtLen, hpayLen, hbitLen, -⟩ := h.lengths
  exact { h with
    canonical := hwf
    within := ⟨hinW, houtW, hpayW, hbitsW, Memory.within_store hdbufW (by rwa [Nat.zero_add])⟩
    covered := ⟨hout, hpay, hbits, Memory.covers_store _ hdLen⟩
    lengths := ⟨hinLen, houtLen, hpayLen, hbitLen, hdLen.trans hroom⟩
    results := succeed_results _
    output := fun _ => h.output (by simp [hp])
    tabled := nofun
    tree := nofun
    codes := fun hc => absurd (h.codes hc).1 (by simp [hp])
    encoded := nofun
    padded := fun _ => h.padded (.inr (.inl hp))
    idle := nofun
    failedSeen := nofun
    counts := nofun
    bitsValid := fun _ => .inr (.inr (.inr (.inr (.inl rfl)))) }

/-! ## Into Written: `SER` and `EMT` -/

/-- Writing an output that fits `OUT` keeps the invariant (rules R52 and R184). -/
theorem State.Inv.written {s : State} (h : s.Inv) {vs : List Byte} {n : Len} (hn : n.toNat ≤ vs.length)
    (hvs : vs.length ≤ s.config.outCap)
    (hwf : ({ s with out := s.out.store 0 vs, outLen := n, phase := .written } : State).succeed.memoryWf
      = true) :
    ({ s with out := s.out.store 0 vs, outLen := n, phase := .written } : State).succeed.Inv := by
  obtain ⟨hinW, houtW, hpayW, hbitsW, hdbufW⟩ := h.within
  obtain ⟨-, hpay, hbits, hdbuf⟩ := h.covered
  obtain ⟨hinLen, -, hpayLen, hbitLen, hdLen⟩ := h.lengths
  exact { h with
    canonical := hwf
    within := ⟨hinW, Memory.within_store houtW (by rwa [Nat.zero_add]), hpayW, hbitsW, hdbufW⟩
    covered := ⟨Memory.covers_store _ hn, hpay, hbits, hdbuf⟩
    lengths := ⟨hinLen, hn.trans hvs, hpayLen, hbitLen, hdLen⟩
    results := succeed_results _
    output := fun hq => absurd rfl hq
    tabled := nofun
    tree := nofun
    codes := fun hc => ⟨.inr (.inr (.inl rfl)), (h.codes hc).2.congr rfl rfl rfl rfl rfl⟩
    encoded := nofun
    padded := nofun
    idle := nofun
    failedSeen := nofun
    counts := nofun
    bitsValid := fun _ => .inr (.inr (.inl rfl)) }

theorem keepsInv_ser : KeepsInv execSer := by
  refine keepsInv_of_body (i := .ser) rfl fun s u h hp hu hwf => ?_
  obtain ⟨hroom, hk, rfl⟩ := serBody_next hu
  have hlen : (containerBytes s.freq s.symcnt.toNat s.padLen.toNat s.payload).length =
      3 + 5 * s.symcnt.toNat + s.payLen.toNat := by
    rw [containerBytes_length, State.payload_length, hk]
  exact h.written (hlen.symm ▸ toNat_ofNat_le 40 _) (hlen.trans_le hroom) hwf

theorem keepsInv_emt : KeepsInv execEmt := by
  refine keepsInv_of_body (i := .emt) rfl fun s u h hp hu hwf => ?_
  obtain ⟨hroom, rfl⟩ := emtBody_next hu
  exact h.written s.decodedBytes_length.ge (s.decodedBytes_length.trans_le hroom) hwf

/-! ## Every command -/

/-- The cleared state has the invariant, in any legal block (rules R59 and R184 (g)). -/
theorem State.Inv.cleared {s : State} (h : s.Inv) : s.cleared.Inv :=
  { resetMeetsTheInvariant with
    legal := h.legal
    lengths := ⟨Nat.zero_le _, Nat.zero_le _, Nat.zero_le _, Nat.zero_le _, Nat.zero_le _⟩
    within := ⟨nofun, nofun, nofun, nofun, nofun⟩
    tree := nofun
    codes := nofun
    idle := fun _ => rfl }

/-- `CMP` keeps the invariant: a rejection does, and so does each of its stages (rule R191). -/
theorem keepsInv_cmp : KeepsInv execCmp := by
  intro s t h ht
  by_cases hidle : s.phase = .idle
  · rw [execCmp_of_accepted hidle] at ht
    exact stages_induction (forall_cmpStages (P := KeepsInv) keepsInv_cnt keepsInv_bld keepsInv_gen
      keepsInv_enc keepsInv_pck keepsInv_ser s) h ht
  · obtain rfl := Host.Outcome.next.inj (ht.symm.trans (exec_of_not_accepted (i := .cmp) hidle))
    exact h.reject (.inl rfl)

theorem keepsInv_dcm : KeepsInv execDcm := by
  intro s t h ht
  by_cases hidle : s.phase = .idle
  · rw [execDcm_of_accepted hidle] at ht
    rcases andThen_next ht with ⟨hpar, -⟩ | ⟨u, hpar, -, hrest⟩
    · exact keepsInv_par s t h hpar
    · exact stages_induction (forall_dcmStages (P := KeepsInv) keepsInv_bld keepsInv_upk keepsInv_wlk
        keepsInv_emt u) (keepsInv_par s u h hpar) hrest
  · obtain rfl := Host.Outcome.next.inj (ht.symm.trans (exec_of_not_accepted (i := .dcm) hidle))
    exact h.reject (.inl rfl)

theorem keepsInv_exec (i : Instr) : KeepsInv (exec i) :=
  match i with
  | .clr => fun _ _ h ht => Host.Outcome.next.inj ht ▸ h.cleared
  | .cnt => keepsInv_cnt
  | .bld => keepsInv_bld
  | .gen => keepsInv_gen
  | .enc => keepsInv_enc
  | .pck => keepsInv_pck
  | .ser => keepsInv_ser
  | .par => keepsInv_par
  | .upk => keepsInv_upk
  | .wlk => keepsInv_wlk
  | .emt => keepsInv_emt
  | .cmp => keepsInv_cmp
  | .dcm => keepsInv_dcm

theorem keepsInv_commandWrite (w : Byte) : KeepsInv (commandWrite w) := by
  intro s t h ht
  unfold commandWrite at ht
  split at ht
  · exact keepsInv_exec _ s t h ht
  · exact Host.Outcome.next.inj ht ▸ h.reject (.inr rfl)

/-! ## Every action of the host -/

/-- The invariant does not speak of what the host still does or has read. -/
theorem State.Inv.outside {s : State} (h : s.Inv) (rest : List HostAction) (d : Nat) (r : Option Nat) :
    ({ s with host := rest, draws := d, lastRead := r } : State).Inv :=
  { h with
    tree := fun hp => (h.tree hp).congr rfl rfl rfl rfl rfl
    codes := fun hc => ⟨(h.codes hc).1, (h.codes hc).2.congr rfl rfl rfl rfl rfl⟩
    idle := fun hp =>
      congrArg (fun u : State => { u with host := rest, draws := d, lastRead := r }) (h.idle hp) }

/-- In Idle the host may fill `IN` and set `IN_LEN` within their bounds (rules R34 and R55). -/
theorem State.Inv.withInput {s : State} (h : s.Inv) (hidle : s.phase = .idle) {m : Memory Byte} {n : Len}
    (hm : m.within s.config.inCap) (hn : n.toNat ≤ s.config.inCap)
    (hwf : ({ s with inBuf := m, inLen := n } : State).memoryWf = true) :
    ({ s with inBuf := m, inLen := n } : State).Inv :=
  { h with
    canonical := hwf
    within := ⟨hm, h.within.2⟩
    lengths := ⟨hn, h.lengths.2⟩
    tree := fun hp => absurd hp (by simp [hidle])
    codes := fun hc => absurd hc (by simp [(h.fresh hidle).ctv])
    idle := fun hp => congrArg (fun u : State => { u with inBuf := m, inLen := n }) (h.idle hp)
    counts := fun hp => absurd hp (by simp [hidle]) }

theorem State.Inv.inputWrite {s : State} (h : s.Inv) (a : Nat) (v : Byte) : (inputWrite a v s).Inv := by
  have hwf := inputWrite_memoryWf a v h.canonical
  rcases inputWrite_cases a v s with ⟨hidle, ha, he⟩ | ⟨-, he⟩
  · rw [he] at hwf ⊢
    exact h.withInput hidle (Memory.within_store h.within.1 ha) h.lengths.1 hwf
  · rwa [he]

theorem State.Inv.inLenWrite {s : State} (h : s.Inv) (n : Len) : (inLenWrite n s).Inv := by
  have hwf := inLenWrite_memoryWf n h.canonical
  rcases inLenWrite_cases n s with ⟨hidle, hn, he⟩ | ⟨-, he⟩
  · rw [he] at hwf ⊢
    exact h.withInput hidle h.within.1 hn hwf
  · rwa [he]

theorem keepsInv_hostStep (a : HostAction) : KeepsInv (hostStep a) := by
  intro s t h ht
  cases a with
  | command w => exact keepsInv_commandWrite w s t h ht
  | writeIn a v => exact Host.Outcome.next.inj ht ▸ h.inputWrite a v
  | writeInLen n => exact Host.Outcome.next.inj ht ▸ h.inLenWrite n
  | writeReadOnly l v => exact Host.Outcome.next.inj ht ▸ h
  | read l =>
    obtain rfl := Host.Outcome.next.inj ht
    rw [readBy_frame]
    exact h.outside s.host _ _
  | reset => exact Host.Outcome.next.inj ht ▸ h.cleared

/-- Settles O45: the host's next action, taken off its list, keeps the invariant. -/
theorem stepKeepsTheInvariant : Obligations.StepKeepsTheInvariant := by
  intro s t h ht
  match hhost : s.host with
  | [] =>
    rw [step_of_no_host hhost] at ht
    exact Host.Outcome.next.inj ht ▸ h
  | a :: rest =>
    rw [step_of_host hhost] at ht
    exact keepsInv_hostStep a _ t (h.outside rest s.draws s.lastRead) ht

end Sys2Proof.Machine

/-! Which command runs, and what it does to `PHASE` and the flags (spec/45_engine.md rules R181 and R182):
O8 and O11. -/

namespace Sys2Proof.Machine

/-! ## The one command of each point of an operation -/

/-- The command the table of rule R181 accepts at this point of an operation; out of an operation there
is none, and `CLR` stands for it. -/
def State.stage (s : State) : Instr :=
  match s.phase with
  | .counted | .parsed => .bld
  | .treeBuilt => if s.bsv then .pck else if s.ctv then .enc else .gen
  | .encoded => .ser
  | .treeRebuilt => if s.bsv then .wlk else .upk
  | .decoded => .emt
  | .idle | .written | .failed => .clr

/-- Inside an operation the accepted command is the stage of the phase and the flags; in TreeBuilt
`BSV` comes only with `CTV` (rules R28 and R181). -/
theorem State.Inv.accepted_iff {s : State} (h : s.Inv) (hi : s.phase ≠ .idle) (hw : s.phase ≠ .written)
    (hf : s.phase ≠ .failed) {i : Instr} (hne : i ≠ .clr) : Accepted i s ↔ i = s.stage := by
  have hbits : s.phase = .treeBuilt → s.bsv = true → s.ctv = true := fun hp hb => by
    rcases h.bitsValid hb with ⟨-, hc⟩ | hq | hq | hq | hq | hq
    · exact hc
    all_goals exact nomatch hp.symm.trans hq
  unfold State.stage
  cases hp : s.phase with
  | idle => exact absurd hp hi
  | written => exact absurd hp hw
  | failed => exact absurd hp hf
  | treeBuilt =>
    have hbits := hbits hp
    cases hb : s.bsv <;> cases hc : s.ctv <;> cases i <;> simp_all [Accepted]
  | treeRebuilt => cases hb : s.bsv <;> cases i <;> simp_all [Accepted]
  | counted | encoded | parsed | decoded => cases i <;> simp_all [Accepted]

/-- A command that answers a next state ends with a result that is no rejection exactly where it is
accepted. -/
theorem result_ne_sequenceError {i : Instr} {b : State → Except Stop State} (hb : bodyOf i = some b)
    {s t : State} (h : exec i s = .next t) (ha : Accepted i s) : t.result ≠ .sequenceError := by
  rcases exec_body_next hb h with ⟨hn, -⟩ | ⟨-, u, -, rfl⟩ | ⟨-, r, c, ⟨hr, -⟩, rfl⟩
  · exact absurd ha hn
  · exact nofun
  · rcases hr with rfl | rfl <;> exact nofun

theorem State.stage_body {s : State} (hi : s.phase ≠ .idle) (hw : s.phase ≠ .written)
    (hf : s.phase ≠ .failed) : ∃ b, bodyOf s.stage = some b := by
  unfold State.stage
  cases hp : s.phase with
  | idle => exact absurd hp hi
  | written => exact absurd hp hw
  | failed => exact absurd hp hf
  | treeBuilt => cases s.bsv <;> cases s.ctv <;> exact ⟨_, rfl⟩
  | treeRebuilt => cases s.bsv <;> exact ⟨_, rfl⟩
  | counted | encoded | parsed | decoded => exact ⟨_, rfl⟩

/-- Settles O8: the stage is accepted and runs; any other command is rejected. -/
theorem exactlyOneCommandRunsInAnOperation : Obligations.ExactlyOneCommandRunsInAnOperation := by
  intro s h hi hw hf
  obtain ⟨b, hb⟩ := s.stage_body hi hw hf
  have hclr : s.stage ≠ .clr := by
    intro he
    rw [he] at hb
    cases hb
  have ha : Accepted s.stage s := (h.accepted_iff hi hw hf hclr).2 rfl
  obtain ⟨t, ht, -⟩ := runs_exec s.stage s h.runnable
  refine ⟨s.stage, ⟨hclr, t, ht, result_ne_sequenceError hb ht ha⟩, ?_⟩
  rintro j ⟨hj, u, hu, hne⟩
  refine (h.accepted_iff hi hw hf hj).1 ?_
  by_contra hn
  obtain rfl := Host.Outcome.next.inj (hu.symm.trans (exec_of_not_accepted hn))
  exact hne rfl

/-! ## Failure -/

/-- A block that ends a command with `InvalidInput` or `CapacityError` is in Failed. -/
def FailsIntoFailed (t : State) : Prop :=
  t.result = .invalidInput ∨ t.result = .capacityError → t.phase = .failed

theorem failsIntoFailed_of_body {i : Instr} {b : State → Except Stop State} (hb : bodyOf i = some b)
    {s t : State} (h : exec i s = .next t) : FailsIntoFailed t := by
  rcases exec_body_next hb h with ⟨-, rfl⟩ | ⟨-, u, -, rfl⟩ | ⟨-, r, c, -, rfl⟩
  · rintro (hr | hr) <;> cases hr
  · rintro (hr | hr) <;> cases hr
  · exact fun _ => rfl

/-- A compound command ends as one of its stages did (rule R191). -/
theorem stages_ends {P : State → Prop} {c : State → StepResult} {cs : List (State → StepResult)}
    (hc : ∀ d ∈ c :: cs, ∀ s t, d s = .next t → P t) {s t : State} (h : stages (c :: cs) s = .next t) :
    P t := by
  rcases andThen_next h with ⟨hs, -⟩ | ⟨u, hs, -, hrest⟩
  · exact hc c List.mem_cons_self s t hs
  · exact stages_induction (fun d hd v w _ => hc d (List.mem_cons_of_mem c hd) v w)
      (hc c List.mem_cons_self s u hs) hrest

theorem failsIntoFailed_cmp {s t : State} (ha : s.phase = .idle) (h : execCmp s = .next t) :
    FailsIntoFailed t := by
  rw [execCmp_of_accepted ha] at h
  have hall := forall_cmpStages (P := fun c => ∀ s t, c s = .next t → FailsIntoFailed t)
    (fun _ _ => failsIntoFailed_of_body (i := .cnt) rfl)
    (fun _ _ => failsIntoFailed_of_body (i := .bld) rfl)
    (fun _ _ => failsIntoFailed_of_body (i := .gen) rfl)
    (fun _ _ => failsIntoFailed_of_body (i := .enc) rfl)
    (fun _ _ => failsIntoFailed_of_body (i := .pck) rfl)
    (fun _ _ => failsIntoFailed_of_body (i := .ser) rfl) s
  unfold cmpStages at h hall
  split at h <;> rename_i hlen <;> simp only [hlen] at hall <;> exact stages_ends hall h

theorem failsIntoFailed_dcm {s t : State} (ha : s.phase = .idle) (h : execDcm s = .next t) :
    FailsIntoFailed t := by
  rw [execDcm_of_accepted ha] at h
  rcases andThen_next h with ⟨hpar, -⟩ | ⟨u, hpar, -, hrest⟩
  · exact failsIntoFailed_of_body (i := .par) rfl hpar
  · exact stages_induction (P := FailsIntoFailed) (fun c hc v w _ => forall_dcmStages
      (P := fun c => ∀ s t, c s = .next t → FailsIntoFailed t)
      (fun _ _ => failsIntoFailed_of_body (i := .bld) rfl)
      (fun _ _ => failsIntoFailed_of_body (i := .upk) rfl)
      (fun _ _ => failsIntoFailed_of_body (i := .wlk) rfl)
      (fun _ _ => failsIntoFailed_of_body (i := .emt) rfl) u c hc v w)
      (failsIntoFailed_of_body (i := .par) rfl hpar) hrest

/-! ## Success -/

/-- The block goes to the phase `p` with the flags `ctv` and `bsv`, `ES` staying as it was. -/
def Moves (s t : State) (p : Phase) (ctv bsv : Bool) : Prop :=
  t.phase = p ∧ t.ctv = ctv ∧ t.bsv = bsv ∧ t.es = s.es

section

variable {s t : State} (hok : t.result = .ok)
include hok

theorem moves_cnt (h : execCnt s = .next t) :
    Moves s t (if s.inLen = 0#40 then .encoded else .counted) s.ctv s.bsv := by
  obtain ⟨-, u, hu, rfl⟩ := body_of_exec_ok (i := .cnt) rfl h hok
  unfold cntBody at hu
  dsimp only at hu
  split at hu <;> rename_i hlen <;> injection hu with hu <;> subst hu
  · exact ⟨(if_pos hlen).symm, rfl, rfl, rfl⟩
  · exact ⟨(if_neg hlen).symm, rfl, rfl, rfl⟩

theorem moves_bld (h : execBld s = .next t) :
    Moves s t (if s.phase = .counted then .treeBuilt else .treeRebuilt) s.ctv s.bsv := by
  obtain ⟨-, u, hu, rfl⟩ := body_of_exec_ok (i := .bld) rfl h hok
  obtain ⟨-, -, rfl⟩ := bldBody_next hu
  exact ⟨rfl, rfl, rfl, rfl⟩

theorem moves_gen (h : execGen s = .next t) : Moves s t .treeBuilt true s.bsv := by
  obtain ⟨ha, u, hu, rfl⟩ := body_of_exec_ok (i := .gen) rfl h hok
  obtain ⟨tbl, -, rfl⟩ := genBody_next hu
  exact ⟨ha.1, rfl, rfl, rfl⟩

theorem moves_enc (h : execEnc s = .next t) : Moves s t .treeBuilt s.ctv true := by
  obtain ⟨ha, u, hu, rfl⟩ := body_of_exec_ok (i := .enc) rfl h hok
  obtain ⟨-, -, rfl⟩ := encBody_next hu
  exact ⟨ha.1, rfl, rfl, rfl⟩

theorem moves_pck (h : execPck s = .next t) : Moves s t .encoded s.ctv s.bsv := by
  obtain ⟨-, u, hu, rfl⟩ := body_of_exec_ok (i := .pck) rfl h hok
  obtain ⟨-, rfl⟩ := pckBody_next hu
  exact ⟨rfl, rfl, rfl, rfl⟩

theorem moves_ser (h : execSer s = .next t) : Moves s t .written s.ctv s.bsv := by
  obtain ⟨-, u, hu, rfl⟩ := body_of_exec_ok (i := .ser) rfl h hok
  obtain ⟨-, -, rfl⟩ := serBody_next hu
  exact ⟨rfl, rfl, rfl, rfl⟩

theorem moves_par (h : execPar s = .next t) :
    Moves s t (if t.symcnt = 0#9 then .decoded else .parsed) s.ctv s.bsv := by
  obtain ⟨-, u, hu, rfl⟩ := body_of_exec_ok (i := .par) rfl h hok
  obtain ⟨F, n, -, hn, -, -, -, -, -, -, rfl⟩ := parBody_next hu
  have hzero : BitVec.ofNat 9 n = 0#9 ↔ n = 0 := by
    rw [← BitVec.toNat_inj, BitVec.toNat_ofNat, BitVec.toNat_ofNat]
    omega
  refine ⟨?_, rfl, rfl, rfl⟩
  simp only [State.succeed_phase, State.succeed_symcnt, hzero]

theorem moves_upk (h : execUpk s = .next t) : Moves s t .treeRebuilt s.ctv true := by
  obtain ⟨ha, u, hu, rfl⟩ := body_of_exec_ok (i := .upk) rfl h hok
  obtain ⟨-, -, rfl⟩ := upkBody_next hu
  exact ⟨ha.1, rfl, rfl, rfl⟩

theorem moves_wlk (h : execWlk s = .next t) : Moves s t .decoded s.ctv s.bsv := by
  obtain ⟨-, u, hu, rfl⟩ := body_of_exec_ok (i := .wlk) rfl h hok
  obtain ⟨ds, -, -, -, rfl⟩ := wlkBody_next hu
  exact ⟨rfl, rfl, rfl, rfl⟩

theorem moves_emt (h : execEmt s = .next t) : Moves s t .written s.ctv s.bsv := by
  obtain ⟨-, u, hu, rfl⟩ := body_of_exec_ok (i := .emt) rfl h hok
  obtain ⟨-, rfl⟩ := emtBody_next hu
  exact ⟨rfl, rfl, rfl, rfl⟩

/-- A command that ends with `OK` was accepted. -/
theorem accepted_of_ok {i : Instr} (h : exec i s = .next t) : Accepted i s := by
  by_contra hn
  obtain rfl := Host.Outcome.next.inj (h.symm.trans (exec_of_not_accepted hn))
  cases hok

end

theorem moves_cmp {s t : State} (h : s.Inv) (ht : execCmp s = .next t) (hok : t.result = .ok) :
    Moves s t .written (decide (s.inLen ≠ 0#40)) (decide (s.inLen ≠ 0#40)) := by
  have hidle : s.phase = .idle := accepted_of_ok (i := .cmp) hok ht
  have hf := h.fresh hidle
  rw [execCmp_of_accepted hidle] at ht
  unfold cmpStages at ht
  split at ht
  · rename_i hlen
    obtain ⟨c, hc, okc, ht⟩ := andThen_next_ok ht hok
    obtain ⟨t', ht', okt, he⟩ := andThen_next_ok ht hok
    obtain rfl := Host.Outcome.next.inj he
    obtain ⟨-, ctv1, bsv1, es1⟩ := moves_cnt okc hc
    obtain ⟨hphase, ctv2, bsv2, es2⟩ := moves_ser okt ht'
    have hset : decide (s.inLen ≠ 0#40) = false := decide_eq_false (not_not.2 hlen)
    exact ⟨hphase, by rw [ctv2, ctv1, hf.ctv, hset], by rw [bsv2, bsv1, hf.bsv, hset],
      by rw [es2, es1]⟩
  · rename_i hlen
    obtain ⟨c, hc, okc, ht⟩ := andThen_next_ok ht hok
    obtain ⟨b, hb, okb, ht⟩ := andThen_next_ok ht hok
    obtain ⟨g, hg, okg, ht⟩ := andThen_next_ok ht hok
    obtain ⟨e, he, oke, ht⟩ := andThen_next_ok ht hok
    obtain ⟨p, hp, okp, ht⟩ := andThen_next_ok ht hok
    obtain ⟨t', ht', okt, hend⟩ := andThen_next_ok ht hok
    obtain rfl := Host.Outcome.next.inj hend
    obtain ⟨-, -, -, es1⟩ := moves_cnt okc hc
    obtain ⟨-, -, -, es2⟩ := moves_bld okb hb
    obtain ⟨-, ctv3, -, es3⟩ := moves_gen okg hg
    obtain ⟨-, ctv4, bsv4, es4⟩ := moves_enc oke he
    obtain ⟨-, ctv5, bsv5, es5⟩ := moves_pck okp hp
    obtain ⟨hphase, ctv6, bsv6, es6⟩ := moves_ser okt ht'
    have hset : decide (s.inLen ≠ 0#40) = true := decide_eq_true hlen
    exact ⟨hphase, by rw [ctv6, ctv5, ctv4, ctv3, hset], by rw [bsv6, bsv5, bsv4, hset],
      by rw [es6, es5, es4, es3, es2, es1]⟩

theorem moves_dcm {s t : State} (h : s.Inv) (ht : execDcm s = .next t) (hok : t.result = .ok) :
    Moves s t .written false (decide (t.symcnt ≠ 0#9)) := by
  have hidle : s.phase = .idle := accepted_of_ok (i := .dcm) hok ht
  have hf := h.fresh hidle
  rw [execDcm_of_accepted hidle] at ht
  obtain ⟨p, hp, okp, ht⟩ := andThen_next_ok ht hok
  obtain ⟨hphase, ctv1, bsv1, es1⟩ := moves_par okp hp
  rw [hf.ctv] at ctv1
  unfold dcmStages at ht
  split at ht
  · rename_i hdec
    obtain ⟨t', hemt, okt, hend⟩ := andThen_next_ok ht hok
    obtain rfl := Host.Outcome.next.inj hend
    obtain ⟨hwritten, ctv2, bsv2, es2⟩ := moves_emt okt hemt
    have hsym : t'.symcnt = 0#9 := by
      rw [((onlyWrites_emt hemt).counts (by decide)).2]
      by_contra hne
      rw [hphase, if_neg hne] at hdec
      cases hdec
    exact ⟨hwritten, by rw [ctv2, ctv1], by rw [bsv2, bsv1, hf.bsv, hsym]; rfl, by rw [es2, es1]⟩
  · rename_i hdec
    obtain ⟨b, hb, okb, ht⟩ := andThen_next_ok ht hok
    obtain ⟨k, hk, okk, ht⟩ := andThen_next_ok ht hok
    obtain ⟨w, hw, okw, ht⟩ := andThen_next_ok ht hok
    obtain ⟨t', hemt, okt, hend⟩ := andThen_next_ok ht hok
    obtain rfl := Host.Outcome.next.inj hend
    obtain ⟨-, ctv2, -, es2⟩ := moves_bld okb hb
    obtain ⟨-, ctv3, bsv3, es3⟩ := moves_upk okk hk
    obtain ⟨-, ctv4, bsv4, es4⟩ := moves_wlk okw hw
    obtain ⟨hwritten, ctv5, bsv5, es5⟩ := moves_emt okt hemt
    have hsym : t'.symcnt ≠ 0#9 := by
      rw [((onlyWrites_emt hemt).counts (by decide)).2, ((onlyWrites_wlk hw).counts (by decide)).2,
        ((onlyWrites_upk hk).counts (by decide)).2, ((onlyWrites_bld hb).counts (by decide)).2]
      intro hzero
      exact hdec (hphase.trans (if_pos hzero))
    exact ⟨hwritten, by rw [ctv5, ctv4, ctv3, ctv2, ctv1],
      by rw [bsv5, bsv4, bsv3, decide_eq_true hsym], by rw [es5, es4, es3, es2, es1]⟩

/-- Settles O11: a failure enters Failed, and each command that completes moves as its body says,
`CMP` and `DCM` as their stages do. -/
theorem transitionsFollowTheTable : Obligations.TransitionsFollowTheTable := by
  refine ⟨fun i s t ha ht => ?_, fun i s t h ht hok => ?_⟩
  · cases i with
    | clr =>
      obtain rfl := Host.Outcome.next.inj ht
      rintro (hr | hr) <;> cases hr
    | cmp => exact failsIntoFailed_cmp ha ht
    | dcm => exact failsIntoFailed_dcm ha ht
    | _ => exact failsIntoFailed_of_body rfl ht
  · cases i with
    | clr =>
      obtain rfl := Host.Outcome.next.inj ht
      exact ⟨rfl, rfl, rfl, rfl⟩
    | cnt => exact moves_cnt hok ht
    | bld => exact moves_bld hok ht
    | gen => exact moves_gen hok ht
    | enc => exact moves_enc hok ht
    | pck => exact moves_pck hok ht
    | ser => exact moves_ser hok ht
    | par => exact moves_par hok ht
    | upk => exact moves_upk hok ht
    | wlk => exact moves_wlk hok ht
    | emt => exact moves_emt hok ht
    | cmp =>
      obtain ⟨hphase, hctv, hbsv, hes⟩ := moves_cmp h ht hok
      exact ⟨hphase, hes, hctv, hbsv⟩
    | dcm =>
      obtain ⟨hphase, hctv, hbsv, hes⟩ := moves_dcm h ht hok
      exact ⟨hphase, hes, hctv, hbsv⟩

end Sys2Proof.Machine

/-! `CMP` and `DCM` leave what their stages leave when the host issues them one by one (spec/45_engine.md rules
R191 to R193, spec/30_encoding.md rule R87): O38 and O39. -/

namespace Sys2Proof.Machine

/-! ## No command looks at what the host does next -/

/-- The same block before another host. -/
def State.withHost (s : State) (rest : List HostAction) : State := { s with host := rest }

/-- What a body computes, for the block before another host. -/
def bodyWithHost (rest : List HostAction) : Except Stop State → Except Stop State
  | .ok t => .ok (t.withHost rest)
  | .error e => .error e

/-- The body is blind to the host's actions. -/
def IgnoresHost (b : State → Except Stop State) : Prop :=
  ∀ s rest, b (s.withHost rest) = bodyWithHost rest (b s)

section

variable (s : State) (rest : List HostAction)

@[simp] theorem State.withHost_inLen : (s.withHost rest).inLen = s.inLen := rfl
@[simp] theorem State.withHost_root : (s.withHost rest).root = s.root := rfl
@[simp] theorem State.withHost_padLen : (s.withHost rest).padLen = s.padLen := rfl
@[simp] theorem State.withHost_payLen : (s.withHost rest).payLen = s.payLen := rfl
@[simp] theorem State.withHost_freq : (s.withHost rest).freq = s.freq := rfl
@[simp] theorem State.withHost_node : (s.withHost rest).node = s.node := rfl
@[simp] theorem State.withHost_bits : (s.withHost rest).bits = s.bits := rfl
@[simp] theorem State.withHost_out : (s.withHost rest).out = s.out := rfl
@[simp] theorem State.withHost_config : (s.withHost rest).config = s.config := rfl
@[simp] theorem State.withHost_input : (s.withHost rest).input = s.input := rfl
@[simp] theorem State.withHost_code : (s.withHost rest).code = s.code := rfl
@[simp] theorem State.withHost_bitSeq : (s.withHost rest).bitSeq = s.bitSeq := rfl
@[simp] theorem State.withHost_payload : (s.withHost rest).payload = s.payload := rfl
@[simp] theorem State.withHost_decodedBytes : (s.withHost rest).decodedBytes = s.decodedBytes := rfl
@[simp] theorem State.withHost_byteAt (sp : Space) (a : Nat) :
    (s.withHost rest).byteAt sp a = s.byteAt sp a := byteAt_host s rest sp a
@[simp] theorem State.withHost_memRead (sp : Space) (a n : Nat) :
    (s.withHost rest).memRead sp a n = s.memRead sp a n := by
  simp [State.memRead]
@[simp] theorem accepts_withHost (i : Instr) : accepts i (s.withHost rest) = accepts i s := by
  cases i <;> rfl

end

theorem parseEntries_withHost (s : State) (rest : List HostAction) (todo k : Nat)
    (F : Vector Count 256) : parseEntries (s.withHost rest) todo k F = parseEntries s todo k F := by
  induction todo generalizing k F with
  | zero => rfl
  | succ todo ih => simp only [parseEntries, ih, State.withHost_byteAt, State.withHost_memRead]

theorem bodyWithHost_ite {rest : List HostAction} {p : Prop} [Decidable p] {x y x' y' : Except Stop State}
    (hx : x' = bodyWithHost rest x) (hy : y' = bodyWithHost rest y) :
    (if p then x' else y') = bodyWithHost rest (if p then x else y) := by
  split <;> assumption

theorem ignoresHost_cntBody : IgnoresHost cntBody := fun _ _ => bodyWithHost_ite rfl rfl

theorem ignoresHost_bldBody : IgnoresHost bldBody := fun _ _ =>
  bodyWithHost_ite rfl (bodyWithHost_ite rfl rfl)

theorem ignoresHost_genBody : IgnoresHost genBody := by
  intro s rest
  simp only [genBody, State.withHost_node, State.withHost_root]
  cases visit s.node (clenMax + 1) s.root [] CodeTable.empty <;> rfl

theorem ignoresHost_encBody : IgnoresHost encBody := by
  intro s rest
  simp only [encBody, State.withHost_code, State.withHost_config, State.withHost_input]
  cases encodeBits s.code s.config.bitsCap s.input 0 <;> rfl

theorem ignoresHost_pckBody : IgnoresHost pckBody := fun _ _ => bodyWithHost_ite rfl rfl

theorem ignoresHost_serBody : IgnoresHost serBody := fun _ _ =>
  bodyWithHost_ite rfl (bodyWithHost_ite rfl rfl)

theorem ignoresHost_parBody : IgnoresHost parBody := by
  intro s rest
  simp only [parBody, State.withHost_inLen, State.withHost_memRead, State.withHost_config,
    parseEntries_withHost, State.withHost_byteAt]
  refine bodyWithHost_ite rfl (bodyWithHost_ite rfl (bodyWithHost_ite rfl ?_))
  cases parseEntries s (s.memRead .inp 0 2) 0 (Vector.replicate 256 0#32) with
  | error e => rfl
  | ok F =>
    exact bodyWithHost_ite rfl (bodyWithHost_ite rfl (bodyWithHost_ite rfl (bodyWithHost_ite rfl rfl)))

theorem ignoresHost_upkBody : IgnoresHost upkBody := by
  intro s rest
  simp only [upkBody, State.withHost_payLen, State.withHost_padLen, State.withHost_payload,
    State.withHost_config, State.withHost_bits]
  refine bodyWithHost_ite rfl ?_
  cases storeWithin s.config.bitsCap (unpackBits s.payload (8 * s.payLen.toNat - s.padLen.toNat)) s.bits
    <;> rfl

theorem ignoresHost_wlkBody : IgnoresHost wlkBody := by
  intro s rest
  simp only [wlkBody, State.withHost_node, State.withHost_root, State.withHost_config,
    State.withHost_bitSeq, State.withHost_freq]
  cases walkBits s.node s.root s.config.outCap s.bitSeq s.root 0 with
  | error e => rfl
  | ok p => exact bodyWithHost_ite rfl (bodyWithHost_ite rfl rfl)

theorem ignoresHost_emtBody : IgnoresHost emtBody := by
  intro s rest
  simp only [emtBody, State.withHost_decodedBytes, State.withHost_config, State.withHost_out]
  cases storeWithin s.config.outCap s.decodedBytes s.out <;> rfl

theorem ignoresHost_body {i : Instr} {b : State → Except Stop State} (hb : bodyOf i = some b) :
    IgnoresHost b := by
  cases i <;> cases hb
  · exact ignoresHost_cntBody
  · exact ignoresHost_bldBody
  · exact ignoresHost_genBody
  · exact ignoresHost_encBody
  · exact ignoresHost_pckBody
  · exact ignoresHost_serBody
  · exact ignoresHost_parBody
  · exact ignoresHost_upkBody
  · exact ignoresHost_wlkBody
  · exact ignoresHost_emtBody

/-- What a command with a body answers, it answers before any host. -/
theorem exec_withHost {i : Instr} {b : State → Except Stop State} (hb : bodyOf i = some b)
    {s t : State} (h : exec i s = .next t) (rest : List HostAction) :
    exec i (s.withHost rest) = .next (t.withHost rest) := by
  have hbody := ignoresHost_body hb s rest
  rw [exec_eq_command hb] at h ⊢
  rw [accepts_withHost]
  rcases command_next h with ⟨ha, rfl⟩ | ⟨ha, u, hu, rfl⟩ | ⟨ha, r, c, he, rfl⟩
  · exact command_of_not_accepted ha
  · rw [hu] at hbody
    exact command_of_ok ha hbody
  · rw [he] at hbody
    exact command_of_raise ha hbody

/-! ## Stages one by one -/

/-- A `CMD` write with the code of a command runs it (rule R31). -/
theorem step_of_command (i : Instr) (s : State) (rest : List HostAction) :
    step (s.withHost (.command (encode i) :: rest)) = exec i (s.withHost rest) := by
  rw [step_of_host rfl, hostStep, commandWrite, decode_encode]
  rfl

theorem runSteps_succ {n : Nat} {s u : State} (h : step s = .next u) :
    runSteps (n + 1) s = runSteps n u := by
  rw [runSteps, h]

/-- `t` is the state after `k` of the commands `is`, issued one by one, each before the `k`-th having
ended with `OK`, and all of them having run if `t` ended with `OK` (rule R191). -/
structure StagedRun (is : List Instr) (s t : State) (k : Nat) : Prop where
  pos : 1 ≤ k
  le : k ≤ is.length
  run : runSteps k (s.withHost (staged is)) = .next (t.withHost (staged (is.drop k)))
  complete : t.result = .ok → k = is.length
  before : ∀ j < k, j ≠ 0 → ∃ v, runSteps j (s.withHost (staged is)) = .next v ∧ v.result = .ok

section

variable {i : Instr} {is : List Instr} {b : State → Except Stop State} {s u : State}
  (hb : bodyOf i = some b) (h : exec i s = .next u)
include hb h

theorem step_of_staged : step (s.withHost (staged (i :: is))) = .next (u.withHost (staged is)) :=
  (step_of_command i s (staged is)).trans (exec_withHost hb h _)

/-- The first stage is the last one to run. -/
theorem stagedRun_one (hend : u.result = .ok → is = []) : StagedRun (i :: is) s u 1 where
  pos := le_rfl
  le := Nat.succ_le_succ (Nat.zero_le _)
  run := runSteps_succ (step_of_staged hb h)
  complete hok := by rw [hend hok]; rfl
  before j hj h0 := absurd (Nat.lt_one_iff.1 hj) h0

/-- The first stage ended with `OK`, and others run after it. -/
theorem StagedRun.cons {t : State} {k : Nat} (hok : u.result = .ok) (hr : StagedRun is u t k) :
    StagedRun (i :: is) s t (k + 1) where
  pos := Nat.succ_le_succ (Nat.zero_le _)
  le := Nat.succ_le_succ hr.le
  run := (runSteps_succ (step_of_staged hb h)).trans hr.run
  complete ht := congrArg (· + 1) (hr.complete ht)
  before j hj h0 := by
    obtain ⟨j, rfl⟩ := Nat.exists_eq_succ_of_ne_zero h0
    rw [Nat.succ_eq_add_one, runSteps_succ (step_of_staged hb h)]
    rcases Nat.eq_zero_or_pos j with rfl | hpos
    · exact ⟨_, rfl, hok⟩
    · exact hr.before j (Nat.lt_of_succ_lt_succ hj) hpos.ne'

end

/-- The stages of a compound command leave what the same commands leave one by one (rule R191). -/
theorem stagedRun_of_stages {is : List Instr} (hbody : ∀ i ∈ is, ∃ b, bodyOf i = some b) (hne : is ≠ [])
    {s t : State} (h : stages (is.map exec) s = .next t) : ∃ k, StagedRun is s t k := by
  induction is generalizing s with
  | nil => exact absurd rfl hne
  | cons i is ih =>
    obtain ⟨b, hb⟩ := hbody i List.mem_cons_self
    rw [List.map_cons, stages_cons] at h
    rcases andThen_next h with ⟨hi, hnot⟩ | ⟨u, hi, hok, hrest⟩
    · exact ⟨1, stagedRun_one hb hi fun hok => absurd hok hnot⟩
    · by_cases hnil : is = []
      · rw [hnil, List.map_nil, stages_nil] at hrest
        obtain rfl := Host.Outcome.next.inj hrest
        exact ⟨1, stagedRun_one hb hi fun _ => hnil⟩
      · obtain ⟨k, hk⟩ := ih (fun j hj => hbody j (List.mem_cons_of_mem i hj)) hnil hrest
        exact ⟨k + 1, hk.cons hb hi hok⟩

/-- A staged run from a block whose host does nothing else, in the words of the statements. -/
theorem StagedRun.spelled_out {is : List Instr} {s t : State} {k : Nat} (h : StagedRun is s t k)
    (ht : t.host = []) : 1 ≤ k ∧ k ≤ is.length ∧ ∃ u,
      runSteps k { s with host := staged is } = .next u ∧ t = { u with host := [] } ∧
      (t.result = .ok → k = is.length) ∧
      ∀ j < k, j ≠ 0 → ∃ v, runSteps j { s with host := staged is } = .next v ∧ v.result = .ok :=
  ⟨h.pos, h.le, _, h.run, by rw [← ht]; rfl, h.complete, h.before⟩

/-- Settles O38: `CMP` is its stages in order, which are the commands of its sequence. -/
theorem compressIsItsStages : Obligations.CompressIsItsStages := by
  intro s t hidle hhost ht
  have hthost : t.host = [] := ((onlyWrites_cmp ht).outside.2.1).trans hhost
  have hstages : stages ((compressSequence s).map exec) s = .next t := by
    rw [← ht, exec, execCmp_of_accepted hidle, cmpStages, compressSequence]
    split <;> rfl
  obtain ⟨k, hk⟩ := stagedRun_of_stages (is := compressSequence s) (by
    unfold compressSequence
    split <;> simp [bodyOf]) (by unfold compressSequence; split <;> simp) hstages
  exact ⟨k, hk.spelled_out hthost⟩

/-! ## The stages of `DCM` -/

theorem andThen_congr {o : StepResult} {f g : State → StepResult}
    (h : ∀ u, o = .next u → u.result = .ok → f u = g u) : andThen o f = andThen o g := by
  match o with
  | .next u =>
    by_cases hok : u.result = .ok
    · rw [andThen_ok hok, andThen_ok hok, h u rfl hok]
    · rw [andThen_not_ok hok, andThen_not_ok hok]
  | .fault f => rfl
  | .refused r => rfl

/-- The phase `PAR` leaves tells whether `symbolCount` is 0 (rules R174 and R193). -/
theorem execDcm_eq_stages {s : State} (hidle : s.phase = .idle) :
    execDcm s = stages ((decompressSequence s).map exec) s := by
  rw [execDcm_of_accepted hidle]
  have hrest : (decompressSequence s).map exec =
      execPar :: if s.memRead .inp 0 2 = 0 then [execEmt] else [execBld, execUpk, execWlk, execEmt] := by
    unfold decompressSequence
    split <;> rfl
  rw [hrest, stages_cons]
  refine andThen_congr fun u hu hok => ?_
  obtain ⟨b, hb, rfl⟩ := parBody_of_execPar_ok hu hok
  obtain ⟨F, n, rfl, -, -, -, -, -, -, -, rfl⟩ := parBody_next hb
  unfold dcmStages
  by_cases h0 : s.memRead .inp 0 2 = 0 <;> simp [h0]

/-- Settles O39: `DCM` is `PAR` and the stages `symbolCount` selects. -/
theorem decompressIsItsStages : Obligations.DecompressIsItsStages := by
  intro s t hidle hhost ht
  have hthost : t.host = [] := ((onlyWrites_dcm ht).outside.2.1).trans hhost
  obtain ⟨k, hk⟩ := stagedRun_of_stages (is := decompressSequence s) (by
    unfold decompressSequence
    split <;> simp [bodyOf]) (by unfold decompressSequence; split <;> simp)
    ((execDcm_eq_stages hidle).symm.trans ht)
  exact ⟨k, hk.spelled_out hthost⟩

end Sys2Proof.Machine

/-! Compression as a whole (spec/45_engine.md rule R192): the state after `CNT`, `BLD` and `GEN`, which
never fail, when `ENC`, `PCK` and `SER` complete, and what they leave, O40. -/

namespace Sys2Proof.Machine

/-! ## `CNT`, `PCK` and `SER` as states -/

/-- The state of a completed `CNT` on a non-empty input (rules R111 and R182). -/
def State.counted (s : State) : State :=
  { s with
    freq := countTable s.input, symcnt := BitVec.ofNat 9 (keys (countTable s.input)).length,
    phase := .counted, result := .ok, cause := .none }

theorem execCnt_of_input {s : State} (hidle : s.phase = .idle) (hlen : s.inLen ≠ 0#40) :
    execCnt s = .next s.counted := by
  have hbody : cntBody s = .ok { s with
      freq := countTable s.input, symcnt := BitVec.ofNat 9 (keys (countTable s.input)).length,
      phase := .counted } := if_neg hlen
  exact command_of_ok ((accepts_iff .cnt s).2 hidle) hbody

/-- The state of a completed `PCK` (rules R151 and R182). -/
def State.packed (s : State) : State :=
  { s with
    pay := s.pay.store 0 (packBits s.bitSeq), padLen := BitVec.ofNat 4 (padding s.bitLen.toNat),
    payLen := BitVec.ofNat 40 (s.bitLen.toNat / 8 + 1), phase := .encoded, result := .ok,
    cause := .none }

theorem execPck_of_room {s : State} (ha : Accepted .pck s) (h : s.bitLen.toNat < 8 * s.config.payCap) :
    execPck s = .next s.packed :=
  command_of_ok ((accepts_iff .pck s).2 ha) (pckBody_of_room h)

section

variable {s : State} (hc : s.config.legal = true) (h : s.bitLen.toNat < 8 * s.config.payCap)
include hc h

theorem State.packed_payLen : s.packed.payLen.toNat = s.bitLen.toNat / 8 + 1 := by
  have := Config.payCap_lt hc
  exact (BitVec.toNat_ofNat ..).trans (Nat.mod_eq_of_lt (by omega))

theorem State.packed_payload : s.packed.payload = packBits s.bitSeq :=
  State.payload_of_store rfl (by rw [State.packed_payLen hc h, packBits_length, State.bitSeq_length])

theorem State.packed_byteAt_ge {a : Nat} (ha : s.packed.payLen.toNat ≤ a) :
    s.packed.byteAt .pay a = s.byteAt .pay a := by
  have hlen : (packBits s.bitSeq).length ≤ a := by
    rwa [packBits_length, State.bitSeq_length, ← State.packed_payLen hc h]
  refine State.byteAt_of_store_ge ?_ ?_ hlen <;> rfl

end

/-- The state of a completed `SER` (rules R166 and R182). -/
def State.serialized (s : State) : State :=
  { s with
    out := s.out.store 0 (containerBytes s.freq s.symcnt.toNat s.padLen.toNat s.payload),
    outLen := BitVec.ofNat 40 (3 + 5 * s.symcnt.toNat + s.payLen.toNat), phase := .written,
    result := .ok, cause := .none }

section

variable {s : State} (hk : s.symcnt.toNat = (keys s.freq).length)
  (hroom : 3 + 5 * s.symcnt.toNat + s.payLen.toNat ≤ s.config.outCap)
include hk hroom

theorem execSer_of_room (hphase : s.phase = .encoded) : execSer s = .next s.serialized :=
  command_of_ok ((accepts_iff .ser s).2 hphase) (serBody_of_room hk hroom)

variable (hphase : s.phase = .encoded) (hc : s.config.legal = true)
include hphase hc

theorem State.serialized_output : s.serialized.output =
    containerBytes s.freq s.symcnt.toNat s.padLen.toNat s.payload := by
  obtain ⟨t, ht, -, -, hout⟩ := exec_ser_of_room hphase hc hk hroom
  obtain rfl := Host.Outcome.next.inj ((execSer_of_room hk hroom hphase).symm.trans ht)
  exact hout

end

/-! ## The block after `GEN` -/

/-- The codes of the input bytes, joined (rule R146). -/
def State.inputBits (s : State) : List Bit := s.input.flatMap s.code

/-- `g` is the block that `CNT`, `BLD` and `GEN` leave of an Idle block `s` with an input: it has the
counts of the input, their tree and its codes. -/
structure State.Coded (s g : State) : Prop where
  inv : g.Inv
  freq : g.freq = countTable s.input
  node : g.node = (buildTree (countTable s.input) (keys (countTable s.input)).length).node
  root : g.root = (buildTree (countTable s.input) (keys (countTable s.input)).length).root
  fresh : s.Fresh
  frame : g = { s with
    freq := g.freq, symcnt := g.symcnt, node := g.node, nnodes := g.nnodes, root := g.root,
    clen := g.clen, cbits := g.cbits, ctv := true, phase := .treeBuilt, result := .ok, cause := .none }

/-- The first three stages of `CMP` always complete (rules R111, R121 and R136). -/
theorem State.Inv.exists_coded {s : State} (h : s.Inv) (hidle : s.phase = .idle)
    (hlen : s.inLen ≠ 0#40) :
    ∃ g, s.Coded g ∧ execCmp s = stages [execEnc, execPck, execSer] g := by
  have hf := h.fresh hidle
  have hcnt := execCnt_of_input hidle hlen
  have hc : s.counted.Inv := keepsInv_cnt s _ h hcnt
  obtain ⟨hpos, -⟩ := hc.tabled (.inl rfl)
  have hbld : execBld s.counted = .next _ := exec_bld_of_keys hpos hc.count.symm (.inl rfl)
  have hb := keepsInv_bld _ _ hc hbld
  have htree := built_treeInvariant hpos hc.count.symm
  obtain ⟨tbl, hv⟩ := htree.visit_root_completes CodeTable.empty
  have hgen : execGen (s.counted.built _) = .next _ :=
    exec_gen_of_visit (s := s.counted.built _) rfl hf.ctv hv
  have hnum : s.counted.symcnt.toNat = (keys (countTable s.input)).length := hc.count
  refine ⟨_, ⟨keepsInv_gen _ _ hb hgen, rfl, ?_, ?_, hf, rfl⟩, ?_⟩
  · exact congrArg (fun n => (buildTree (countTable s.input) n).node) hnum
  · exact congrArg (fun n => (buildTree (countTable s.input) n).root) hnum
  · rw [execCmp_of_accepted hidle, cmpStages, if_neg hlen, stages_cons, hcnt, andThen_ok rfl, stages_cons,
      hbld, andThen_ok rfl, stages_cons, hgen, andThen_ok rfl]

namespace State.Coded

variable {s g : State} (h : s.Coded g)
include h

theorem input_eq : g.input = s.input :=
  State.input_congr (by rw [h.frame]) (by rw [h.frame]) (by rw [h.frame])

theorem config_eq : g.config = s.config := by rw [h.frame]

/-- None of the first three stages writes a cell (rule R66). -/
theorem byteAt_eq (sp : Space) (a : Nat) : g.byteAt sp a = s.byteAt sp a :=
  State.byteAt_congr (by rw [h.frame]; cases sp <;> rfl) (by rw [h.frame]) a

theorem bitAt_eq (a : Nat) : g.bitAt a = s.bitAt a :=
  State.bitAt_congr (by rw [h.frame]) (by rw [h.frame]) a

theorem phase_eq : g.phase = .treeBuilt := congrArg State.phase h.frame

theorem ctv_eq : g.ctv = true := congrArg State.ctv h.frame

theorem accepted_enc : Accepted .enc g :=
  ⟨h.phase_eq, h.ctv_eq, (congrArg State.bsv h.frame).trans h.fresh.bsv⟩

theorem codesOfTree : g.CodesOfTree := (h.inv.codes h.ctv_eq).2

/-- Each input byte has its path in the tree of the counts as its code. -/
theorem code_of_input {b : Byte} (hb : b ∈ s.input) :
    1 ≤ (g.code b).length ∧ IsCode g.node g.root (g.code b) b := by
  have hcount := h.inv.counts (.inr h.phase_eq) b
  rw [h.input_eq] at hcount
  rw [code_length]
  exact (h.codesOfTree b).1 (mem_keys.2 (hcount ▸ List.count_pos_iff.2 hb))

/-- The input has at least one bit and at most 255 bits a byte (rules R139 and R196). -/
theorem bits_length_bounds : s.inLen.toNat ≤ g.inputBits.length ∧
    g.inputBits.length ≤ 255 * s.inLen.toNat := by
  have hle : ∀ n ∈ s.input.map (fun b => (g.code b).length), n ≤ 255 := by
    refine List.forall_mem_map.2 fun b _ => ?_
    rw [code_length]
    exact Nat.le_of_lt_succ (BitVec.isLt _)
  have hge : ∀ n ∈ s.input.map (fun b => (g.code b).length), 1 ≤ n :=
    List.forall_mem_map.2 fun b hb => (h.code_of_input hb).1
  have h1 := List.card_nsmul_le_sum _ 1 hge
  have h2 := List.sum_le_card_nsmul _ 255 hle
  rw [List.length_map, State.input_length, smul_eq_mul] at h1 h2
  rw [State.inputBits, h.input_eq, List.length_flatMap]
  omega

end State.Coded

/-! ## `ENC`, `PCK` and `SER` -/

/-- The state of a completed `ENC` (rules R146 and R182). -/
def State.encodedInput (s : State) : State := s.withBitSeq s.inputBits

/-- The state after the last three stages of `CMP`. -/
def State.compressed (g : State) : State := g.encodedInput.packed.serialized

/-- The bits and the container of the block after `GEN` fit `PAY` and `OUT` (rules R155 and R169). -/
structure State.HasRoom (g : State) : Prop where
  payload : g.inputBits.length < 8 * g.config.payCap
  output : 3 + 5 * g.symcnt.toNat + (g.inputBits.length / 8 + 1) ≤ g.config.outCap

theorem State.HasRoom.fits {g : State} (h : g.HasRoom) : g.inputBits.length ≤ g.config.bitsCap :=
  h.payload.le

namespace State.Coded

variable {s g : State} (h : s.Coded g)
include h

section

variable (hfits : g.inputBits.length ≤ g.config.bitsCap)
include hfits

theorem execEnc_eq : execEnc g = .next g.encodedInput :=
  exec_enc_of_codes h.accepted_enc
    (fun _ hb => List.length_pos_iff.1 (h.code_of_input (h.input_eq ▸ hb)).1) hfits

theorem encoded_inv : g.encodedInput.Inv := keepsInv_enc _ _ h.inv (h.execEnc_eq hfits)

theorem encoded_bitLen : g.encodedInput.bitLen.toNat = g.inputBits.length :=
  State.withBitSeq_bitLen h.inv.legal hfits

theorem encoded_bitSeq : g.encodedInput.bitSeq = g.inputBits :=
  State.withBitSeq_bitSeq h.inv.legal hfits

end

/-- `CMP` ends with `OK` only where there is room (rules R155 and R169). -/
theorem hasRoom_of_ok {t : State} (ht : stages [execEnc, execPck, execSer] g = .next t)
    (hok : t.result = .ok) : g.HasRoom := by
  obtain ⟨e, he, oke, ht⟩ := andThen_next_ok ht hok
  obtain ⟨p, hp, okp, ht⟩ := andThen_next_ok ht hok
  obtain ⟨t', hser, okt, -⟩ := andThen_next_ok ht hok
  obtain ⟨-, u, hu, -⟩ := body_of_exec_ok (i := .enc) rfl he oke
  obtain ⟨-, hfits, -⟩ := encBody_next hu
  obtain rfl := Host.Outcome.next.inj (he.symm.trans (h.execEnc_eq hfits))
  have hlen := h.encoded_bitLen hfits
  obtain ⟨hap, v, hv, -⟩ := body_of_exec_ok (i := .pck) rfl hp okp
  obtain ⟨hpay, -⟩ := pckBody_next hv
  rw [packBits_length, State.bitSeq_length, hlen] at hpay
  have hroom : g.inputBits.length < 8 * g.config.payCap := by
    have : g.inputBits.length / 8 + 1 ≤ g.config.payCap := hpay
    omega
  have hbits : g.encodedInput.bitLen.toNat < 8 * g.encodedInput.config.payCap := hlen.trans_lt hroom
  obtain rfl := Host.Outcome.next.inj (hp.symm.trans (execPck_of_room hap hbits))
  obtain ⟨-, w, hw, -⟩ := body_of_exec_ok (i := .ser) rfl hser okt
  obtain ⟨hout, -⟩ := serBody_next hw
  rw [State.packed_payLen (h.encoded_inv hfits).legal hbits, hlen] at hout
  exact ⟨hroom, hout⟩

/-- `CMP` leaves every register alone that none of its stages is listed for (rule R30). -/
theorem compressed_frame : g.compressed = { s with
    freq := g.compressed.freq, symcnt := g.compressed.symcnt, node := g.compressed.node,
    nnodes := g.compressed.nnodes, root := g.compressed.root, clen := g.compressed.clen,
    cbits := g.compressed.cbits, ctv := true, bits := g.compressed.bits,
    bitLen := g.compressed.bitLen, bsv := true, pay := g.compressed.pay,
    padLen := g.compressed.padLen, payLen := g.compressed.payLen, out := g.compressed.out,
    outLen := g.compressed.outLen, phase := .written, result := .ok, cause := .none } :=
  congrArg (fun u : State => { u with
    bits := g.compressed.bits, bitLen := g.compressed.bitLen, bsv := true, pay := g.compressed.pay,
    padLen := g.compressed.padLen, payLen := g.compressed.payLen, out := g.compressed.out,
    outLen := g.compressed.outLen, phase := .written, result := .ok, cause := .none }) h.frame

variable (hroom : g.HasRoom)
include hroom

theorem encoded_room : g.encodedInput.bitLen.toNat < 8 * g.encodedInput.config.payCap :=
  (h.encoded_bitLen hroom.fits).trans_lt hroom.payload

theorem execPck_eq : execPck g.encodedInput = .next g.encodedInput.packed :=
  execPck_of_room ⟨h.phase_eq, rfl⟩ (h.encoded_room hroom)

theorem packed_inv : g.encodedInput.packed.Inv :=
  keepsInv_pck _ _ (h.encoded_inv hroom.fits) (h.execPck_eq hroom)

theorem packed_payLen : g.encodedInput.packed.payLen.toNat = g.inputBits.length / 8 + 1 := by
  rw [State.packed_payLen (h.encoded_inv hroom.fits).legal (h.encoded_room hroom),
    h.encoded_bitLen hroom.fits]

theorem packed_payload : g.encodedInput.packed.payload = packBits g.inputBits := by
  rw [State.packed_payload (h.encoded_inv hroom.fits).legal (h.encoded_room hroom),
    h.encoded_bitSeq hroom.fits]

theorem packed_padLen : g.encodedInput.packed.padLen.toNat = 8 - g.inputBits.length % 8 := by
  rw [← h.encoded_bitLen hroom.fits]
  exact padding_toNat _

theorem packed_room : 3 + 5 * g.encodedInput.packed.symcnt.toNat +
    g.encodedInput.packed.payLen.toNat ≤ g.encodedInput.packed.config.outCap := by
  rw [h.packed_payLen hroom]
  exact hroom.output

theorem execSer_eq : execSer g.encodedInput.packed = .next g.compressed :=
  execSer_of_room (h.packed_inv hroom).count (h.packed_room hroom) rfl

/-- With room the last three stages of `CMP` complete (rules R146, R151 and R166). -/
theorem stages_eq : stages [execEnc, execPck, execSer] g = .next g.compressed := by
  rw [stages_cons, h.execEnc_eq hroom.fits, andThen_ok rfl, stages_cons, h.execPck_eq hroom,
    andThen_ok rfl, stages_cons, h.execSer_eq hroom, andThen_ok rfl, stages_nil]

theorem compressed_output : g.compressed.output = containerBytes g.compressed.freq
    g.compressed.symcnt.toNat g.compressed.padLen.toNat g.compressed.payload :=
  State.serialized_output (h.packed_inv hroom).count (h.packed_room hroom) rfl
    (h.packed_inv hroom).legal

end State.Coded

/-! ## `CMP` with enough room -/

/-- A sum over some bytes, symbol by symbol. -/
theorem sum_map_eq_sum_symbols (l : List Byte) (f : Byte → Nat) :
    (l.map f).sum = (symbols.map fun sy => l.count sy * f sy).sum :=
  calc (l.map f).sum = ∑ sy ∈ l.toFinset, l.count sy * f sy := by
        simpa using Finset.sum_list_map_count l f
    _ = ∑ sy ∈ symbols.toFinset, l.count sy * f sy :=
        Finset.sum_subset (fun sy _ => by simp [mem_symbols]) fun sy _ hsy => by
          rw [List.count_eq_zero_of_not_mem (by simpa using hsy), Nat.zero_mul]
    _ = _ := List.sum_toFinset _ symbols_nodup

/-- With 255 bits a byte and 256 entries there is room in any case (rules R139 and R196). -/
theorem State.Coded.hasRoom_of_capacities {s g : State} (h : s.Coded g)
    (hpay : 255 * s.inLen.toNat < 8 * s.config.payCap)
    (hout : 1284 + 255 * s.inLen.toNat / 8 ≤ s.config.outCap) : g.HasRoom := by
  obtain ⟨-, hle⟩ := h.bits_length_bounds
  have hkeys := keys_length_le g.freq
  have hcount := h.inv.count
  rw [← h.config_eq] at hpay hout
  exact ⟨by omega, by omega⟩

/-- The number of bits, symbol by symbol (rule R147). -/
theorem State.Coded.bits_length_eq_sum {s g : State} (h : s.Coded g) : g.inputBits.length =
    (symbols.map fun sy => (entry g.freq sy).toNat * (entry g.clen sy).toNat).sum := by
  rw [State.inputBits, List.length_flatMap, sum_map_eq_sum_symbols]
  refine congrArg List.sum (List.map_congr_left fun sy _ => ?_)
  rw [← h.inv.counts (.inr h.phase_eq) sy, code_length]

/-- Settles O40: the first three stages always complete, the others where there is room, and each
leaves its part. -/
theorem compressCompletes : Obligations.CompressCompletes := by
  intro s hinv hidle hlen hpay hout
  obtain ⟨g, h, hcmp⟩ := hinv.exists_coded hidle hlen
  have hroom := h.hasRoom_of_capacities hpay hout
  have hbits : g.compressed.bitLen.toNat = g.inputBits.length := h.encoded_bitLen hroom.fits
  have hseq : g.compressed.bitSeq = g.inputBits := h.encoded_bitSeq hroom.fits
  have hpayLen : g.compressed.payLen.toNat = g.compressed.bitLen.toNat / 8 + 1 :=
    hbits ▸ h.packed_payLen hroom
  obtain ⟨hge, hle⟩ := h.bits_length_bounds
  obtain ⟨t, ht, houtLen, hcount, -, -, hcells, hbeyond, -⟩ := serializeLaysOutTheContainer
    g.encodedInput.packed rfl (h.packed_inv hroom).legal (h.packed_inv hroom).count (h.packed_room hroom)
  obtain rfl := Host.Outcome.next.inj ((h.execSer_eq hroom).symm.trans ht)
  refine ⟨g.compressed, hcmp.trans (h.stages_eq hroom), rfl, rfl, fun sy => ?_,
    (h.inv.tree (.inl h.phase_eq)).congr rfl rfl rfl rfl rfl,
    h.codesOfTree.congr rfl rfl rfl rfl rfl, ?_, hbits.trans h.bits_length_eq_sum,
    hge.trans_eq hbits.symm, hbits.trans_le hle, padding_toNat _, hpayLen, ?_,
    h.compressed_output hroom, houtLen.trans (congrArg _ hpayLen), hcount, hcells,
    fun a ha => ?_, fun a ha => ?_, fun a ha => ?_, h.compressed_frame⟩
  · exact (h.inv.counts (.inr h.phase_eq) sy).trans (by rw [h.input_eq])
  · rw [hseq, State.inputBits, h.input_eq]
    rfl
  · rw [hseq]
    exact h.packed_payload hroom
  · exact (hbeyond a ha).trans (h.byteAt_eq .out a)
  · exact (State.packed_byteAt_ge (h.encoded_inv hroom.fits).legal (h.encoded_room hroom) ha).trans
      (h.byteAt_eq .pay a)
  · exact (g.withBitSeq_bitAt_ge (hbits ▸ ha)).trans (h.bitAt_eq a)

end Sys2Proof.Machine

/-! Decompression as a whole (spec/45_engine.md rules R188, R193 and R194): `DCM` on a container, O41, on
what `CMP` wrote, O42, and on what `CMP` wrote less its last bytes, O43. -/

namespace Sys2Proof.Machine

/-! ## `PAR` and `BLD` on a container -/

/-- The parts of a container are within the bounds `PAR` checks (rule R170). -/
structure GoodParts (c : Config) (F : Vector Count 256) (pad : Nat) (payload : List Byte) : Prop where
  frequencies : ∀ sy, (entry F sy).toNat ≤ freqMax
  padding : 1 ≤ pad ∧ pad ≤ 8
  empty : (keys F).length = 0 → payload.length = 0
  room : payload.length ≤ c.payCap

/-- What `PAR` leaves of a container with these parts. -/
def State.parsedParts (s : State) (F : Vector Count 256) (pad : Nat) (payload : List Byte) : State :=
  (s.parsed F (keys F).length (BitVec.ofNat 8 pad) payload).succeed

section

variable {s : State} {F : Vector Count 256} {pad : Nat} {payload : List Byte}
  (h : GoodParts s.config F pad payload) (hidle : s.phase = .idle)
  (hin : s.input = containerBytes F (keys F).length pad payload)
include h hidle hin

theorem execPar_of_container : execPar s = .next (s.parsedParts F pad payload) := by
  have hbox := holdsContainer_of_containerBytes hin
  have hkeys := keys_length_le F
  have hcount : leValue (leBytes 2 (keys F).length) = (keys F).length := by
    rw [leValue_leBytes]
    exact Nat.mod_eq_of_lt (by omega)
  have hpad : (BitVec.ofNat 8 pad).toNat = pad := by
    have := h.padding
    exact (BitVec.toNat_ofNat ..).trans (Nat.mod_eq_of_lt (by omega))
  have hparsable : Parsable s.config F ((keys F).map fun sy => (sy, (entry F sy).toNat))
      (BitVec.ofNat 8 pad) payload :=
    ⟨(List.length_map _).trans_le hkeys, isTableOf_keys h.frequencies, hpad.symm ▸ h.padding,
      fun h0 => h.empty ((List.length_map _).symm.trans h0), h.room⟩
  exact command_of_ok ((accepts_iff .par s).2 hidle)
    (hbox.parBody_of_parsable hcount (by simpa only [leValue_leBytes_count, id] using hparsable))

end

theorem State.parsedParts_symcnt (s : State) (F : Vector Count 256) (pad : Nat) (payload : List Byte) :
    (s.parsedParts F pad payload).symcnt.toNat = (keys F).length := symcnt_of_keys F

/-- Without an entry `PAR` goes straight to Decoded, with nothing decoded (rule R174). -/
theorem State.parsedParts_of_no_key (s : State) {F : Vector Count 256} (hk : (keys F).length = 0)
    (pad : Nat) (payload : List Byte) : (s.parsedParts F pad payload).phase = .decoded ∧
      (s.parsedParts F pad payload).dLen = 0#40 :=
  ⟨if_pos hk, if_pos hk⟩

/-- What `PAR` and `BLD` leave of a container with these parts. -/
def State.rebuilt (s : State) (F : Vector Count 256) (pad : Nat) (payload : List Byte) : State :=
  (s.parsedParts F pad payload).built (buildTree F (keys F).length)

/-- An Idle block with a container of good parts and at least one entry in its input: `PAR` and `BLD`
lead it to `State.rebuilt`. -/
structure State.ReadyForDcm (s : State) (F : Vector Count 256) (pad : Nat) (payload : List Byte) : Prop where
  parts : GoodParts s.config F pad payload
  keyed : 1 ≤ (keys F).length
  inv : s.Inv
  idle : s.phase = .idle
  input : s.input = containerBytes F (keys F).length pad payload

namespace State.ReadyForDcm

variable {s : State} {F : Vector Count 256} {pad : Nat} {payload : List Byte}
  (h : s.ReadyForDcm F pad payload)
include h

theorem phase_parsed : (s.parsedParts F pad payload).phase = .parsed := by
  have hk := h.keyed
  exact if_neg (by omega)

theorem execBld_eq :
    execBld (s.parsedParts F pad payload) = .next (s.rebuilt F pad payload) := by
  have hnum := s.parsedParts_symcnt F pad payload
  have hbld : execBld (s.parsedParts F pad payload) = .next _ :=
    exec_bld_of_keys (hnum.symm ▸ h.keyed) hnum.symm (.inr h.phase_parsed)
  rwa [hnum] at hbld

theorem treeInvariant : (s.rebuilt F pad payload).TreeInvariant := by
  have hnum := s.parsedParts_symcnt F pad payload
  have htree := built_treeInvariant (hnum.symm ▸ h.keyed) hnum.symm
  rwa [hnum] at htree

theorem accepted_upk : Accepted .upk (s.rebuilt F pad payload) := by
  refine ⟨?_, (h.inv.fresh h.idle).bsv⟩
  have hp := h.phase_parsed
  exact if_neg (by rw [hp]; nofun)

theorem payload_short : payload.length < 2 ^ 40 := by
  have := h.parts.room
  have := Config.payCap_lt h.inv.legal
  omega

theorem payload_eq : (s.rebuilt F pad payload).payload = payload :=
  s.parsed_payload F (keys F).length (BitVec.ofNat 8 pad) h.payload_short

theorem payLen_eq : (s.rebuilt F pad payload).payLen.toNat = payload.length := by
  rw [← State.payload_length, h.payload_eq]

theorem padLen_eq : (s.rebuilt F pad payload).padLen.toNat = pad := by
  have hpad := h.parts.padding
  have h8 : (BitVec.ofNat 8 pad).toNat = pad :=
    (BitVec.toNat_ofNat ..).trans (Nat.mod_eq_of_lt (by omega))
  refine (BitVec.toNat_ofNat ..).trans ?_
  rw [h8]
  exact Nat.mod_eq_of_lt (by omega)

/-- After `PAR` and `BLD` the stages `UPK`, `WLK` and `EMT` are left (rule R193). -/
theorem execDcm_eq :
    execDcm s = stages [execUpk, execWlk, execEmt] (s.rebuilt F pad payload) := by
  have hdec : (s.parsedParts F pad payload).phase ≠ .decoded := by rw [h.phase_parsed]; nofun
  rw [execDcm_of_accepted h.idle, execPar_of_container h.parts h.idle h.input, andThen_ok rfl,
    dcmStages, if_neg hdec, stages_cons, h.execBld_eq, andThen_ok rfl]

section

variable (hpad : pad ≤ 8 * payload.length)
include hpad

/-- `UPK` lays down the bits of the payload less the padding (rule R157). -/
theorem execUpk_eq : execUpk (s.rebuilt F pad payload) = .next
    ((s.rebuilt F pad payload).withBitSeq (unpackBits payload (8 * payload.length - pad))) := by
  have hfits : (s.rebuilt F pad payload).payLen.toNat ≤ (s.rebuilt F pad payload).config.payCap :=
    h.payLen_eq.trans_le h.parts.room
  have hupk := exec_upk_of_long h.accepted_upk hfits (by rwa [h.payLen_eq, h.padLen_eq])
  rwa [h.payload_eq, h.payLen_eq, h.padLen_eq] at hupk

theorem unpacked_bitSeq : ((s.rebuilt F pad payload).withBitSeq
    (unpackBits payload (8 * payload.length - pad))).bitSeq =
      unpackBits payload (8 * payload.length - pad) := by
  refine State.withBitSeq_bitSeq h.inv.legal ?_
  have hroom := h.parts.room
  rw [unpackBits_length]
  change 8 * payload.length - pad ≤ 8 * s.config.payCap
  omega

theorem execDcm_eq_walk : execDcm s = stages [execWlk, execEmt] ((s.rebuilt F pad payload).withBitSeq
    (unpackBits payload (8 * payload.length - pad))) := by
  rw [h.execDcm_eq, stages_cons, h.execUpk_eq hpad, andThen_ok rfl]

end

end State.ReadyForDcm

/-! ## The codes of a byte sequence -/

/-- The container of the packed codes of some bytes, with the table of their counts, has good parts
(rules R151 and R152). -/
theorem goodParts_of_packed {c : Config} {S : List Byte} {bits : List Bit} (hS : S.length ≤ freqMax)
    (hne : S ≠ []) (hroom : bits.length < 8 * c.payCap) :
    GoodParts c (countTable S) (padding bits.length) (packBits bits) where
  frequencies sy := by
    rw [entry_countTable (hS.trans_lt freqMax_lt)]
    exact List.count_le_length.trans hS
  padding := padding_range _
  empty h0 := by
    have := keys_countTable_pos (hS.trans_lt freqMax_lt) hne
    omega
  room := by
    rw [packBits_length]
    omega

/-- The final state of `DCM` on a container whose bits `bits` decode to `S`. -/
def State.decompressed (s : State) (F : Vector Count 256) (pad : Nat) (payload : List Byte)
    (bits : List Bit) (S : List Byte) : State :=
  (((s.rebuilt F pad payload).withBitSeq bits).walked S).emitted

section

variable (s : State) (F : Vector Count 256) (pad : Nat) (payload : List Byte) (bits : List Bit)
  {S : List Byte} (hS : S.length < 2 ^ 40)
include hS

theorem State.decompressed_dLen : (s.decompressed F pad payload bits S).dLen.toNat = S.length :=
  State.walked_dLen ((s.rebuilt F pad payload).withBitSeq bits) hS

theorem State.decompressed_decodedBytes : (s.decompressed F pad payload bits S).decodedBytes = S :=
  State.walked_decodedBytes _ hS

theorem State.decompressed_output : (s.decompressed F pad payload bits S).output = S :=
  (State.emitted_output _).trans (State.walked_decodedBytes _ hS)

end

/-- With the codes of `S` in the payload, in the tree of a table that counts as many bytes, `DCM`
decodes `S` (rules R186 and R194). -/
theorem State.ReadyForDcm.execDcm_of_codes {s : State} {F : Vector Count 256} {pad : Nat}
    {payload : List Byte} (h : s.ReadyForDcm F pad payload) (hpad : pad ≤ 8 * payload.length)
    {S : List Byte} {code : Byte → List Bit}
    (hbits : unpackBits payload (8 * payload.length - pad) = S.flatMap code)
    (hcodes : ∀ d ∈ S, IsCode (buildTree F (keys F).length).node (buildTree F (keys F).length).root
      (code d) d)
    (hsum : S.length = freqSum F) (hcap : S.length ≤ s.config.outCap) :
    execDcm s = .next (s.decompressed F pad payload (S.flatMap code) S) := by
  have hseq := h.unpacked_bitSeq hpad
  have hdcm := h.execDcm_eq_walk hpad
  rw [hbits] at hseq hdcm
  have hwlk : execWlk _ = .next _ := exec_wlk_of_codes
    (s := (s.rebuilt F pad payload).withBitSeq (S.flatMap code)) ⟨h.accepted_upk.1, rfl⟩
    (h.treeInvariant.congr rfl rfl rfl rfl rfl) hcodes hseq hsum hcap
  have hshort : S.length < 2 ^ 40 := hcap.trans_lt (Config.outCap_lt h.inv.legal)
  have hdLen := State.walked_dLen ((s.rebuilt F pad payload).withBitSeq (S.flatMap code)) hshort
  have hemt : execEmt _ = .next _ := exec_emt_of_room
    (s := ((s.rebuilt F pad payload).withBitSeq (S.flatMap code)).walked S) rfl (hdLen.trans_le hcap)
  rw [hdcm, stages_cons, hwlk, andThen_ok rfl, stages_cons, hemt, andThen_ok rfl, stages_nil]
  rfl

/-- On the empty container `DCM` puts out nothing (rules R95 and R174). -/
theorem execDcm_of_empty_container {s : State} (hidle : s.phase = .idle)
    (hin : s.input = [0x00#8, 0x00#8, 0x08#8]) :
    execDcm s = .next (s.parsedParts (Vector.replicate 256 0#32) 8 []).emitted := by
  have hparts : GoodParts s.config (Vector.replicate 256 0#32) 8 [] :=
    ⟨fun sy => by rw [entry_replicate]; exact Nat.zero_le _, by decide, fun _ => rfl, Nat.zero_le _⟩
  have hpar := execPar_of_container hparts hidle (by rw [hin, keys_zero, List.length_nil,
    containerBytes_of_no_key])
  obtain ⟨hdec, hdLen⟩ := s.parsedParts_of_no_key (F := Vector.replicate 256 0#32)
    (congrArg List.length keys_zero) 8 []
  have hemt : execEmt _ = .next _ := exec_emt_of_room hdec (by rw [hdLen]; exact Nat.zero_le _)
  rw [execDcm_of_accepted hidle, hpar, andThen_ok rfl, dcmStages, if_pos hdec, stages_cons, hemt,
    andThen_ok rfl, stages_nil]

/-- Settles O41: the payload unpacks to the codes of `S`, whose number is the sum of the counts. -/
theorem decompressCompletes : Obligations.DecompressCompletes := by
  refine ⟨fun s S code hinv hidle hne hcap hlen hcodes hroom hin => ?_, fun s hinv hidle hin => ?_⟩
  · have hS : S.length ≤ freqMax := Nat.le_sub_one_of_lt hlen
    have h : s.ReadyForDcm (countTable S) (padding (S.flatMap code).length)
        (packBits (S.flatMap code)) :=
      ⟨goodParts_of_packed hS hne hroom, keys_countTable_pos (hS.trans_lt freqMax_lt) hne, hinv, hidle,
        hin⟩
    have hpayload := packBits_payload_bits (S.flatMap code)
    have hpacked := packBits_length (S.flatMap code)
    have hpad := padding_range (S.flatMap code).length
    have hdcm := h.execDcm_of_codes (by omega) (by rw [hpayload, unpackBits_packBits]) hcodes
      (freqSum_countTable (hS.trans_lt freqMax_lt)).symm hcap
    have hshort : S.length < 2 ^ 40 := hcap.trans_lt (Config.outCap_lt hinv.legal)
    have hfits : (S.flatMap code).length ≤ s.config.bitsCap := hroom.le
    refine ⟨_, hdcm, rfl, rfl, s.decompressed_output _ _ _ _ hshort, rfl,
      s.decompressed_decodedBytes _ _ _ _ hshort, fun a ha => ?_, fun a ha => ?_, fun a ha => ?_,
      fun a ha => ?_, rfl⟩
    · refine (State.emitted_byteAt_ge _ ha).trans (State.byteAt_congr ?_ ?_ a) <;> rfl
    · have hge : S.length ≤ a := (s.decompressed_dLen _ _ _ _ hshort).ge.trans ha
      refine State.byteAt_of_store_ge ?_ ?_ hge <;> rfl
    · have hge : (packBits (S.flatMap code)).length ≤ a := h.payLen_eq.ge.trans ha
      refine State.byteAt_of_store_ge ?_ ?_ hge <;> rfl
    · have hge : (S.flatMap code).length ≤ a := (State.withBitSeq_bitLen hinv.legal hfits).ge.trans ha
      exact State.withBitSeq_bitAt_ge _ hge
  · have hnone := s.parsedParts_of_no_key (F := Vector.replicate 256 0#32)
      (congrArg List.length keys_zero) 8 []
    exact ⟨_, execDcm_of_empty_container hidle hin, rfl, rfl, hnone.2⟩

/-! ## What `CMP` wrote -/

/-- Where `CMP` on an input ends with `OK`, there was room and it has compressed. -/
theorem State.Inv.compressed_of_ok {s t : State} (h : s.Inv) (hidle : s.phase = .idle)
    (hlen : s.inLen ≠ 0#40) (ht : execCmp s = .next t) (hok : t.result = .ok) :
    ∃ g, s.Coded g ∧ g.HasRoom ∧ t = g.compressed := by
  obtain ⟨g, hg, hcmp⟩ := h.exists_coded hidle hlen
  rw [hcmp] at ht
  have hroom := hg.hasRoom_of_ok ht hok
  exact ⟨g, hg, hroom, Host.Outcome.next.inj (ht.symm.trans (hg.stages_eq hroom))⟩

namespace State.Coded

variable {s g : State} (h : s.Coded g)
include h

theorem inputBits_eq : g.inputBits = s.input.flatMap g.code := by
  rw [State.inputBits, h.input_eq]

/-- The codes are paths of the tree that `DCM` builds again from the container's table. -/
theorem isCode_of_input {d : Byte} (hd : d ∈ s.input) :
    IsCode (buildTree (countTable s.input) (keys (countTable s.input)).length).node
      (buildTree (countTable s.input) (keys (countTable s.input)).length).root (g.code d) d := by
  rw [← h.node, ← h.root]
  exact (h.code_of_input hd).2

/-- What `CMP` puts out, by the input and the codes (rules R88 and R151). -/
theorem compressed_container (hroom : g.HasRoom) : g.compressed.output =
    containerBytes (countTable s.input) (keys (countTable s.input)).length
      (padding g.inputBits.length) (packBits g.inputBits) := by
  have hpad : g.compressed.padLen.toNat = padding g.inputBits.length := h.packed_padLen hroom
  have hpay : g.compressed.payload = packBits g.inputBits := h.packed_payload hroom
  have hfreq : g.compressed.freq = countTable s.input := h.freq
  have hnum : g.compressed.symcnt.toNat = (keys (countTable s.input)).length := by
    rw [← h.freq]
    exact h.inv.count
  rw [h.compressed_output hroom, hpad, hpay, hfreq, hnum]

end State.Coded

/-- Settles O42: the output of `CMP` is the container of the input's codes, so `DCM` completes on it;
the empty input has the empty container. -/
theorem decompressInvertsCompress : Obligations.DecompressInvertsCompress := by
  intro s t u hinv hidle ht hok huinv huidle hconfig hin hcap
  by_cases hlen : s.inLen = 0#40
  · obtain ⟨-, e, -, -, -, -, -, -, -, -, -, -, -, -, -, hout, hcmp⟩ :=
      emptyInputGivesTheEmptyContainer s hinv hidle hlen
    obtain rfl := Host.Outcome.next.inj (ht.symm.trans hcmp)
    obtain ⟨v, hv, hphase, hres, houtLen⟩ := decompressCompletes.2 u huinv huidle (hin.trans hout)
    refine ⟨v, hv, hphase, hres, ?_⟩
    rw [State.input_eq_nil hlen]
    exact List.length_eq_zero_iff.1 (by rw [State.output_length, houtLen]; rfl)
  · obtain ⟨g, hg, hroom, rfl⟩ := hinv.compressed_of_ok hidle hlen ht hok
    have hpay := hroom.payload
    rw [hg.inputBits_eq, hg.config_eq, ← hconfig] at hpay
    have hinput := hin.trans (hg.compressed_container hroom)
    rw [hg.inputBits_eq] at hinput
    have hshort : s.input.length < 2 ^ 31 := Nat.lt_of_le_pred (by decide) hinv.input_length_le
    obtain ⟨v, hv, hphase, hres, hout, -⟩ := decompressCompletes.1 u s.input g.code huinv huidle
      (State.input_ne_nil hlen) (by rwa [State.input_length, hconfig]) hshort
      (fun d => hg.isCode_of_input) hpay hinput
    exact ⟨v, hv, hphase, hres, hout⟩

/-! ## What `CMP` wrote, less its last bytes -/

/-- What is left of a container that has lost payload bytes from its end (rule R88). -/
theorem containerBytes_take (f : Vector Count 256) (n pad : Nat) (payload : List Byte) {k : Nat}
    (hk : k ≤ payload.length) :
    (containerBytes f n pad payload).take (3 + 5 * (keys f).length + payload.length - k) =
      containerBytes f n pad (payload.take (payload.length - k)) := by
  have hsplit : ∀ p, containerBytes f n pad p = containerBytes f n pad [] ++ p := fun p => by
    simp [containerBytes]
  have hhead := containerBytes_length f n pad []
  rw [List.length_nil] at hhead
  rw [hsplit payload, hsplit (payload.take _), List.take_append, List.take_of_length_le (by omega)]
  congr 2
  omega

/-- The payload without its last bytes holds the first bits (rule R157). -/
theorem unpackBits_take {bytes : List Byte} {j len n : Nat} (hj : len ≤ 8 * j) (hn : len ≤ n) :
    unpackBits (bytes.take j) len = (unpackBits bytes n).take len := by
  refine List.ext_getElem (by simp [hn]) fun i hi _ => ?_
  have hi : i < len := by rwa [unpackBits_length] at hi
  have hlt : i / 8 < j := by omega
  simp [unpackBits, List.getD, List.getElem?_take, hlt]

/-- The first bits of some codes joined, not all of them: the codes of fewer symbols and then a part of
one more code (rule R188). -/
theorem take_flatMap_codes {code : Byte → List Bit} {ds : List Byte} {j : Nat}
    (hj : j < (ds.flatMap code).length) : ∃ done d rest more left, ds = done ++ d :: rest ∧
      (ds.flatMap code).take j = done.flatMap code ++ more ∧ code d = more ++ left ∧ left ≠ [] := by
  induction ds generalizing j with
  | nil => exact absurd hj (Nat.not_lt_zero j)
  | cons d ds ih =>
    rw [List.flatMap_cons, List.length_append] at hj
    rw [List.flatMap_cons, List.take_append]
    by_cases hlt : j < (code d).length
    · refine ⟨[], d, ds, (code d).take j, (code d).drop j, rfl, ?_, (List.take_append_drop ..).symm, ?_⟩
      · rw [Nat.sub_eq_zero_of_le hlt.le, List.take_zero, List.append_nil]
        rfl
      · exact List.ne_nil_of_length_pos (by rw [List.length_drop]; omega)
    · obtain ⟨done, d', rest, more, left, hds, htake, hcode, hleft⟩ :=
        ih (j := j - (code d).length) (by omega)
      refine ⟨d :: done, d', rest, more, left, by rw [hds, List.cons_append], ?_, hcode, hleft⟩
      rw [List.take_of_length_le (by omega), htake, List.flatMap_cons, List.append_assoc]

/-- A part of a code that is not all of it ends inside the code. -/
theorem IsCode.endsInside {arena : Vector Node 511} {root : NodeIx} {p left : List Bit} {sy : Byte}
    (h : IsCode arena root (p ++ left) sy) (hleft : left ≠ []) : EndsInside arena root p := by
  obtain ⟨i, hi, -⟩ := h
  rw [Option.mem_def, follow_append] at hi
  obtain ⟨j, hj, hrest⟩ := Option.bind_eq_some_iff.1 hi
  obtain ⟨b, left, rfl⟩ := List.exists_cons_of_ne_nil hleft
  refine ⟨j, hj, ?_⟩
  rw [follow] at hrest
  split at hrest
  · cases hrest
  · rename_i nd hnd
    split at hrest
    · exact ⟨nd, hnd, by assumption⟩
    · cases hrest

/-- A walk over the first bits of the codes of `S`, not all of them, is refused as `InvalidInput`:
they end inside a code or with too few symbols (rules R185 and R188). -/
theorem exec_wlk_of_missing_bits {s : State} (ha : Accepted .wlk s) (h : s.TreeInvariant)
    {S : List Byte} {code : Byte → List Bit} (hcodes : ∀ d ∈ S, IsCode s.node s.root (code d) d)
    (hsum : S.length = freqSum s.freq) (hcap : S.length ≤ s.config.outCap) {j : Nat}
    (hj : j < (S.flatMap code).length) (hbits : s.bitSeq = (S.flatMap code).take j) :
    ∃ c, exec .wlk s = .next (failed s .invalidInput c) := by
  obtain ⟨done, d, rest, more, left, hS, htake, hcode, hleft⟩ := take_flatMap_codes hj
  have hlen := congrArg List.length hS
  rw [List.length_append, List.length_cons] at hlen
  have hdone : ∀ x ∈ done, IsCode s.node s.root (code x) x := fun x hx =>
    hcodes x (by rw [hS]; exact List.mem_append_left _ hx)
  have hd : IsCode s.node s.root (more ++ left) d := hcode ▸ hcodes d (by simp [hS])
  obtain ⟨-, hmid, hcount⟩ := walkChecksTheEnd s done code more ha.1 ha.2 h hdone (by omega)
    (hbits.trans htake)
  by_cases hmore : more = []
  · exact ⟨_, hcount hmore (by omega)⟩
  · exact ⟨_, hmid hmore (hd.endsInside hleft)⟩

theorem GoodParts.take {c : Config} {F : Vector Count 256} {pad : Nat} {payload : List Byte}
    (h : GoodParts c F pad payload) (j : Nat) : GoodParts c F pad (payload.take j) where
  frequencies := h.frequencies
  padding := h.padding
  empty h0 := by
    have := h.empty h0
    rw [List.length_take]
    omega
  room := (List.length_take_le' j payload).trans h.room

/-- A sequence of stages ends with the first one where that does not end with `OK` (rule R191). -/
theorem stages_of_not_ok {c : State → StepResult} {cs : List (State → StepResult)} {s t : State}
    (h : c s = .next t) (hne : t.result ≠ .ok) : stages (c :: cs) s = .next t := by
  rw [stages_cons, h, andThen_not_ok hne]

/-- A `DCM` that fails in a stage after `PAR` and `BLD` puts out nothing (rules R184 (a) and R217). -/
theorem State.ReadyForDcm.outLen_eq {s : State} {F : Vector Count 256} {pad : Nat}
    {payload : List Byte} (h : s.ReadyForDcm F pad payload) : (s.rebuilt F pad payload).outLen = 0#40 :=
  (h.inv.fresh h.idle).outLen

/-- On a container of the codes of `S` that has lost at least one payload byte `DCM` fails with
`InvalidInput`, in `UPK` or in `WLK` (rule R188). -/
theorem State.ReadyForDcm.execDcm_of_missing_bytes {s : State} {F : Vector Count 256}
    {S : List Byte} {code : Byte → List Bit} {j : Nat}
    (h : s.ReadyForDcm F (padding (S.flatMap code).length) ((packBits (S.flatMap code)).take j))
    (hj : j < (packBits (S.flatMap code)).length)
    (hcodes : ∀ d ∈ S, IsCode (buildTree F (keys F).length).node (buildTree F (keys F).length).root
      (code d) d)
    (hsum : S.length = freqSum F) (hcap : S.length ≤ s.config.outCap) :
    ∃ v, execDcm s = .next v ∧ v.phase = .failed ∧ v.result = .invalidInput ∧ v.outLen = 0#40 := by
  have hpacked := packBits_length (S.flatMap code)
  have hpadding := padding_range (S.flatMap code).length
  have hpayload := packBits_payload_bits (S.flatMap code)
  have hlen : ((packBits (S.flatMap code)).take j).length = j := List.length_take_of_le hj.le
  by_cases hpad : padding (S.flatMap code).length ≤ 8 * j
  · have hpad' : padding (S.flatMap code).length ≤ 8 * ((packBits (S.flatMap code)).take j).length := by
      rwa [hlen]
    have hdcm := h.execDcm_eq_walk hpad'
    have hseq := h.unpacked_bitSeq hpad'
    have hbits : unpackBits ((packBits (S.flatMap code)).take j)
        (8 * j - padding (S.flatMap code).length) =
          (S.flatMap code).take (8 * j - padding (S.flatMap code).length) := by
      rw [unpackBits_take (n := (S.flatMap code).length) (by omega) (by omega), unpackBits_packBits]
    rw [hlen, hbits] at hdcm hseq
    obtain ⟨c, hwlk⟩ := exec_wlk_of_missing_bits (s := (s.rebuilt F _ _).withBitSeq _)
      ⟨h.accepted_upk.1, rfl⟩ (h.treeInvariant.congr rfl rfl rfl rfl rfl) hcodes hsum hcap
      (by omega) hseq
    exact ⟨_, hdcm.trans (stages_of_not_ok hwlk nofun), rfl, rfl, h.outLen_eq⟩
  · have hshort := upkBody_of_short (s := s.rebuilt F _ _) (by rw [h.payLen_eq, h.padLen_eq, hlen]; omega)
    have hupk : execUpk _ = .next _ := command_of_raise ((accepts_iff .upk _).2 h.accepted_upk) hshort
    exact ⟨_, h.execDcm_eq.trans (stages_of_not_ok hupk nofun), rfl, rfl, h.outLen_eq⟩

/-- Settles O43: what is left is a container of the same table and padding whose payload lacks bytes. -/
theorem truncatedPayloadIsDetected : Obligations.TruncatedPayloadIsDetected := by
  intro s t u k hinv hidle hlen ht hok hcap huinv huidle hconfig hk1 hk hin
  obtain ⟨g, hg, hroom, rfl⟩ := hinv.compressed_of_ok hidle hlen ht hok
  have hcontainer := hg.compressed_container hroom
  have hpayLen : g.compressed.payLen.toNat = (packBits g.inputBits).length := by
    rw [packBits_length]
    exact hg.packed_payLen hroom
  have houtLen : g.compressed.outLen.toNat =
      3 + 5 * (keys (countTable s.input)).length + (packBits g.inputBits).length := by
    rw [← State.output_length, hcontainer, containerBytes_length]
  rw [hpayLen] at hk
  rw [hcontainer, houtLen, containerBytes_take _ _ _ _ hk] at hin
  have hpay := hroom.payload
  rw [hg.config_eq, ← hconfig] at hpay
  have hne := State.input_ne_nil hlen
  have hS := hinv.input_length_le
  have h : u.ReadyForDcm (countTable s.input) (padding g.inputBits.length)
      ((packBits g.inputBits).take ((packBits g.inputBits).length - k)) :=
    ⟨(goodParts_of_packed hS hne hpay).take _, keys_countTable_pos (hS.trans_lt freqMax_lt) hne, huinv,
      huidle, hin⟩
  rw [hg.inputBits_eq] at h
  refine h.execDcm_of_missing_bytes ?_ (fun d => hg.isCode_of_input)
    (freqSum_countTable (hS.trans_lt freqMax_lt)).symm (by rwa [State.input_length, hconfig])
  rw [hg.inputBits_eq] at hk
  omega

end Sys2Proof.Machine

/-! How a command is rejected and how it fails, and that a failed block stays failed until it is cleared
(spec/60_exceptions.md rules R217 to R221): O7, O10, O13. -/

namespace Sys2Proof.Machine

/-! ## Rejection and failure -/

/-- Settles O7: a command that is not accepted and a word that is no command are rejected. -/
theorem rejectionChangesOnlyTheOutcome : Obligations.RejectionChangesOnlyTheOutcome := by
  refine ⟨fun i s ha => exec_of_not_accepted ha, fun w s e he => ?_⟩
  rw [commandWrite, he]
  rfl

/-- An accepted command with a body that does not end with `OK` leaves the failure entry (rules R217
and R219). -/
theorem failed_of_body {i : Instr} {b : State → Except Stop State} (hb : bodyOf i = some b) {s t : State}
    (ha : Accepted i s) (h : exec i s = .next t) (hne : t.result ≠ .ok) :
    (t.result = .invalidInput ∨ t.result = .capacityError) ∧ t = failed s t.result t.cause := by
  rcases exec_body_next hb h with ⟨hn, -⟩ | ⟨-, u, -, rfl⟩ | ⟨-, r, c, ⟨hr, -⟩, rfl⟩
  · exact absurd ha hn
  · exact absurd rfl hne
  · exact ⟨hr, rfl⟩

/-- Settles O10: `CLR` does not fail, and any other command but `CMP` and `DCM` has a body. -/
theorem failureChangesNothingElse : Obligations.FailureChangesNothingElse := by
  intro i s t ha hcmp hdcm h hne
  cases i with
  | clr =>
    obtain rfl := Host.Outcome.next.inj h
    exact absurd rfl hne
  | cmp => exact absurd rfl hcmp
  | dcm => exact absurd rfl hdcm
  | _ => exact failed_of_body rfl ha h hne

/-! ## A failed block -/

/-- A word that decodes to a command is its code (rule R82). -/
theorem encode_of_decode {w : Byte} {i : Instr} (h : decode w = .ok i) : w = encode i := by
  have hrows : ∀ r ∈ opTable, r.mask = BitVec.allOnes 8 ∧ r.code = encode r.instr := by decide
  unfold decode at h
  split at h
  · rename_i r hfind
    obtain ⟨hmask, hcode⟩ := hrows r (List.mem_of_find?_eq_some hfind)
    have hsel : r.selects w = true := List.find?_some (p := fun r : OpRow => r.selects w) hfind
    have hsel : w &&& r.mask = r.code := eq_of_beq hsel
    rwa [hmask, BitVec.and_allOnes, hcode, Except.ok.inj h] at hsel
  · cases h

/-- In Failed only `CLR` is accepted (rules R181 and R220). -/
theorem not_accepted_of_failed {i : Instr} {s : State} (hp : s.phase = .failed) (hi : i ≠ .clr) :
    ¬ Accepted i s := by
  cases i <;> simp_all [Accepted]

/-- `t` is failed, with `FREQ`, `NODE` and `OUT_LEN` of `s` and no host action to come that `s` has
not. -/
structure State.StaysFailed (s t : State) : Prop where
  phase : t.phase = .failed
  es : t.es = true
  freq : t.freq = s.freq
  node : t.node = s.node
  outLen : t.outLen = s.outLen
  host : t.host ⊆ s.host

theorem State.StaysFailed.trans {s t u : State} (h : s.StaysFailed t) (h' : t.StaysFailed u) :
    s.StaysFailed u :=
  ⟨h'.phase, h'.es, h'.freq.trans h.freq, h'.node.trans h.node, h'.outLen.trans h.outLen,
    List.Subset.trans h'.host h.host⟩

section

variable {s : State} (hp : s.phase = .failed) (hes : s.es = true)
include hp

theorem State.staysFailed_reject (r : Result) : s.StaysFailed (s.reject r) :=
  ⟨hp, rfl, rfl, rfl, rfl, List.Subset.refl _⟩

/-- In Failed every word but the code of `CLR` is rejected (rules R84, R181 and R220). -/
theorem commandWrite_of_failed {w : Byte} (hw : w ≠ encode .clr) :
    ∃ r, commandWrite w s = .next (s.reject r) := by
  unfold commandWrite
  split
  · rename_i i hi
    refine ⟨_, exec_of_not_accepted (not_accepted_of_failed hp ?_)⟩
    rintro rfl
    exact hw (encode_of_decode hi)
  · exact ⟨_, rfl⟩

include hes

theorem State.staysFailed_refl : s.StaysFailed s := ⟨hp, hes, rfl, rfl, rfl, List.Subset.refl _⟩

/-- Whatever the host does but clear or reset it, a failed block stays failed (rules R29, R55, R220). -/
theorem hostStep_of_failed {a : HostAction} (hreset : a ≠ .reset) (hclr : a ≠ .command (encode .clr)) :
    ∃ t, hostStep a s = .next t ∧ s.StaysFailed t := by
  have hidle : s.phase ≠ .idle := by simp [hp]
  have hsame := State.staysFailed_refl hp hes
  cases a with
  | command w =>
    obtain ⟨r, hr⟩ := commandWrite_of_failed hp fun hw => hclr (congrArg _ hw)
    exact ⟨_, hr, State.staysFailed_reject hp r⟩
  | writeIn a v => exact ⟨s, congrArg _ (if_neg fun h => hidle h.1), hsame⟩
  | writeInLen n => exact ⟨s, congrArg _ (if_neg fun h => hidle h.1), hsame⟩
  | writeReadOnly l v => exact ⟨s, rfl, hsame⟩
  | read l =>
    refine ⟨_, rfl, ?_⟩
    rw [readBy_frame]
    exact ⟨hp, hes, rfl, rfl, rfl, List.Subset.refl _⟩
  | reset => exact absurd rfl hreset

theorem step_of_failed (hh : neverClears s.host) : ∃ t, step s = .next t ∧ s.StaysFailed t := by
  match hhost : s.host with
  | [] => exact ⟨s, step_of_no_host hhost, State.staysFailed_refl hp hes⟩
  | a :: rest =>
    obtain ⟨hreset, hclr⟩ := hh a (hhost ▸ List.mem_cons_self)
    obtain ⟨t, ht, hstays⟩ := hostStep_of_failed (s := { s with host := rest }) hp hes hreset hclr
    exact ⟨t, (step_of_host hhost).trans ht,
      { hstays with host := List.Subset.trans hstays.host (hhost ▸ List.subset_cons_self a rest) }⟩

end

theorem runSteps_of_failed (n : Nat) {s : State} (hp : s.phase = .failed) (hes : s.es = true)
    (hh : neverClears s.host) : ∃ t, runSteps n s = .next t ∧ s.StaysFailed t := by
  induction n generalizing s with
  | zero => exact ⟨s, rfl, State.staysFailed_refl hp hes⟩
  | succ n ih =>
    obtain ⟨u, hu, hsu⟩ := step_of_failed hp hes hh
    obtain ⟨t, ht, hut⟩ := ih hsu.phase hsu.es fun a ha => hh a (hsu.host ha)
    exact ⟨t, (runSteps_succ hu).trans ht, hsu.trans hut⟩

/-- Settles O13: every step keeps the block failed. -/
theorem failedUntilCleared : Obligations.FailedUntilCleared := by
  intro n s hp hes hh
  obtain ⟨t, ht, hstays⟩ := runSteps_of_failed n hp hes hh
  exact ⟨t, ht, hstays.phase, hstays.es, hstays.freq, hstays.node, hstays.outLen⟩

end Sys2Proof.Machine

/-! The results and causes each accepted command can end with (spec/60_exceptions.md rules R202 and R209,
spec/45_engine.md rules R192 and R193): O9. -/

namespace Sys2Proof.Machine

/-! ## What a body raises -/

/-- Whatever the computation raises is listed for the command `i`. -/
def RaisesListed {α : Type} (i : Instr) (x : Except Stop α) : Prop :=
  ∀ r c, x = .error (.raise r c) → (r, c) ∈ outcomes i

section

variable {α : Type} {i : Instr}

theorem raisesListed_ok (a : α) : RaisesListed i (.ok a : Except Stop α) := fun _ _ => nofun

theorem raisesListed_stuck (f : Fault) : RaisesListed i (.error (.stuck f) : Except Stop α) :=
  fun _ _ => nofun

theorem raisesListed_raise {r : Result} {c : Cause} (h : (r, c) ∈ outcomes i) :
    RaisesListed i (.error (.raise r c) : Except Stop α) := by
  intro r' c' he
  obtain ⟨rfl, rfl⟩ := Stop.raise.inj (Except.error.inj he)
  exact h

/-- An error handed on is as good as where it comes from. -/
theorem RaisesListed.error {β : Type} {x : Except Stop α} {e : Stop} (h : RaisesListed i x)
    (he : x = .error e) : RaisesListed i (.error e : Except Stop β) := fun r c hr =>
  h r c (he.trans (congrArg _ (Except.error.inj hr)))

theorem RaisesListed.ite {p : Prop} [Decidable p] {x y : Except Stop α} (hx : RaisesListed i x)
    (hy : RaisesListed i y) : RaisesListed i (if p then x else y) := by
  split <;> assumption

theorem raisesListed_recordAt (arena : Vector Node 511) (j : NodeIx) :
    RaisesListed i (recordAt arena j) := by
  unfold recordAt
  split
  · exact raisesListed_ok _
  · exact raisesListed_stuck _

theorem raisesListed_storeWithin (cap : Nat) (vs : List α) (m : Memory α) :
    RaisesListed i (storeWithin cap vs m) :=
  .ite (raisesListed_ok _) (raisesListed_stuck _)

end

/-- Where every byte has a code, the loop of `ENC` raises no `NoCode` (rule R148). -/
theorem raisesListed_encodeBits {code : Byte → List Bit} {l : List Byte} (h : ∀ b ∈ l, code b ≠ [])
    (cap len : Nat) : RaisesListed .enc (encodeBits code cap l len) := by
  induction l generalizing len with
  | nil => exact raisesListed_ok _
  | cons b l ih =>
    obtain ⟨hb, hl⟩ := List.forall_mem_cons.1 h
    rw [encodeBits, if_neg (mt List.length_eq_zero_iff.1 hb)]
    refine .ite (raisesListed_raise (by decide)) ?_
    split
    · exact (ih hl _).error (by assumption)
    · exact raisesListed_ok _

theorem raisesListed_parseEntries (s : State) (todo k : Nat) (F : Vector Count 256) :
    RaisesListed .par (parseEntries s todo k F) := by
  induction todo generalizing k F with
  | zero => exact raisesListed_ok _
  | succ todo ih =>
    exact .ite (raisesListed_raise (by decide)) (.ite (raisesListed_raise (by decide)) (ih _ _))

theorem raisesListed_walkBits (arena : Vector Node 511) (root : NodeIx) (cap : Nat) (bs : List Bit)
    (cur : NodeIx) (d : Nat) : RaisesListed .wlk (walkBits arena root cap bs cur d) := by
  induction bs generalizing cur d with
  | nil => exact raisesListed_ok _
  | cons b bs ih =>
    rw [walkBits]
    split
    · exact (raisesListed_recordAt arena cur).error (by assumption)
    refine .ite (raisesListed_raise (by decide)) ?_
    split
    · exact (raisesListed_recordAt arena _).error (by assumption)
    split
    · exact ih _ _
    refine .ite (raisesListed_raise (by decide)) ?_
    split
    · exact (ih _ _).error (by assumption)
    · exact raisesListed_ok _

theorem raisesListed_encBody {s : State} (h : ∀ b ∈ s.input, s.code b ≠ []) :
    RaisesListed .enc (encBody s) := by
  unfold encBody
  split
  · exact (raisesListed_encodeBits h _ _).error (by assumption)
  · exact raisesListed_ok _

theorem raisesListed_pckBody (s : State) : RaisesListed .pck (pckBody s) :=
  .ite (raisesListed_raise (by decide)) (raisesListed_ok _)

theorem raisesListed_serBody (s : State) : RaisesListed .ser (serBody s) :=
  .ite (raisesListed_raise (by decide)) (.ite (raisesListed_stuck _) (raisesListed_ok _))

theorem raisesListed_parBody (s : State) : RaisesListed .par (parBody s) := by
  refine .ite (raisesListed_raise (by decide)) (.ite (raisesListed_raise (by decide))
    (.ite (raisesListed_raise (by decide)) ?_))
  split
  · exact (raisesListed_parseEntries _ _ _ _).error (by assumption)
  · exact .ite (raisesListed_raise (by decide)) (.ite (raisesListed_raise (by decide))
      (.ite (raisesListed_raise (by decide)) (.ite (raisesListed_ok _) (raisesListed_ok _))))

theorem raisesListed_upkBody (s : State) : RaisesListed .upk (upkBody s) := by
  refine .ite (raisesListed_raise (by decide)) ?_
  split
  · exact (raisesListed_storeWithin _ _ _).error (by assumption)
  · exact raisesListed_ok _

theorem raisesListed_wlkBody (s : State) : RaisesListed .wlk (wlkBody s) := by
  unfold wlkBody
  split
  · exact (raisesListed_walkBits _ _ _ _ _ _).error (by assumption)
  · exact .ite (raisesListed_raise (by decide)) (.ite (raisesListed_raise (by decide))
      (raisesListed_ok _))

/-! ## How a command with a body ends -/

/-- If it answers a next state, its result and cause are listed for the command `i`. -/
def EndsListed (i : Instr) (o : StepResult) : Prop :=
  ∀ t, o = .next t → (t.result, t.cause) ∈ outcomes i

theorem ok_mem_outcomes (i : Instr) : (.ok, .none) ∈ outcomes i := by
  cases i <;> decide

/-- `CAUSE` is 0 with `OK`, which every command has in its list (rule R33). -/
theorem endsListed_ok (i : Instr) {t : State} (h : t.Inv) (hok : t.result = .ok) :
    EndsListed i (.next t) := by
  intro t' ht
  obtain rfl := Host.Outcome.next.inj ht
  have hcause : t.cause = .none := h.results.2.2 (by simp [hok])
  rw [hok, hcause]
  exact ok_mem_outcomes i

/-- An accepted command ends with `OK` or with what its body raises (rules R211 and R217). -/
theorem endsListed_of_body {i : Instr} {b : State → Except Stop State} (hb : bodyOf i = some b)
    {s : State} (ha : Accepted i s) (hr : RaisesListed i (b s)) : EndsListed i (exec i s) := by
  intro t ht
  rw [exec_eq_command hb] at ht
  rcases command_next ht with ⟨hn, -⟩ | ⟨-, u, -, rfl⟩ | ⟨-, r, c, he, rfl⟩
  · exact absurd ((accepts_iff i s).2 ha) (by simp [hn])
  · exact ok_mem_outcomes i
  · exact hr r c he

/-- With the invariant every input byte of an accepted `ENC` is a key, and so has a code (rule R148). -/
theorem State.Inv.code_ne_nil {s : State} (h : s.Inv) (ha : Accepted .enc s) {b : Byte}
    (hb : b ∈ s.input) : s.code b ≠ [] := by
  obtain ⟨hphase, hctv, -⟩ := ha
  have hcount := h.counts (.inr hphase) b
  have hkey : b ∈ keys s.freq := mem_keys.2 (hcount ▸ List.count_pos_iff.2 hb)
  have hlen := (((h.codes hctv).2 b).1 hkey).1
  rw [← code_length] at hlen
  exact List.ne_nil_of_length_pos hlen

/-- An accepted `BLD` completes: in Counted and Parsed there is a key (rules R126 and R184 (b)). -/
theorem State.Inv.endsListed_bld {s : State} (h : s.Inv) (ha : Accepted .bld s) :
    EndsListed .bld (exec .bld s) := by
  have hexec := exec_bld_of_keys (h.tabled ha).1 h.count.symm ha
  exact hexec ▸ endsListed_ok .bld (keepsInv_bld _ _ h hexec) rfl

/-- An accepted `GEN` completes: its walk goes over a tree (rule R136). -/
theorem State.Inv.endsListed_gen {s : State} (h : s.Inv) (ha : Accepted .gen s) :
    EndsListed .gen (exec .gen s) := by
  obtain ⟨hphase, hctv⟩ := ha
  obtain ⟨tbl, hv⟩ := (h.tree (.inl hphase)).visit_root_completes CodeTable.empty
  have hexec := exec_gen_of_visit hphase hctv hv
  exact hexec ▸ endsListed_ok .gen (keepsInv_gen _ _ h hexec) rfl

/-- An accepted `EMT` completes: the decoded bytes fit `OUT` (rule R189). -/
theorem State.Inv.endsListed_emt {s : State} (h : s.Inv) (ha : Accepted .emt s) :
    EndsListed .emt (exec .emt s) := by
  obtain ⟨-, -, -, -, hdLen⟩ := h.lengths
  have hexec := exec_emt_of_room ha hdLen
  exact hexec ▸ endsListed_ok .emt (keepsInv_emt _ _ h hexec) rfl

theorem State.Inv.endsListed_body {s : State} (h : s.Inv) {i : Instr} {b : State → Except Stop State}
    (hb : bodyOf i = some b) (ha : Accepted i s) : EndsListed i (exec i s) := by
  cases i with
  | clr | cmp | dcm => cases hb
  | cnt => exact endsListed_of_body rfl ha (.ite (raisesListed_ok _) (raisesListed_ok _))
  | bld => exact h.endsListed_bld ha
  | gen => exact h.endsListed_gen ha
  | enc => exact endsListed_of_body rfl ha (raisesListed_encBody fun _ => h.code_ne_nil ha)
  | pck => exact endsListed_of_body rfl ha (raisesListed_pckBody s)
  | ser => exact endsListed_of_body rfl ha (raisesListed_serBody s)
  | par => exact endsListed_of_body rfl ha (raisesListed_parBody s)
  | upk => exact endsListed_of_body rfl ha (raisesListed_upkBody s)
  | wlk => exact endsListed_of_body rfl ha (raisesListed_wlkBody s)
  | emt => exact h.endsListed_emt ha

/-! ## `CMP` and `DCM` -/

/-- A stage `j` of `CMP` or `DCM`: where it ends with `OK` the rest follows, and anything else it can end
with, the whole can end with (rule R191). -/
theorem endsListed_andThen {i j : Instr} {b : State → Except Stop State} (hb : bodyOf j = some b)
    (hsub : outcomes j ⊆ outcomes i) {s : State} (h : s.Inv) (ha : Accepted j s)
    {g : State → StepResult}
    (hrest : ∀ u, u.Inv → exec j s = .next u → u.result = .ok → EndsListed i (g u)) :
    EndsListed i (andThen (exec j s) g) := by
  intro t ht
  rcases andThen_next ht with ⟨hj, -⟩ | ⟨u, hu, hok, hg⟩
  · exact hsub (h.endsListed_body hb ha t hj)
  · exact hrest u (keepsInv_exec j s u h hu) hu hok t hg

theorem State.Inv.endsListed_cmp {s : State} (h : s.Inv) (hidle : s.phase = .idle) :
    EndsListed .cmp (execCmp s) := by
  by_cases hlen : s.inLen = 0#40
  · rw [execCmp_of_accepted hidle, cmpStages, if_pos hlen]
    refine endsListed_andThen (j := .cnt) rfl (by decide) h hidle fun c hc hcnt okc => ?_
    obtain ⟨hphase, -⟩ := moves_cnt okc hcnt
    rw [if_pos hlen] at hphase
    exact endsListed_andThen (j := .ser) rfl (by decide) hc hphase fun t ht _ =>
      endsListed_ok .cmp ht
  · obtain ⟨g, hg, hcmp⟩ := h.exists_coded hidle hlen
    rw [hcmp]
    refine endsListed_andThen (j := .enc) rfl (by decide) hg.inv hg.accepted_enc fun e he henc oke => ?_
    obtain ⟨hphase, -, hbsv, -⟩ := moves_enc oke henc
    refine endsListed_andThen (j := .pck) rfl (by decide) he ⟨hphase, hbsv⟩ fun p hp hpck okp => ?_
    obtain ⟨hphase, -⟩ := moves_pck okp hpck
    exact endsListed_andThen (j := .ser) rfl (by decide) hp hphase fun t ht _ => endsListed_ok .cmp ht

/-- The last stage of `DCM` (rule R193). -/
theorem State.Inv.endsListed_dcm_emt {s : State} (h : s.Inv) (hdec : s.phase = .decoded) :
    EndsListed .dcm (stages [execEmt] s) :=
  endsListed_andThen (j := .emt) rfl (by decide) h hdec fun _ ht _ => endsListed_ok .dcm ht

theorem State.Inv.endsListed_dcm {s : State} (h : s.Inv) (hidle : s.phase = .idle) :
    EndsListed .dcm (execDcm s) := by
  rw [execDcm_of_accepted hidle]
  refine endsListed_andThen (j := .par) rfl (by decide) h hidle fun p hp hpar okp => ?_
  obtain ⟨hphase, -, hbsv, -⟩ := moves_par okp hpar
  rw [(h.fresh hidle).bsv] at hbsv
  unfold dcmStages
  split
  · exact hp.endsListed_dcm_emt (by assumption)
  · rename_i hdec
    have hparsed : p.phase = .parsed := by
      split at hphase
      · exact absurd hphase hdec
      · exact hphase
    refine endsListed_andThen (j := .bld) rfl (by decide) hp (.inr hparsed) fun b hb hbld okb => ?_
    obtain ⟨hphase, -, hbsv', -⟩ := moves_bld okb hbld
    rw [hparsed, if_neg nofun] at hphase
    refine endsListed_andThen (j := .upk) rfl (by decide) hb ⟨hphase, hbsv'.trans hbsv⟩
      fun k hk hupk okk => ?_
    obtain ⟨hphase, -, hbsv, -⟩ := moves_upk okk hupk
    refine endsListed_andThen (j := .wlk) rfl (by decide) hk ⟨hphase, hbsv⟩ fun w hw hwlk okw => ?_
    obtain ⟨hphase, -⟩ := moves_wlk okw hwlk
    exact hw.endsListed_dcm_emt hphase

/-- Settles O9: a command with a body ends as its body does, and `CMP` and `DCM` as one of their
stages. -/
theorem acceptedCommandsEndAsTabulated : Obligations.AcceptedCommandsEndAsTabulated := by
  intro i s t h ha ht
  cases i with
  | clr =>
    obtain rfl := Host.Outcome.next.inj ht
    exact ok_mem_outcomes .clr
  | cmp => exact h.endsListed_cmp ha t ht
  | dcm => exact h.endsListed_dcm ha t ht
  | _ => exact h.endsListed_body rfl ha t ht

end Sys2Proof.Machine
